-- ==== Sys2Proof/Word.lean ====
section
/-!
DEFINITION. The word types of the spec and the plain operations on them (00_scope.md rules R6 to R9).
-/

namespace Sys2Proof

/-- The 64-bit value every register of the spec holds (rules R1, R2, R70, R72). -/
abbrev Word := BitVec 64

/-- One byte of memory. -/
abbrev Byte := BitVec 8

/-- One instruction word (rule R111). -/
abbrev InstrWord := BitVec 32

/-- `IsZero(v)` (rule R8): every bit of `v` is 0. -/
def isZero (v : Word) : Bool := v == 0#64

/-- The Exception levels, the values of `PSTATE.EL` (rules R73, R200). -/
inductive EL where
  | el0 | el1 | el2 | el3
deriving DecidableEq, Repr

end Sys2Proof
end

