-- ==== Sys2Proof/Syntax.lean ====
section
/-!
DEFINITION. The instructions (30_encoding.md rules R112 to R114): the twelve rows of spec/opcode_table.json. The one
operand of each is the number `t` of a general register; `WellFormed` bounds it.
-/

namespace Sys2Proof

/-- The six accessor names (rule R112). -/
inductive AccName where
  | sctlr2El1 | sctlr2El12 | sctlr2AliasEl1 | sctlr2El2 | sctlr2MaskEl1 | sctlr2MaskEl12
deriving DecidableEq, Repr

/-- One constructor per row of the opcode table, in the table's order. -/
inductive Instr where
  /-- `MRS <Xt>, SCTLR2_EL1` (rule R130). -/
  | mrsSctlr2El1 (t : Nat)
  /-- `MSR SCTLR2_EL1, <Xt>` (rule R131). -/
  | msrSctlr2El1 (t : Nat)
  /-- `MRS <Xt>, SCTLR2_EL12` (rule R132). -/
  | mrsSctlr2El12 (t : Nat)
  /-- `MSR SCTLR2_EL12, <Xt>` (rule R133). -/
  | msrSctlr2El12 (t : Nat)
  /-- `MRS <Xt>, SCTLR2ALIAS_EL1` (rule R134). -/
  | mrsSctlr2AliasEl1 (t : Nat)
  /-- `MSR SCTLR2ALIAS_EL1, <Xt>` (rule R135). -/
  | msrSctlr2AliasEl1 (t : Nat)
  /-- `MRS <Xt>, SCTLR2_EL2` (rule R150). -/
  | mrsSctlr2El2 (t : Nat)
  /-- `MSR SCTLR2_EL2, <Xt>` (rule R151). -/
  | msrSctlr2El2 (t : Nat)
  /-- `MRS <Xt>, SCTLR2MASK_EL1` (rule R160). -/
  | mrsSctlr2MaskEl1 (t : Nat)
  /-- `MSR SCTLR2MASK_EL1, <Xt>` (rule R161). -/
  | msrSctlr2MaskEl1 (t : Nat)
  /-- `MRS <Xt>, SCTLR2MASK_EL12` (rule R162). -/
  | mrsSctlr2MaskEl12 (t : Nat)
  /-- `MSR SCTLR2MASK_EL12, <Xt>` (rule R163). -/
  | msrSctlr2MaskEl12 (t : Nat)
deriving DecidableEq, Repr

/-- The operand `t`: the number of the general register (rule R114). -/
def Instr.operand : Instr → Nat
  | .mrsSctlr2El1 t | .msrSctlr2El1 t | .mrsSctlr2El12 t | .msrSctlr2El12 t
  | .mrsSctlr2AliasEl1 t | .msrSctlr2AliasEl1 t | .mrsSctlr2El2 t | .msrSctlr2El2 t
  | .mrsSctlr2MaskEl1 t | .msrSctlr2MaskEl1 t | .mrsSctlr2MaskEl12 t | .msrSctlr2MaskEl12 t => t

/-- The accessor name an instruction carries (rule R110: fixed by the tuple, not an operand at run time). -/
def Instr.accessor : Instr → AccName
  | .mrsSctlr2El1 _ | .msrSctlr2El1 _ => .sctlr2El1
  | .mrsSctlr2El12 _ | .msrSctlr2El12 _ => .sctlr2El12
  | .mrsSctlr2AliasEl1 _ | .msrSctlr2AliasEl1 _ => .sctlr2AliasEl1
  | .mrsSctlr2El2 _ | .msrSctlr2El2 _ => .sctlr2El2
  | .mrsSctlr2MaskEl1 _ | .msrSctlr2MaskEl1 _ => .sctlr2MaskEl1
  | .mrsSctlr2MaskEl12 _ | .msrSctlr2MaskEl12 _ => .sctlr2MaskEl12

/-- `MRS` (a read, L = 1) or `MSR` (a write, L = 0) (rule R111). -/
def Instr.isRead : Instr → Bool
  | .mrsSctlr2El1 _ | .mrsSctlr2El12 _ | .mrsSctlr2AliasEl1 _
  | .mrsSctlr2El2 _ | .mrsSctlr2MaskEl1 _ | .mrsSctlr2MaskEl12 _ => true
  | .msrSctlr2El1 _ | .msrSctlr2El12 _ | .msrSctlr2AliasEl1 _
  | .msrSctlr2El2 _ | .msrSctlr2MaskEl1 _ | .msrSctlr2MaskEl12 _ => false

end Sys2Proof
end

