-- ==== Sys2Proof/WellFormed.lean ====
section
/-!
DEFINITION. When an instruction term is one the encoding can hold (30_encoding.md rule R114): its operand is the
unsigned number of a 5-bit field, 0 to 31. That is the one check; the accessor name is part of the constructor.
-/

namespace Sys2Proof

/-- Rule R114: the operand is 0 to 31. -/
def Instr.wellFormed (i : Instr) : Bool := decide (i.operand < 32)

/-- The proposition that an instruction is well formed. -/
abbrev Instr.WellFormed (i : Instr) : Prop := i.wellFormed = true

end Sys2Proof
end

