-- ==== Sys2Proof/Decode.lean ====
section
/-!
DEFINITION. Decoding and encoding (30_encoding.md rules R110 to R117). The decoder follows the match and mask table of
rule R113; the encoder follows the field layout of rule R111 and the tuples of rule R112, so that their agreement says
something about the tables.
-/

namespace Sys2Proof

/-- The mask of every row of rule R113. -/
def rowMask : InstrWord := 0xFFFFFFE0#32

/-- One row of rule R113: its `match` word and the instruction with operand `t`. -/
structure Row where
  pattern : InstrWord
  make : Nat → Instr

/-- The twelve rows of rule R113. -/
def rows : List Row :=
  [ ⟨0xD5381060#32, .mrsSctlr2El1⟩,
    ⟨0xD5181060#32, .msrSctlr2El1⟩,
    ⟨0xD53D1060#32, .mrsSctlr2El12⟩,
    ⟨0xD51D1060#32, .msrSctlr2El12⟩,
    ⟨0xD53814E0#32, .mrsSctlr2AliasEl1⟩,
    ⟨0xD51814E0#32, .msrSctlr2AliasEl1⟩,
    ⟨0xD53C1060#32, .mrsSctlr2El2⟩,
    ⟨0xD51C1060#32, .msrSctlr2El2⟩,
    ⟨0xD5381460#32, .mrsSctlr2MaskEl1⟩,
    ⟨0xD5181460#32, .msrSctlr2MaskEl1⟩,
    ⟨0xD53D1460#32, .mrsSctlr2MaskEl12⟩,
    ⟨0xD51D1460#32, .msrSctlr2MaskEl12⟩ ]

/-- `Rt`, bits [4:0] (rule R111). -/
def rtOf (w : InstrWord) : Nat := (w.extractLsb' 0 5).toNat

/-- Rule R113: a word is the instruction of a row exactly when its masked bits are the row's; then `t = w[4:0]`. A word
of no row is not an instruction of this spec (rule R116). -/
def decodeWord (w : InstrWord) : Option Instr :=
  (rows.find? (fun r => w &&& rowMask == r.pattern)).map (fun r => r.make (rtOf w))

/-- Why a run of bytes is no instruction. -/
inductive DecodeError where
  /-- Fewer than the 4 bytes of an instruction (rule R117). -/
  | truncated
  /-- A word of no row (rule R116). -/
  | notInThisSpec
deriving DecidableEq, Repr

/-- The word of four bytes, least significant first (rule R117). -/
def wordOfBytes (b0 b1 b2 b3 : Byte) : InstrWord := b3 ++ b2 ++ b1 ++ b0

/-- The four bytes of an instruction word at ascending addresses (rule R117). -/
def bytesOfWord (w : InstrWord) : List Byte :=
  [w.extractLsb' 0 8, w.extractLsb' 8 8, w.extractLsb' 16 8, w.extractLsb' 24 8]

/-- The decoder on any bytes: the instruction and the bytes after it, or a rejection by name. -/
def decodeBytes : List Byte → Except DecodeError (Instr × List Byte)
  | b0 :: b1 :: b2 :: b3 :: rest =>
    match decodeWord (wordOfBytes b0 b1 b2 b3) with
    | some i => .ok (i, rest)
    | none => .error .notInThisSpec
  | _ => .error .truncated

/-- A System register name: the five fields of rule R110. -/
structure SysTuple where
  op0 : BitVec 2
  op1 : BitVec 3
  CRn : BitVec 4
  CRm : BitVec 4
  op2 : BitVec 3
deriving DecidableEq, Repr

/-- The six tuples of rule R112. -/
def AccName.tuple : AccName → SysTuple
  | .sctlr2El1 => ⟨0b11#2, 0b000#3, 0b0001#4, 0b0000#4, 0b011#3⟩
  | .sctlr2El12 => ⟨0b11#2, 0b101#3, 0b0001#4, 0b0000#4, 0b011#3⟩
  | .sctlr2AliasEl1 => ⟨0b11#2, 0b000#3, 0b0001#4, 0b0100#4, 0b111#3⟩
  | .sctlr2El2 => ⟨0b11#2, 0b100#3, 0b0001#4, 0b0000#4, 0b011#3⟩
  | .sctlr2MaskEl1 => ⟨0b11#2, 0b000#3, 0b0001#4, 0b0100#4, 0b011#3⟩
  | .sctlr2MaskEl12 => ⟨0b11#2, 0b101#3, 0b0001#4, 0b0100#4, 0b011#3⟩

/-- The instruction format of rule R111: fixed bits, L, op0, op1, CRn, CRm, op2, Rt. -/
def sysWord (read : Bool) (n : SysTuple) (t : Nat) : InstrWord :=
  0b1101010100#10 ++ BitVec.ofBool read ++ n.op0 ++ n.op1 ++ n.CRn ++ n.CRm ++ n.op2 ++ BitVec.ofNat 5 t

/-- The instruction word (rules R111, R112). -/
def encode (i : Instr) : InstrWord := sysWord i.isRead i.accessor.tuple i.operand

/-- The bytes of an instruction in memory (rule R117). -/
def encodeBytes (i : Instr) : List Byte := bytesOfWord (encode i)

/-- The assembler operand `<Xt>` (rule R118). -/
def xtName (t : Nat) : String := if t = 31 then "XZR" else "X" ++ toString t

/-- The accessor names as the sources print them (rule R118). -/
def AccName.print : AccName → String
  | .sctlr2El1 => "SCTLR2_EL1"
  | .sctlr2El12 => "SCTLR2_EL12"
  | .sctlr2AliasEl1 => "SCTLR2ALIAS_EL1"
  | .sctlr2El2 => "SCTLR2_EL2"
  | .sctlr2MaskEl1 => "SCTLR2MASK_EL1"
  | .sctlr2MaskEl12 => "SCTLR2MASK_EL12"

/-- The assembler form of an instruction (rule R118). -/
def Instr.print (i : Instr) : String :=
  if i.isRead then "MRS " ++ xtName i.operand ++ ", " ++ i.accessor.print
  else "MSR " ++ i.accessor.print ++ ", " ++ xtName i.operand

/-- The generic register name `S<op0>_<op1>_C<CRn>_C<CRm>_<op2>` (rule R118). -/
def SysTuple.print (n : SysTuple) : String :=
  "S" ++ toString n.op0.toNat ++ "_" ++ toString n.op1.toNat ++ "_C" ++ toString n.CRn.toNat ++ "_C"
    ++ toString n.CRm.toNat ++ "_" ++ toString n.op2.toNat

/-- The host's question: what the decoder reads from the instruction whose bits are `w`, with every bit from `nbits` on
zero, laid out as the hardware stores it. -/
def decodeTableWord (nbits w : Nat) : Option Instr :=
  match decodeBytes (bytesOfWord (BitVec.ofNat 32 (w % 2 ^ nbits))) with
  | .ok (i, _) => some i
  | .error _ => none

end Sys2Proof
end

