-- ==== Sys2Proof/Config.lean ====
section
/-!
DEFINITION. What an implementation fixes (`Cfg`, 00_scope.md rule R4), what the surroundings supply to a step
(`Env`, 10_state.md rule R74), and the values the spec leaves open (opaque constants with no body: nothing can be
proved of what they are). `Cfg` and `Env` are data that the State carries, so every statement about every state holds
for every configuration and every input.
-/

namespace Sys2Proof

/-- What a direct read returns for a RES0 bit (rule R24): 0, or the stored bit. -/
inductive Res0Reads where
  | zero | stored
deriving DecidableEq, Repr

/-- The implementation configuration (rule R4), constant for the life of the PE. `NVAtomic` is the open parameter of
rule R96; a model of one PE does not use it. -/
structure Cfg where
  FEAT_SCTLR2 : Bool
  FEAT_AA64 : Bool
  FEAT_SRMASK : Bool
  FEAT_VHE : Bool
  FEAT_CPA2 : Bool
  FEAT_PAuth_LR : Bool
  FEAT_SYSREG128 : Bool
  FEAT_DoubleFault2 : Bool
  FEAT_ANERR : Bool
  FEAT_ADERR : Bool
  FEAT_MEC : Bool
  FEAT_SVE : Bool
  FEAT_FGT : Bool
  FEAT_FGT2 : Bool
  HaveEL2 : Bool
  HaveEL3 : Bool
  /-- `ID_AA64MMFR3_EL1.ANERR`, compared with 0b0010 only. -/
  ID_ANERR : BitVec 4
  /-- `ID_AA64MMFR3_EL1.ADERR`, compared with 0b0010 only. -/
  ID_ADERR : BitVec 4
  /-- Rule R24. -/
  res0Reads : Res0Reads
  /-- Rule R93: the byte order of an NVMem slot. -/
  NVBigEndian : Bool
  /-- Rule R96: unused by one PE. -/
  NVAtomic : Bool
deriving DecidableEq, Repr

/-- `Cfg.HighestEL`, the highest implemented Exception level, as rule R5 ties it to `HaveEL3` and `HaveEL2`. -/
def Cfg.highestEL (c : Cfg) : EL :=
  if c.HaveEL3 then .el3 else if c.HaveEL2 then .el2 else .el1

/-- The inputs of a step (rule R74): what an accessor or an Effective value reads and this spec does not own. A
one-bit control is a Bool, true for 1. `NVMemFault` is the environment's choice of rule R99. -/
structure Env where
  EL : EL
  EL2Enabled : Bool
  EL2InHost : Bool
  HCRXEnabled : Bool
  NVx : BitVec 3
  SDDUndef : Bool
  SDDUndefPriority : Bool
  SCR_EL3_SCTLR2En : Bool
  SCR_EL3_SRMASKEn : Bool
  SCR_EL3_FGTEn : Bool
  SCR_EL3_FGTEn2 : Bool
  HCR_EL2_TRVM : Bool
  HCR_EL2_TVM : Bool
  HCR_EL2_E2H_eff : Bool
  HCR_EL2_TGE_eff : Bool
  HCR_EL2_TGE : Bool
  HCR_EL2_AMO : Bool
  HCRX_EL2_SCTLR2En : Bool
  HCRX_EL2_SRMASKEn : Bool
  HCRX_EL2_PACMEn : Bool
  HCRX_EL2_EnSNERR : Bool
  HCRX_EL2_EnSDERR : Bool
  HFGRTR_EL2_SCTLR_EL1 : Bool
  HFGWTR_EL2_SCTLR_EL1 : Bool
  HFGRTR2_EL2_nSCTLR2ALIAS_EL1 : Bool
  HFGWTR2_EL2_nSCTLR2ALIAS_EL1 : Bool
  HFGRTR2_EL2_nSCTLR2MASK_EL1 : Bool
  HFGWTR2_EL2_nSCTLR2MASK_EL1 : Bool
  NVBase : Word
  NVMemFault : Bool
deriving DecidableEq, Repr

namespace Config

/-- `EffectiveSCTLR2MASK_EL1()` (rule R66, decision D7): a value that depends on the stored mask, `Cfg` and `Env` only.
The sources never define it, so it has no body. Log entry 8. -/
opaque effMask1 : Word → Cfg → Env → Word

/-- `EffectiveSCTLR2MASK_EL2()` (rule R66, decision D7). Log entry 8. -/
opaque effMask2 : Word → Cfg → Env → Word

/-- The environment's choice among the outcomes that rule R95 allows for unsynchronised accesses: the `n`-th draw.
Log entry 6. -/
opaque draw : Nat → Nat

/-- An architecturally UNKNOWN value drawn at a reset (rule R222): the `n`-th draw. Log entry 4. -/
opaque unknown : Nat → Word

/-- The Effective value of `SCTLR2_EL1.EnANERR` (true) or `EnADERR` (false) in the band of decision D12, where the two
readings of the treated-as-one sentence differ: any value (93_implementation_defined.md I6), a function of the stored
register, `Cfg` and `Env`. Log entry 13. -/
opaque siblingOpen : Word → Cfg → Env → Bool → Bool

/-- Bits [63:2] of the program counter after an instruction that completes at the top of the 64-bit address range,
where rule R72 leaves the sum open. Log entry 10. -/
opaque pcPastTop : Word → BitVec 62

/-- Bits [63:3] of the address of an NVMem slot whose base plus offset passes the top of the 64-bit address range,
as a function of base and offset; the spec states no result there. Log entry 11. -/
opaque nvSlotPastTop : Word → Word → BitVec 61

end Config

end Sys2Proof
end

