-- ==== Sys2Proof/Machine/State.lean ====
section
/-!
DEFINITION. The state of the machine as plain data (10_state.md), the reasons a step can stop, and the state after
reset. INVENTORY.md lists every field with the rule that names it.
-/

namespace Sys2Proof.Machine

/-- The four System registers of the spec that hold state (rules R3, R20, R40, R60, R65). -/
inductive SysRegId where
  | sctlr2El1 | sctlr2El2 | sctlr2MaskEl1 | sctlr2MaskEl2
deriving DecidableEq, Repr

/-- A direct write that no explicit synchronisation has followed yet (rules R76 (b), R95): the accessor name it used,
the value, and the mask of a masked write (rule R64; zero for a whole write). -/
structure PendingWrite where
  name : AccName
  value : Word
  mask : Word
deriving DecidableEq, Repr

/-- A System register: its value at the last explicit synchronisation, and the direct writes since, oldest first. Its
stored value (rule R22) is the base with the writes applied in program order. -/
structure SysReg where
  base : Word
  pending : List PendingWrite
deriving DecidableEq, Repr

/-- The bits of `PSTATE` that the spec names and no accessor writes (rule R73); `PSTATE.EL` is an input (rule R74). -/
structure PState where
  A : Bool
  PACM : Bool
deriving DecidableEq, Repr

/-- Where the program text lies (rules R104, R231): `size` bytes from address `base`. -/
structure TextRegion where
  base : Nat
  size : Nat
deriving DecidableEq, Repr

/-- What the outside world does between instructions: the inputs of rule R74 change, an explicit synchronisation
(rule R98 (d)), TLB maintenance (rule R100), a Warm reset (rule R220). `instruction` lets the PE execute one instruction
before the events after it. Log entry 2. -/
inductive Event where
  | instruction
  | setEnv (e : Env)
  | sync
  | tlbMaintenance
  | warmReset (e : Env)
deriving DecidableEq, Repr

/-- The state. `cfg` never changes (rule R4); `env` holds the inputs of the next step (rule R74) and `inbox` the outside
events to come; `tlbEmec` holds values of `SCTLR2_EL2.EMEC` that a TLB may still hold (rules R76 (a), R100);
`draws` counts the free values used. -/
structure State where
  cfg : Cfg
  env : Env
  inbox : List Event
  x : Vector Word 31
  pc : Word
  pstate : PState
  sctlr2El1 : SysReg
  sctlr2El2 : SysReg
  sctlr2MaskEl1 : SysReg
  sctlr2MaskEl2 : SysReg
  tlbEmec : List Bool
  mem : List Host.Cell
  text : TextRegion
  draws : Nat
deriving DecidableEq, Repr

/-- Why a step ends in a fault. Each is an outcome the spec defines as terminal, so none stands for an effect. -/
inductive Fault where
  /-- Outcome `Undefined` (rule R180), raised by an accessor whose checks say UNDEFINED. Safe: the spec ends the step
  there, and nothing is claimed of what follows. -/
  | undefined
  /-- Outcome `SystemAccessTrap(target, class)` (rule R181), raised by an accessor that is trapped; it carries the
  trapped instruction's word for a reader who wants a syndrome. Safe: the spec ends the step there. -/
  | systemAccessTrap (target : EL) (cls : Nat) (word : InstrWord)
  /-- Outcome `NVMemFault` (rules R99, R182), raised by an NVMem transfer at the choice of the environment. Safe. -/
  | nvMemFault
deriving DecidableEq, Repr

/-- Why a step is refused: the spec gives it no meaning. -/
inductive Refusal where
  /-- An instruction of the table whose meaning is not written. No arm raises it. Safe. -/
  | notModelled (mnemonic : String)
  /-- The word at the program counter is no row of the table (rule R116), raised by the fetch. Safe. -/
  | notInThisSpec
  /-- `pc[1:0]` is not 0, against the launch premise of rule R94, raised by the fetch. Safe. -/
  | fetchMisaligned
  /-- The program counter is outside the program text (rule R104), raised by the fetch. Safe. -/
  | fetchOutsideText
  /-- `Env.NVBase[2:0]` is not 0 (rule R94), raised by an NVMem transfer. Safe. -/
  | nvBaseMisaligned
  /-- An NVMem store that overlaps the program text (rule R104), raised by an NVMem store. Safe. -/
  | nvStoreOverlapsText
deriving DecidableEq, Repr

/-- The configuration at reset: every feature implemented, EL2 and EL3 implemented, reads of RES0 bits literal, slots
little-endian. DESIGN CHOICE, unsafe, log entry 3: no statement rests on it. -/
def Cfg.reset : Cfg :=
  { FEAT_SCTLR2 := true, FEAT_AA64 := true, FEAT_SRMASK := true, FEAT_VHE := true, FEAT_CPA2 := true,
    FEAT_PAuth_LR := true, FEAT_SYSREG128 := true, FEAT_DoubleFault2 := true, FEAT_ANERR := true,
    FEAT_ADERR := true, FEAT_MEC := true, FEAT_SVE := true, FEAT_FGT := true, FEAT_FGT2 := true,
    HaveEL2 := true, HaveEL3 := true, ID_ANERR := 0#4, ID_ADERR := 0#4, res0Reads := .stored,
    NVBigEndian := false, NVAtomic := false }

/-- The inputs at reset: the highest Exception level (the architecture's behaviour that rule R224 names, PRESUMED), every
other input zero. DESIGN CHOICE, unsafe, log entry 5. -/
def Env.reset : Env :=
  { EL := .el3, EL2Enabled := false, EL2InHost := false, HCRXEnabled := false, NVx := 0#3, SDDUndef := false,
    SDDUndefPriority := false, SCR_EL3_SCTLR2En := false, SCR_EL3_SRMASKEn := false, SCR_EL3_FGTEn := false,
    SCR_EL3_FGTEn2 := false, HCR_EL2_TRVM := false, HCR_EL2_TVM := false, HCR_EL2_E2H_eff := false,
    HCR_EL2_TGE_eff := false, HCR_EL2_TGE := false, HCR_EL2_AMO := false, HCRX_EL2_SCTLR2En := false,
    HCRX_EL2_SRMASKEn := false, HCRX_EL2_PACMEn := false, HCRX_EL2_EnSNERR := false, HCRX_EL2_EnSDERR := false,
    HFGRTR_EL2_SCTLR_EL1 := false, HFGWTR_EL2_SCTLR_EL1 := false, HFGRTR2_EL2_nSCTLR2ALIAS_EL1 := false,
    HFGWTR2_EL2_nSCTLR2ALIAS_EL1 := false, HFGRTR2_EL2_nSCTLR2MASK_EL1 := false,
    HFGWTR2_EL2_nSCTLR2MASK_EL1 := false, NVBase := 0#64, NVMemFault := false }

/-- The machine right after reset. Every register whose reset value the spec calls UNKNOWN or does not give holds zero
here (DESIGN CHOICE, unsafe, log entry 1); the Warm reset event gives them free values instead. No program text. No TLB holds
an earlier EMEC (DESIGN CHOICE, unsafe, log entries 1 and 14). -/
def State.reset : State :=
  { cfg := Cfg.reset, env := Env.reset, inbox := [], x := Vector.replicate 31 0#64, pc := 0#64,
    pstate := ⟨false, false⟩, sctlr2El1 := ⟨0#64, []⟩, sctlr2El2 := ⟨0#64, []⟩, sctlr2MaskEl1 := ⟨0#64, []⟩,
    sctlr2MaskEl2 := ⟨0#64, []⟩, tlbEmec := [], mem := [], text := ⟨0, 0⟩, draws := 0 }

end Sys2Proof.Machine
end

