-- ==== Sys2Proof/Machine/Memory.lean ====
section
/-!
DEFINITION. Memory as a list of (address, byte) pairs in one canonical form, with the 8-byte accesses of an NVMem slot
(20_memory.md rules R90 to R96). An address is a natural number below 2^64.
-/

namespace Sys2Proof.Machine

/-- Memory: the bytes that differ from what an unlisted address reads as. -/
abbrev Memory := List Host.Cell

/-- What an unlisted address reads as. DESIGN CHOICE, unsafe for statements about State.reset's memory only, log entry
7: the spec leaves the first contents of memory free (rules R84, R225). -/
def Memory.unlisted : Byte := 0#8

/-- The byte at an address. -/
def Memory.readByte : Memory → Nat → Byte
  | [], _ => Memory.unlisted
  | (k, v) :: m, a => if k = a then v else Memory.readByte m a

/-- Writes one byte and keeps the canonical form: writing the unlisted value takes the entry out. -/
def Memory.writeByte : Memory → Nat → Byte → Memory
  | [], a, b => if b = Memory.unlisted then [] else [(a, b)]
  | (k, v) :: m, a, b =>
    if a < k then (if b = Memory.unlisted then (k, v) :: m else (a, b) :: (k, v) :: m)
    else if a = k then (if b = Memory.unlisted then m else (a, b) :: m)
    else (k, v) :: Memory.writeByte m a b

/-- The canonical form: addresses strictly rising and below 2^64, no entry equal to the unlisted value. -/
abbrev Memory.wf (m : Memory) : Prop :=
  m.Pairwise (fun c d => c.1 < d.1) ∧ ∀ c ∈ m, c.1 < 2 ^ 64 ∧ c.2 ≠ Memory.unlisted

/-- Writes a run of bytes at ascending addresses. -/
def Memory.writeBytes (m : Memory) (a : Nat) : List Byte → Memory
  | [] => m
  | b :: bs => Memory.writeBytes (m.writeByte a b) (a + 1) bs

/-- The eight bytes of a 64-bit value, least significant first. -/
def bytesOf (v : Word) : List Byte :=
  [v.extractLsb' 0 8, v.extractLsb' 8 8, v.extractLsb' 16 8, v.extractLsb' 24 8,
   v.extractLsb' 32 8, v.extractLsb' 40 8, v.extractLsb' 48 8, v.extractLsb' 56 8]

/-- The bytes of a slot at ascending addresses, in the byte order of rule R93. -/
def slotBytes (big : Bool) (v : Word) : List Byte := if big then (bytesOf v).reverse else bytesOf v

/-- The value of eight bytes, the first the least significant. -/
def joinBytes (b0 b1 b2 b3 b4 b5 b6 b7 : Byte) : Word := b7 ++ b6 ++ b5 ++ b4 ++ b3 ++ b2 ++ b1 ++ b0

/-- `MemRead(a, 8)` (rules R9, R90, R93). -/
def Memory.read64 (m : Memory) (big : Bool) (a : Nat) : Word :=
  let g := fun i => m.readByte (a + i)
  if big then joinBytes (g 7) (g 6) (g 5) (g 4) (g 3) (g 2) (g 1) (g 0)
  else joinBytes (g 0) (g 1) (g 2) (g 3) (g 4) (g 5) (g 6) (g 7)

/-- `MemWrite(a, 8, v)` (rules R9, R90, R93). -/
def Memory.write64 (m : Memory) (big : Bool) (a : Nat) (v : Word) : Memory :=
  m.writeBytes a (slotBytes big v)

end Sys2Proof.Machine
end

