-- ==== Sys2Proof/Machine/Operands.lean ====
section
/-!
DEFINITION. The operand of an instruction, the general registers and the program counter (10_state.md rules R70, R72;
30_encoding.md rule R114).
-/

namespace Sys2Proof.Machine

/-- `x[t]` as a source (rule R70): `t = 31` reads as zero. -/
def State.readX (s : State) (t : Nat) : Word := if h : t < 31 then s.x[t] else 0#64

/-- `x[t] <- v` (rule R70): `t = 31` discards `v`. -/
def State.writeX (s : State) (t : Nat) (v : Word) : State :=
  if h : t < 31 then { s with x := s.x.set t v } else s

/-- The program counter of an instruction that completes: `pc + 4` (rule R72). Past the top of the 64-bit range the
spec states no sum, and bits [63:2] are a free value (log entry 10). -/
def State.nextPc (s : State) : Word :=
  if s.pc.toNat + 4 < 2 ^ 64 then s.pc + 4#64 else Config.pcPastTop s.pc ++ 0#2

/-- Completion of an instruction: `pc <- pc + 4` (rules R9, R72). -/
def State.advance (s : State) : State := { s with pc := s.nextPc }

end Sys2Proof.Machine
end

