-- ==== Sys2Proof/Machine/Flags.lean ====
section
/-!
DEFINITION. The one-bit fields of the System registers: positions, presence, what a direct read returns, and the masked
write (10_state.md rules R20 to R24, R40, R41, R60 to R64). No instruction of the spec reads or writes a condition flag
(rule R73), so these bits are all the flags there are.
-/

namespace Sys2Proof.Machine

/-- The named fields of `SCTLR2_EL1`, `SCTLR2_EL2` and `SCTLR2MASK_EL1`; `EMEC` is of `SCTLR2_EL2` only. -/
inductive Field where
  | CPTM0 | CPTM | CPTA0 | CPTA | EnPACM0 | EnPACM | EnIDCP128 | EASE | EnANERR | EnADERR | NMEA | EMEC
deriving DecidableEq, Repr

/-- Every field, from bit 12 down to bit 1. -/
def Field.all : List Field :=
  [.CPTM0, .CPTM, .CPTA0, .CPTA, .EnPACM0, .EnPACM, .EnIDCP128, .EASE, .EnANERR, .EnADERR, .NMEA, .EMEC]

/-- The bit position of a field (rules R20, R40, R60). -/
def Field.bit : Field → Nat
  | .CPTM0 => 12 | .CPTM => 11 | .CPTA0 => 10 | .CPTA => 9 | .EnPACM0 => 8 | .EnPACM => 7
  | .EnIDCP128 => 6 | .EASE => 5 | .EnANERR => 4 | .EnADERR => 3 | .NMEA => 2 | .EMEC => 1

/-- The stored bit of a field, `REG.F` (rule R9). -/
def fieldBit (v : Word) (f : Field) : Bool := v.getLsbD f.bit

/-- When a field of `SCTLR2_EL1` and of `SCTLR2MASK_EL1` is present (rules R20, R60). -/
def present1 (c : Cfg) : Field → Bool
  | .CPTM0 | .CPTM | .CPTA0 | .CPTA => c.FEAT_CPA2
  | .EnPACM0 | .EnPACM => c.FEAT_PAuth_LR
  | .EnIDCP128 => c.FEAT_SYSREG128
  | .EASE | .NMEA => c.FEAT_DoubleFault2
  | .EnANERR => c.FEAT_ANERR
  | .EnADERR => c.FEAT_ADERR
  | .EMEC => false

/-- When a field of `SCTLR2_EL2` is present (rules R40, R41); `inHost` is `Env.EL2InHost`. -/
def present2 (c : Cfg) (inHost : Bool) : Field → Bool
  | .CPTM0 | .CPTA0 => c.FEAT_CPA2 && inHost
  | .EnPACM0 => c.FEAT_PAuth_LR && inHost
  | .EMEC => c.FEAT_MEC
  | f => present1 c f

/-- The word with a one at the bit of every present field. -/
def fieldMask (present : Field → Bool) : Word :=
  Field.all.foldl (fun m f => if present f then m ||| (1#64 <<< f.bit) else m) 0#64

/-- The bits of a register that are not RES0 (rule R24); `SCTLR2MASK_EL2` has no known layout, so none of its bits is
taken as RES0. -/
def notRes0 (c : Cfg) (e : Env) : SysRegId → Word
  | .sctlr2El1 => fieldMask (present1 c)
  | .sctlr2El2 => fieldMask (present2 c e.EL2InHost)
  | .sctlr2MaskEl1 => fieldMask (present1 c)
  | .sctlr2MaskEl2 => BitVec.allOnes 64

/-- `Read(REG)` of a stored value (rule R24). -/
def directRead (c : Cfg) (e : Env) (r : SysRegId) (stored : Word) : Word :=
  match c.res0Reads with
  | .zero => stored &&& notRes0 c e r
  | .stored => stored

/-- `MaskedWrite(old, new, M)` (rule R64). -/
def maskedWrite (old new mask : Word) : Word := (new &&& ~~~mask) ||| (old &&& mask)

end Sys2Proof.Machine
end

