-- ==== Sys2Proof/Machine/SysRegs.lean ====
section
/-!
DEFINITION. The System registers: which name may see which write (20_memory.md rules R95, R98), the writes, and what an
explicit synchronisation settles.
-/

namespace Sys2Proof.Machine

/-- One write applied to a value (rule R64; a whole write has mask zero). -/
def PendingWrite.apply (w : PendingWrite) (old : Word) : Word := maskedWrite old w.value w.mask

/-- A run of writes applied in its order. -/
def replay (base : Word) (ws : List PendingWrite) : Word := ws.foldl (fun v w => w.apply v) base

/-- The stored value (rule R22): every write in program order. -/
def SysReg.stored (r : SysReg) : Word := replay r.base r.pending

/-- The places a later write may take in an order of earlier ones: anywhere after the last write by its own name
(rule R98 (a): one name is in program order; rules R95, R98 (b): two names are not ordered). -/
def insertions (w : PendingWrite) : List PendingWrite → List (List PendingWrite)
  | [] => [[w]]
  | p :: ps =>
    (if (p :: ps).any (fun q => q.name == w.name) then [] else [w :: p :: ps])
      ++ (insertions w ps).map (fun o => p :: o)

/-- Every order of the writes that keeps each name's writes in program order. -/
def orders (ws : List PendingWrite) : List (List PendingWrite) :=
  ws.foldl (fun os w => os.flatMap (insertions w)) [[]]

/-- The beginnings of an order that hold every write by the name `n`: what an access by `n` may find performed. -/
def cuts (n : AccName) : List PendingWrite → List (List PendingWrite)
  | [] => [[]]
  | p :: ps =>
    (if (p :: ps).any (fun q => q.name == n) then [] else [[]]) ++ (cuts n ps).map (fun o => p :: o)

/-- The values a direct read by the name `n` may return (rule R95). -/
def SysReg.readCandidates (r : SysReg) (n : AccName) : List Word :=
  ((orders r.pending).flatMap (cuts n)).map (replay r.base)

/-- The values the register may end with at an explicit synchronisation (rule R95). -/
def SysReg.settleCandidates (r : SysReg) : List Word := (orders r.pending).map (replay r.base)

/-- The values a mechanism may find in the register, between a write and the next synchronisation (rule R98 (c)). -/
def SysReg.visible (r : SysReg) : List Word := ((orders r.pending).flatMap List.inits).map (replay r.base)

/-- The environment's choice among candidates, by the `n`-th draw. -/
def choose (cands : List Word) (dflt : Word) (n : Nat) : Word := cands.getD (Config.draw n % cands.length) dflt

/-- What a direct access by the name `n` finds in a register, and the draws used. When no other name has an
unsynchronised write it is the stored value (rule R98 (a)); otherwise it is a draw (rule R95), made anew for every access: of two reads
by one name with no write between, the first may find a later value than the second (DESIGN CHOICE, log entry 6). -/
def SysReg.view (r : SysReg) (n : AccName) (draws : Nat) : Word × Nat :=
  if r.pending.all (fun w => w.name == n) then (r.stored, draws)
  else (choose (r.readCandidates n) r.stored draws, draws + 1)

/-- Whether the unsynchronised writes all use one name. -/
def oneName : List PendingWrite → Bool
  | [] => true
  | p :: ps => ps.all (fun w => w.name == p.name)

/-- An explicit synchronisation of one register: all earlier writes are complete, in an order rule R95 allows. -/
def SysReg.settle (r : SysReg) (draws : Nat) : SysReg × Nat :=
  if oneName r.pending then (⟨r.stored, []⟩, draws)
  else (⟨choose r.settleCandidates r.stored draws, []⟩, draws + 1)

/-- A register of the state. -/
def State.reg (s : State) : SysRegId → SysReg
  | .sctlr2El1 => s.sctlr2El1
  | .sctlr2El2 => s.sctlr2El2
  | .sctlr2MaskEl1 => s.sctlr2MaskEl1
  | .sctlr2MaskEl2 => s.sctlr2MaskEl2

/-- The values of EMEC a TLB may hold: those it held, and every value that may govern (rules R76 (a), R98 (c), R100).
Log entry 14. -/
def State.emecCopies (s : State) : List Bool :=
  s.sctlr2El2.visible.foldl (fun l v => l.insert (fieldBit v .EMEC)) s.tlbEmec

/-- A direct write of a register (rules R22, R64, R96). A write of `SCTLR2_EL2` leaves the earlier values of EMEC where a
TLB may hold them (rules R76 (a), R100). -/
def State.pushWrite (s : State) (r : SysRegId) (w : PendingWrite) : State :=
  match r with
  | .sctlr2El1 => { s with sctlr2El1 := ⟨s.sctlr2El1.base, s.sctlr2El1.pending ++ [w]⟩ }
  | .sctlr2El2 =>
    { s with sctlr2El2 := ⟨s.sctlr2El2.base, s.sctlr2El2.pending ++ [w]⟩,
             tlbEmec := s.emecCopies }
  | .sctlr2MaskEl1 => { s with sctlr2MaskEl1 := ⟨s.sctlr2MaskEl1.base, s.sctlr2MaskEl1.pending ++ [w]⟩ }
  | .sctlr2MaskEl2 => { s with sctlr2MaskEl2 := ⟨s.sctlr2MaskEl2.base, s.sctlr2MaskEl2.pending ++ [w]⟩ }

/-- `EffMask1(SCTLR2MASK_EL1, Cfg, Env)` (rule R66), of the mask that an access by the mask register's own name finds;
and the draws used. -/
def State.effectiveMask1 (s : State) : Word × Nat :=
  let v := s.sctlr2MaskEl1.view .sctlr2MaskEl1 s.draws
  (Config.effMask1 v.1 s.cfg s.env, v.2)

/-- `EffMask2(SCTLR2MASK_EL2, Cfg, Env)` (rule R66). The one name that reaches that register is `SCTLR2MASK_EL1`. -/
def State.effectiveMask2 (s : State) : Word × Nat :=
  let v := s.sctlr2MaskEl2.view .sctlr2MaskEl1 s.draws
  (Config.effMask2 v.1 s.cfg s.env, v.2)

end Sys2Proof.Machine
end

