-- ==== Sys2Proof/Machine/Ops.lean ====
section
/-!
DEFINITION. The shared operations of the accessors: raising, the access checks in the priority order of 60_exceptions.md
rule R186, the NVMem transfers of 20_memory.md, and the register transfers.
-/

namespace Sys2Proof.Machine

/-- The outcome of an instruction. -/
abbrev Out := Host.Outcome State Fault Refusal

/-- `raise Undefined()` (rule R180): the step ends, nothing changes. -/
def raiseUndefined : Out := .fault .undefined

/-- `raise SystemAccessTrap(target, 0x18)` (rule R181): the step ends, nothing changes. The spec describes neither
entry nor return (rule R197), so the outcome is all there is to take. -/
def raiseSystemAccessTrap (target : EL) (i : Instr) : Out :=
  .fault (.systemAccessTrap target 0x18 (encode i))

/-- The ISS of a trapped instruction word (rule R181, vectors T320). PRESUMED, log entry 12: from outside the sources. -/
def trapISS (w : InstrWord) : InstrWord :=
  (0#10 ++ w.extractLsb' 19 2 ++ w.extractLsb' 5 3 ++ w.extractLsb' 16 3 ++ w.extractLsb' 12 4
    ++ w.extractLsb' 0 5 ++ w.extractLsb' 8 4 ++ w.extractLsb' 21 1 : BitVec 32)

/-- The `ESR_ELx` value of a System access trap (rule R181, vectors T320). PRESUMED, log entry 12. -/
def trapESR (cls : Nat) (w : InstrWord) : InstrWord :=
  (BitVec.ofNat 32 cls <<< 26) ||| (1#32 <<< 25) ||| trapISS w

/-- The outer chain of every accessor (rule R186 classes 1 and 2): UNDEFINED when the name does not exist or at EL0;
otherwise the branch of the current Exception level. -/
def byLevel (present : Bool) (s : State) (el1 el2 el3 : Out) : Out :=
  if !present then raiseUndefined
  else match s.env.EL with
    | .el0 => raiseUndefined
    | .el1 => el1
    | .el2 => el2
    | .el3 => el3

/-- Rule R186 class 7: the SCR_EL3 enable is 0; UNDEFINED or a trap to EL3 (rule R185). -/
def el3Gate (i : Instr) (s : State) (enable : Bool) (k : Out) : Out :=
  if s.cfg.HaveEL3 && !enable then
    (if s.env.SDDUndef then raiseUndefined else raiseSystemAccessTrap .el3 i)
  else k

/-- Rule R186 classes 3 and 7: the checks of an access at EL2. -/
def el2Gate (i : Instr) (s : State) (enable : Bool) (k : Out) : Out :=
  if s.cfg.HaveEL3 && s.env.SDDUndefPriority && !enable then raiseUndefined
  else el3Gate i s enable k

/-- Rule R186 classes 3 to 7: the checks of an access at EL1 by a name that has them. `txvm` is the TVM or TRVM bit
(false for a name without that test), `fgt` the fine-grained trap clause, `hcrx` the enable of HCRX_EL2. -/
def el1Gate (i : Instr) (s : State) (enable txvm fgt hcrx : Bool) (k : Out) : Out :=
  if s.cfg.HaveEL3 && s.env.SDDUndefPriority && !enable then raiseUndefined
  else if s.env.EL2Enabled && txvm then raiseSystemAccessTrap .el2 i
  else if s.env.EL2Enabled && fgt then raiseSystemAccessTrap .el2 i
  else if s.env.EL2Enabled && (!s.env.HCRXEnabled || !hcrx) then raiseSystemAccessTrap .el2 i
  else el3Gate i s enable k

/-- Rule R186 class 8': nested virtualisation, `NVx IN {'xx1'}` (rule R7) traps to EL2, else UNDEFINED. -/
def nvTrap (i : Instr) (s : State) : Out :=
  if s.env.NVx.getLsbD 0 then raiseSystemAccessTrap .el2 i else raiseUndefined

/-- The FEAT_FGT clause of the name `SCTLR2_EL1` (rule R136): a set bit traps. -/
def fgtClause (s : State) (bit : Bool) : Bool :=
  s.cfg.FEAT_FGT && (!s.cfg.HaveEL3 || s.env.SCR_EL3_FGTEn) && bit

/-- The FEAT_FGT2 clause of the names `SCTLR2ALIAS_EL1` and `SCTLR2MASK_EL1` (rules R136, R160): a clear bit traps,
and so does `SCR_EL3.FGTEn2 = 0`. -/
def fgt2Clause (s : State) (nbit : Bool) : Bool :=
  s.cfg.FEAT_FGT2 && ((s.cfg.HaveEL3 && !s.env.SCR_EL3_FGTEn2) || !nbit)

/-- `Env.NVBase + off` (rule R90). Where the sum passes the top of the 64-bit range the spec states none, and bits
[63:3] are a free value (log entry 11); the low bits stay those of an aligned slot. -/
def State.nvAddr (s : State) (off : Word) : Word :=
  if s.env.NVBase.toNat + off.toNat < 2 ^ 64 then s.env.NVBase + off
  else Config.nvSlotPastTop s.env.NVBase off ++ 0#3

/-- `Env.NVBase[2:0] = 0`, the launch premise of rule R94. -/
def State.nvAligned (s : State) : Bool := s.env.NVBase.extractLsb' 0 3 == 0#3

/-- Whether an address lies in the program text. -/
def TextRegion.contains (r : TextRegion) (a : Nat) : Bool := decide (r.base ≤ a ∧ a < r.base + r.size)

/-- Whether the slot at `off` overlaps the program text (rule R104). -/
def State.nvHitsText (s : State) (off : Word) : Bool :=
  (List.range 8).any (fun i => s.text.contains ((s.nvAddr off).toNat + i))

/-- `x[t] <- MemRead(Env.NVBase + off, 8); pc <- pc + 4` (rules R90, R94, R99). -/
def nvLoad (t : Nat) (off : Word) (s : State) : Out :=
  if !s.nvAligned then .refused .nvBaseMisaligned
  else if s.env.NVMemFault then .fault .nvMemFault
  else .next (s.writeX t (Memory.read64 s.mem s.cfg.NVBigEndian (s.nvAddr off).toNat)).advance

/-- `MemWrite(Env.NVBase + off, 8, x[t]); pc <- pc + 4` (rules R90, R92, R94, R99, R104). -/
def nvStore (t : Nat) (off : Word) (s : State) : Out :=
  if !s.nvAligned then .refused .nvBaseMisaligned
  else if s.nvHitsText off then .refused .nvStoreOverlapsText
  else if s.env.NVMemFault then .fault .nvMemFault
  else .next { s with mem := Memory.write64 s.mem s.cfg.NVBigEndian (s.nvAddr off).toNat (s.readX t) }.advance

/-- `x[t] <- Read(REG); pc <- pc + 4` by the accessor name `n` (rules R22, R24, R95, R97). -/
def regRead (n : AccName) (r : SysRegId) (t : Nat) (s : State) : Out :=
  let v := (s.reg r).view n s.draws
  .next ({ s with draws := v.2 }.writeX t (directRead s.cfg s.env r v.1)).advance

/-- `REG <- x[t]; pc <- pc + 4` by the accessor name `n`: the whole value (rule R22). -/
def regWrite (n : AccName) (r : SysRegId) (t : Nat) (s : State) : Out :=
  .next (s.pushWrite r ⟨n, s.readX t, 0#64⟩).advance

/-- `REG <- MaskedWrite(REG, x[t], mask); pc <- pc + 4` when `Cfg.FEAT_SRMASK`, else the whole value (rules R64, R131
branches 10 and 14). `em` is the effective mask and the draws used. -/
def regWriteMasked (n : AccName) (r : SysRegId) (em : Word × Nat) (t : Nat) (s : State) : Out :=
  if s.cfg.FEAT_SRMASK then .next (({ s with draws := em.2 }).pushWrite r ⟨n, s.readX t, em.1⟩).advance
  else regWrite n r t s

/-- The lock (rules R67, R165): UNDEFINED unless the effective mask is zero, else `REG <- x[t]; pc <- pc + 4`. -/
def regWriteLocked (n : AccName) (r : SysRegId) (em : Word × Nat) (t : Nat) (s : State) : Out :=
  if !isZero em.1 then raiseUndefined
  else regWrite n r t { s with draws := em.2 }

end Sys2Proof.Machine
end

