-- ==== Sys2Proof/Machine/AccSctlr2El1.lean ====
section
/-!
DEFINITION. The six forms of 40_sctlr2_el1_accessors.md: the names SCTLR2_EL1, SCTLR2_EL12 and SCTLR2ALIAS_EL1. A
number after `--` is the branch of the rule.
-/

namespace Sys2Proof.Machine

/-- The features the SCTLR2 names test first (rules R21, R42). -/
def sctlr2Present (s : State) : Bool := s.cfg.FEAT_SCTLR2 && s.cfg.FEAT_AA64

/-- The `_EL12` names exist when FEAT_VHE is implemented (rule R115 (b)). -/
def sctlr2El12Present (s : State) : Bool := sctlr2Present s && s.cfg.FEAT_VHE

/-- The alias name exists when FEAT_SRMASK is implemented (rule R115 (b), conflict C3). -/
def sctlr2AliasPresent (s : State) : Bool := sctlr2Present s && s.cfg.FEAT_SRMASK

/-- `MRS <Xt>, SCTLR2_EL1` (rule R130). -/
def execMrsSctlr2El1 (t : Nat) (s : State) : Out :=
  let i := Instr.mrsSctlr2El1 t
  byLevel (sctlr2Present s) s                                                           -- 1, 2
    (el1Gate i s s.env.SCR_EL3_SCTLR2En s.env.HCR_EL2_TRVM
        (fgtClause s s.env.HFGRTR_EL2_SCTLR_EL1) s.env.HCRX_EL2_SCTLR2En                -- 3 to 8
      (if s.env.NVx = 0b111#3 then nvLoad t 0x278#64 s                                  -- 9
       else regRead .sctlr2El1 .sctlr2El1 t s))                                         -- 10
    (el2Gate i s s.env.SCR_EL3_SCTLR2En                                                 -- 11 to 13
      (if s.env.EL2InHost then regRead .sctlr2El1 .sctlr2El2 t s                        -- 14
       else regRead .sctlr2El1 .sctlr2El1 t s))                                         -- 15
    (regRead .sctlr2El1 .sctlr2El1 t s)                                                 -- 16

/-- `MSR SCTLR2_EL1, <Xt>` (rule R131). -/
def execMsrSctlr2El1 (t : Nat) (s : State) : Out :=
  let i := Instr.msrSctlr2El1 t
  byLevel (sctlr2Present s) s                                                           -- 1, 2
    (el1Gate i s s.env.SCR_EL3_SCTLR2En s.env.HCR_EL2_TVM
        (fgtClause s s.env.HFGWTR_EL2_SCTLR_EL1) s.env.HCRX_EL2_SCTLR2En                -- 3 to 8
      (if s.env.NVx = 0b111#3 then nvStore t 0x278#64 s                                 -- 9
       else regWriteMasked .sctlr2El1 .sctlr2El1 s.effectiveMask1 t s))                 -- 10a, 10b
    (el2Gate i s s.env.SCR_EL3_SCTLR2En                                                 -- 11 to 13
      (if s.env.EL2InHost then
        regWriteMasked .sctlr2El1 .sctlr2El2 s.effectiveMask2 t s                       -- 14a, 14b
       else regWrite .sctlr2El1 .sctlr2El1 t s))                                        -- 15
    (regWrite .sctlr2El1 .sctlr2El1 t s)                                                -- 16

/-- `MRS <Xt>, SCTLR2_EL12` (rule R132). -/
def execMrsSctlr2El12 (t : Nat) (s : State) : Out :=
  let i := Instr.mrsSctlr2El12 t
  byLevel (sctlr2El12Present s) s                                                       -- 1, 2
    (if s.env.NVx = 0b101#3 then nvLoad t 0x278#64 s else nvTrap i s)                   -- 3, 4, 5
    (if s.env.EL2InHost then
      el2Gate i s s.env.SCR_EL3_SCTLR2En (regRead .sctlr2El12 .sctlr2El1 t s)           -- 6 to 9
     else raiseUndefined)                                                               -- 10
    (if s.env.EL2InHost then regRead .sctlr2El12 .sctlr2El1 t s else raiseUndefined)    -- 11, 12

/-- `MSR SCTLR2_EL12, <Xt>` (rule R133). -/
def execMsrSctlr2El12 (t : Nat) (s : State) : Out :=
  let i := Instr.msrSctlr2El12 t
  byLevel (sctlr2El12Present s) s                                                       -- 1, 2
    (if s.env.NVx = 0b101#3 then nvStore t 0x278#64 s else nvTrap i s)                  -- 3, 4, 5
    (if s.env.EL2InHost then
      el2Gate i s s.env.SCR_EL3_SCTLR2En (regWrite .sctlr2El12 .sctlr2El1 t s)          -- 6 to 9
     else raiseUndefined)                                                               -- 10
    (if s.env.EL2InHost then regWrite .sctlr2El12 .sctlr2El1 t s else raiseUndefined)   -- 11, 12

/-- `MRS <Xt>, SCTLR2ALIAS_EL1` (rule R134). -/
def execMrsSctlr2AliasEl1 (t : Nat) (s : State) : Out :=
  let i := Instr.mrsSctlr2AliasEl1 t
  byLevel (sctlr2AliasPresent s) s                                                      -- 1, 2
    (el1Gate i s s.env.SCR_EL3_SCTLR2En s.env.HCR_EL2_TRVM
        (fgt2Clause s s.env.HFGRTR2_EL2_nSCTLR2ALIAS_EL1) s.env.HCRX_EL2_SCTLR2En       -- 3 to 8
      (if s.env.NVx = 0b111#3 then nvLoad t 0x278#64 s                                  -- 9
       else regRead .sctlr2AliasEl1 .sctlr2El1 t s))                                    -- 10
    (el2Gate i s s.env.SCR_EL3_SCTLR2En                                                 -- 11 to 13
      (if s.env.EL2InHost then regRead .sctlr2AliasEl1 .sctlr2El2 t s                   -- 14
       else regRead .sctlr2AliasEl1 .sctlr2El1 t s))                                    -- 15
    (regRead .sctlr2AliasEl1 .sctlr2El1 t s)                                            -- 16

/-- `MSR SCTLR2ALIAS_EL1, <Xt>` (rule R135); branches 10b and 14b are never taken (conflict C3). -/
def execMsrSctlr2AliasEl1 (t : Nat) (s : State) : Out :=
  let i := Instr.msrSctlr2AliasEl1 t
  byLevel (sctlr2AliasPresent s) s                                                      -- 1, 2
    (el1Gate i s s.env.SCR_EL3_SCTLR2En s.env.HCR_EL2_TVM
        (fgt2Clause s s.env.HFGWTR2_EL2_nSCTLR2ALIAS_EL1) s.env.HCRX_EL2_SCTLR2En       -- 3 to 8
      (if s.env.NVx = 0b111#3 then nvStore t 0x278#64 s                                 -- 9
       else regWriteMasked .sctlr2AliasEl1 .sctlr2El1 s.effectiveMask1 t s))            -- 10a, 10b
    (el2Gate i s s.env.SCR_EL3_SCTLR2En                                                 -- 11 to 13
      (if s.env.EL2InHost then
        regWriteMasked .sctlr2AliasEl1 .sctlr2El2 s.effectiveMask2 t s                  -- 14a, 14b
       else regWrite .sctlr2AliasEl1 .sctlr2El1 t s))                                   -- 15
    (regWrite .sctlr2AliasEl1 .sctlr2El1 t s)                                           -- 16

end Sys2Proof.Machine
end

