-- ==== Sys2Proof/Machine/AccSctlr2El2.lean ====
section
/-!
DEFINITION. The two forms of 41_sctlr2_el2_accessors.md: the name SCTLR2_EL2.
-/

namespace Sys2Proof.Machine

/-- `MRS <Xt>, SCTLR2_EL2` (rule R150). -/
def execMrsSctlr2El2 (t : Nat) (s : State) : Out :=
  let i := Instr.mrsSctlr2El2 t
  byLevel (sctlr2Present s) s                                                           -- 1, 2
    (nvTrap i s)                                                                        -- 3, 4
    (el2Gate i s s.env.SCR_EL3_SCTLR2En (regRead .sctlr2El2 .sctlr2El2 t s))            -- 5 to 8
    (regRead .sctlr2El2 .sctlr2El2 t s)                                                 -- 9

/-- `MSR SCTLR2_EL2, <Xt>` (rule R151). -/
def execMsrSctlr2El2 (t : Nat) (s : State) : Out :=
  let i := Instr.msrSctlr2El2 t
  byLevel (sctlr2Present s) s                                                           -- 1, 2
    (nvTrap i s)                                                                        -- 3, 4
    (el2Gate i s s.env.SCR_EL3_SCTLR2En
      (regWriteMasked .sctlr2El2 .sctlr2El2 s.effectiveMask2 t s))                      -- 5 to 7, 8a, 8b
    (regWrite .sctlr2El2 .sctlr2El2 t s)                                                -- 9

end Sys2Proof.Machine
end

