-- ==== Sys2Proof/Machine/AccSctlr2Mask.lean ====
section
/-!
DEFINITION. The four forms of 42_sctlr2mask_el1_accessors.md: the names SCTLR2MASK_EL1 and SCTLR2MASK_EL12.
-/

namespace Sys2Proof.Machine

/-- The features the SCTLR2MASK names test first (rule R61). -/
def sctlr2MaskPresent (s : State) : Bool := s.cfg.FEAT_SRMASK && s.cfg.FEAT_AA64

/-- The `_EL12` name exists when FEAT_VHE is implemented (rule R115 (b)). -/
def sctlr2MaskEl12Present (s : State) : Bool := sctlr2MaskPresent s && s.cfg.FEAT_VHE

/-- `MRS <Xt>, SCTLR2MASK_EL1` (rule R160). -/
def execMrsSctlr2MaskEl1 (t : Nat) (s : State) : Out :=
  let i := Instr.mrsSctlr2MaskEl1 t
  byLevel (sctlr2MaskPresent s) s                                                       -- 1, 2
    (el1Gate i s s.env.SCR_EL3_SRMASKEn false
        (fgt2Clause s s.env.HFGRTR2_EL2_nSCTLR2MASK_EL1) s.env.HCRX_EL2_SRMASKEn        -- 3 to 7
      (if s.env.NVx = 0b111#3 then nvLoad t 0x328#64 s                                  -- 8
       else regRead .sctlr2MaskEl1 .sctlr2MaskEl1 t s))                                 -- 9
    (el2Gate i s s.env.SCR_EL3_SRMASKEn                                                 -- 10 to 12
      (if s.env.EL2InHost then regRead .sctlr2MaskEl1 .sctlr2MaskEl2 t s                -- 13
       else regRead .sctlr2MaskEl1 .sctlr2MaskEl1 t s))                                 -- 14
    (regRead .sctlr2MaskEl1 .sctlr2MaskEl1 t s)                                         -- 15

/-- `MSR SCTLR2MASK_EL1, <Xt>` (rule R161). -/
def execMsrSctlr2MaskEl1 (t : Nat) (s : State) : Out :=
  let i := Instr.msrSctlr2MaskEl1 t
  byLevel (sctlr2MaskPresent s) s                                                       -- 1, 2
    (el1Gate i s s.env.SCR_EL3_SRMASKEn false
        (fgt2Clause s s.env.HFGWTR2_EL2_nSCTLR2MASK_EL1) s.env.HCRX_EL2_SRMASKEn        -- 3 to 7
      (if s.env.NVx = 0b111#3 then nvStore t 0x328#64 s                                 -- 8
       else regWriteLocked .sctlr2MaskEl1 .sctlr2MaskEl1 s.effectiveMask1 t s))         -- 9, 10
    (el2Gate i s s.env.SCR_EL3_SRMASKEn                                                 -- 11 to 13
      (if s.env.EL2InHost then
        regWriteLocked .sctlr2MaskEl1 .sctlr2MaskEl2 s.effectiveMask2 t s               -- 14, 15
       else regWrite .sctlr2MaskEl1 .sctlr2MaskEl1 t s))                                -- 16
    (regWrite .sctlr2MaskEl1 .sctlr2MaskEl1 t s)                                        -- 17

/-- `MRS <Xt>, SCTLR2MASK_EL12` (rule R162). -/
def execMrsSctlr2MaskEl12 (t : Nat) (s : State) : Out :=
  let i := Instr.mrsSctlr2MaskEl12 t
  byLevel (sctlr2MaskEl12Present s) s                                                   -- 1, 2
    (if s.env.NVx = 0b101#3 then nvLoad t 0x328#64 s else nvTrap i s)                   -- 3, 4, 5
    (if s.env.EL2InHost then
      el2Gate i s s.env.SCR_EL3_SRMASKEn (regRead .sctlr2MaskEl12 .sctlr2MaskEl1 t s)   -- 6 to 9
     else raiseUndefined)                                                               -- 10
    (if s.env.EL2InHost then regRead .sctlr2MaskEl12 .sctlr2MaskEl1 t s
     else raiseUndefined)                                                               -- 11, 12

/-- `MSR SCTLR2MASK_EL12, <Xt>` (rule R163). -/
def execMsrSctlr2MaskEl12 (t : Nat) (s : State) : Out :=
  let i := Instr.msrSctlr2MaskEl12 t
  byLevel (sctlr2MaskEl12Present s) s                                                   -- 1, 2
    (if s.env.NVx = 0b101#3 then nvStore t 0x328#64 s else nvTrap i s)                  -- 3, 4, 5
    (if s.env.EL2InHost then
      el2Gate i s s.env.SCR_EL3_SRMASKEn (regWrite .sctlr2MaskEl12 .sctlr2MaskEl1 t s)  -- 6 to 9
     else raiseUndefined)                                                               -- 10
    (if s.env.EL2InHost then regWrite .sctlr2MaskEl12 .sctlr2MaskEl1 t s
     else raiseUndefined)                                                               -- 11, 12

end Sys2Proof.Machine
end

