-- ==== Sys2Proof/Machine/Dispatch.lean ====
section
/-! DEFINITION. One arm per instruction. -/

namespace Sys2Proof.Machine

def exec (i : Instr) (s : State) : Host.Outcome State Fault Refusal :=
  match i with
  | .mrsSctlr2El1 t => Sys2Proof.Machine.execMrsSctlr2El1 t s
  | .msrSctlr2El1 t => Sys2Proof.Machine.execMsrSctlr2El1 t s
  | .mrsSctlr2El12 t => Sys2Proof.Machine.execMrsSctlr2El12 t s
  | .msrSctlr2El12 t => Sys2Proof.Machine.execMsrSctlr2El12 t s
  | .mrsSctlr2AliasEl1 t => Sys2Proof.Machine.execMrsSctlr2AliasEl1 t s
  | .msrSctlr2AliasEl1 t => Sys2Proof.Machine.execMsrSctlr2AliasEl1 t s
  | .mrsSctlr2El2 t => Sys2Proof.Machine.execMrsSctlr2El2 t s
  | .msrSctlr2El2 t => Sys2Proof.Machine.execMsrSctlr2El2 t s
  | .mrsSctlr2MaskEl1 t => Sys2Proof.Machine.execMrsSctlr2MaskEl1 t s
  | .msrSctlr2MaskEl1 t => Sys2Proof.Machine.execMsrSctlr2MaskEl1 t s
  | .mrsSctlr2MaskEl12 t => Sys2Proof.Machine.execMrsSctlr2MaskEl12 t s
  | .msrSctlr2MaskEl12 t => Sys2Proof.Machine.execMsrSctlr2MaskEl12 t s

end Sys2Proof.Machine
end

