-- ==== Sys2Proof/Machine/Effective.lean ====
section
/-!
DEFINITION. The Effective values of the fields (10_state.md rules R37 to R39, R55 to R58): what the PE behaves as if a
field held. They are observable functions of the state (decision D23); no instruction of the spec reads them.
-/

namespace Sys2Proof.Machine

/-- `SCTLR2_EL1` and `SCTLR2_EL2` exist (rules R21, R42). -/
def sctlr2Exists (c : Cfg) : Bool := c.FEAT_SCTLR2 && c.FEAT_AA64

/-- `EffHCRX(f)` (rule R74): a field of HCRX_EL2 is 0 when HCRX_EL2 is not enabled. -/
def effHCRX (e : Env) (bit : Bool) : Bool := e.HCRXEnabled && bit

/-- `Z1` (rule R37). -/
def z1 (c : Cfg) (e : Env) : Bool :=
  (c.HaveEL3 && !e.SCR_EL3_SCTLR2En) || (e.EL2Enabled && !effHCRX e e.HCRX_EL2_SCTLR2En)

/-- `Z2` (rule R55). -/
def z2 (c : Cfg) (e : Env) : Bool := c.HaveEL3 && !e.SCR_EL3_SCTLR2En

/-- `Eff1` (rule R39) less its two last conditions, for stored bits `S`. -/
def eff1Plain (c : Cfg) (e : Env) (S : Field → Bool) (f : Field) : Bool :=
  if !sctlr2Exists c then false
  else if !present1 c f then false
  else if z1 c e then false
  else match f with
    | .EnPACM0 | .EnPACM => if e.EL2Enabled && !effHCRX e e.HCRX_EL2_PACMEn then false else S f
    | .EnANERR =>
      if e.EL2Enabled && effHCRX e e.HCRX_EL2_EnSNERR then false
      else if c.FEAT_ADERR && c.ID_ANERR == 0b0010#4 && S .EnADERR then true
      else S .EnANERR
    | .EnADERR =>
      if e.EL2Enabled && effHCRX e e.HCRX_EL2_EnSDERR then false
      else if c.FEAT_ANERR && c.ID_ADERR == 0b0010#4 && S .EnANERR then true
      else S .EnADERR
    | f => S f

/-- `Eff1` (rule R39): CPTM follows CPTA and CPTM0 follows CPTA0. -/
def eff1Of (c : Cfg) (e : Env) (S : Field → Bool) (f : Field) : Bool :=
  match f with
  | .CPTM => if !eff1Plain c e S .CPTA then false else eff1Plain c e S .CPTM
  | .CPTM0 => if !eff1Plain c e S .CPTA0 then false else eff1Plain c e S .CPTM0
  | f => eff1Plain c e S f

/-- `Eff2` (rule R58) less its two last conditions, for stored bits `S`. -/
def eff2Plain (c : Cfg) (e : Env) (S : Field → Bool) (f : Field) : Bool :=
  if !sctlr2Exists c then false
  else if !e.EL2Enabled then false
  else if !present2 c e.EL2InHost f then false
  else if z2 c e then false
  else match f with
    | .CPTM0 | .CPTA0 | .EnPACM0 => if !e.HCR_EL2_TGE then false else S f
    | .EnANERR =>
      if c.FEAT_ADERR && c.ID_ANERR == 0b0010#4 && S .EnADERR then true else S .EnANERR
    | .EnADERR =>
      if c.FEAT_ANERR && c.ID_ADERR == 0b0010#4 && S .EnANERR then true else S .EnADERR
    | f => S f

/-- `Eff2` (rule R58). Its 0 for "has no effect" is a convention (decision D24): a reader tests `Env.EL2Enabled` before
it reads the 0 of EnIDCP128 as a trap. -/
def eff2Of (c : Cfg) (e : Env) (S : Field → Bool) (f : Field) : Bool :=
  match f with
  | .CPTM => if !eff2Plain c e S .CPTA then false else eff2Plain c e S .CPTM
  | .CPTM0 => if !eff2Plain c e S .CPTA0 then false else eff2Plain c e S .CPTM0
  | f => eff2Plain c e S f

/-- The band of decision D12, where "SCTLR2_EL1.EnADERR is 1" (or EnANERR) read as the stored bit and as the Effective
value differ: the model leaves the Effective value open there. Log entry 13. -/
def siblingBand (c : Cfg) (e : Env) (S : Field → Bool) : Field → Bool
  | .EnANERR =>
    sctlr2Exists c && c.FEAT_ANERR && !z1 c e && !(e.EL2Enabled && effHCRX e e.HCRX_EL2_EnSNERR) && c.FEAT_ADERR
      && c.ID_ANERR == 0b0010#4 && S .EnADERR && (e.EL2Enabled && effHCRX e e.HCRX_EL2_EnSDERR) && !S .EnANERR
  | .EnADERR =>
    sctlr2Exists c && c.FEAT_ADERR && !z1 c e && !(e.EL2Enabled && effHCRX e e.HCRX_EL2_EnSDERR) && c.FEAT_ANERR
      && c.ID_ADERR == 0b0010#4 && S .EnANERR && (e.EL2Enabled && effHCRX e e.HCRX_EL2_EnSNERR) && !S .EnADERR
  | _ => false

/-- `Eff1(F)` of the stored value, a free value in the band. -/
def State.eff1 (s : State) (f : Field) : Bool :=
  if siblingBand s.cfg s.env (fieldBit s.sctlr2El1.stored) f then
    Config.siblingOpen s.sctlr2El1.stored s.cfg s.env (f == .EnANERR)
  else eff1Of s.cfg s.env (fieldBit s.sctlr2El1.stored) f

/-- `Eff2(F)` of the stored value. -/
def State.eff2 (s : State) (f : Field) : Bool := eff2Of s.cfg s.env (fieldBit s.sctlr2El2.stored) f

/-- The Effective value `b` may govern field `f` of `SCTLR2_EL1`: computed, field by field, from an old or the new stored
value until the next synchronisation (rule R98 (c)), and open in the band of decision D12. -/
def State.Eff1May (s : State) (f : Field) (b : Bool) : Prop :=
  ∃ S : Field → Bool, (∀ g, ∃ w ∈ s.sctlr2El1.visible, S g = fieldBit w g) ∧
    (eff1Of s.cfg s.env S f = b ∨ siblingBand s.cfg s.env S f = true)

/-- The same for `SCTLR2_EL2`; for EMEC a TLB may also hold a bit that governed since the last TLB maintenance (rule
R100). -/
def State.Eff2May (s : State) (f : Field) (b : Bool) : Prop :=
  ∃ S : Field → Bool,
    (∀ g, (∃ w ∈ s.sctlr2El2.visible, S g = fieldBit w g) ∨ (g = .EMEC ∧ S g ∈ s.tlbEmec)) ∧
    eff2Of s.cfg s.env S f = b

end Sys2Proof.Machine
end

