-- ==== Sys2Proof/Machine/Events.lean ====
section
/-!
DEFINITION. What the outside world does between instructions: inputs (rule R74), explicit synchronisation (rules R95, R98
(d)), TLB maintenance (rule R100) and the Warm reset (70_reset_and_hazards.md rules R220 to R225).
-/

namespace Sys2Proof.Machine

/-- An explicit synchronisation: every register settles (rule R95). The values of EMEC that may have governed until then
stay where a TLB may hold them, also the ones no order of the settled writes ends with (rule R100). -/
def State.syncAll (s : State) : State :=
  let a := s.sctlr2El1.settle s.draws
  let b := s.sctlr2El2.settle a.2
  let c := s.sctlr2MaskEl1.settle b.2
  let d := s.sctlr2MaskEl2.settle c.2
  { s with sctlr2El1 := a.1, sctlr2El2 := b.1, sctlr2MaskEl1 := c.1, sctlr2MaskEl2 := d.1, tlbEmec := s.emecCopies,
           draws := d.2 }

/-- A register after a Warm reset: the bits of `zeros` are 0 and the rest drawn (rules R80 to R83, R222). A register
that does not exist is left alone (rule R220). -/
def resetReg (present : Bool) (zeros drawn : Word) (r : SysReg) : SysReg :=
  if present then ⟨drawn &&& ~~~zeros, []⟩ else r

/-- The present fields of a register, if its reset zeroes them (rules R80, R81, R83). -/
def resetZeros (zeroed : Bool) (present : Field → Bool) : Word := if zeroed then fieldMask present else 0#64

/-- Warm reset (rule R220), with the inputs after it. The presence of the unprivileged fields of `SCTLR2_EL2` at the
reset does not count (rule R81, decision D18). NVMem is not changed (rule R225). Every other value is drawn (rule R84);
`pc[1:0]` is 0, the launch premise of rule R231. A TLB may keep earlier values of EMEC (log entry 14). `SCTLR2MASK_EL1`
is reset when it exists by rule R61, that is also without FEAT_SCTLR2, which rule R220 asks for (DESIGN CHOICE, log
entry 29). -/
def State.warmReset (s : State) (e : Env) : State :=
  let u := fun i => Config.unknown (s.draws + i)
  let c := s.cfg
  let p2 := sctlr2Exists c
  let pm := c.FEAT_SRMASK && c.FEAT_AA64
  { s with
    env := e
    sctlr2El1 := resetReg p2 (resetZeros (c.highestEL == .el1) (present1 c)) (u 0) s.sctlr2El1
    sctlr2El2 := resetReg p2 (resetZeros (c.highestEL == .el2) (present2 c true)) (u 1) s.sctlr2El2
    sctlr2MaskEl1 := resetReg pm (resetZeros (c.highestEL == .el1) (present1 c)) (u 2) s.sctlr2MaskEl1
    sctlr2MaskEl2 := resetReg pm 0#64 (u 3) s.sctlr2MaskEl2
    pc := (u 4).extractLsb' 2 62 ++ 0#2
    pstate := ⟨(u 5).getLsbD 0, (u 5).getLsbD 1⟩
    x := Vector.ofFn (fun k : Fin 31 => u (6 + k.val))
    tlbEmec := s.emecCopies
    draws := s.draws + 37 }

/-- One outside event. TLB maintenance removes the copies made before it; a value of EMEC that still may govern, because
its write is not yet synchronised, may be copied again after it and so outlive the synchronisation (DESIGN CHOICE, log
entry 14). -/
def applyEvent (ev : Event) (s : State) : State :=
  match ev with
  | .instruction => s
  | .setEnv e => { s with env := e }
  | .sync => s.syncAll
  | .tlbMaintenance => { s with tlbEmec := [] }
  | .warmReset e => s.warmReset e

end Sys2Proof.Machine
end

