-- ==== Sys2Proof/Machine/Fetch.lean ====
section
/-!
DEFINITION. Fetching an instruction from the program text (10_state.md rule R72, 20_memory.md rules R94, R104;
30_encoding.md rules R116, R117), and placing one there.
-/

namespace Sys2Proof.Machine

/-- The four bytes at the program counter, in memory order. -/
def State.fetchBytes (s : State) : List Byte :=
  (List.range 4).map (fun i => Memory.readByte s.mem (s.pc.toNat + i))

/-- Whether the four bytes at the program counter are program text. -/
def State.pcInText (s : State) : Bool :=
  (List.range 4).all (fun i => s.text.contains (s.pc.toNat + i))

/-- `pc[1:0] = 0` (rule R94). -/
def State.pcAligned (s : State) : Bool := s.pc.extractLsb' 0 2 == 0#2

/-- The instruction at the program counter, or why there is none. -/
def State.fetch (s : State) : Except Refusal Instr :=
  if !s.pcAligned then .error .fetchMisaligned
  else if !s.pcInText then .error .fetchOutsideText
  else match decodeBytes s.fetchBytes with
    | .ok (i, _) => .ok i
    | .error _ => .error .notInThisSpec

/-- The state with the instruction whose bits are `w` at the program counter, as program text, and an instruction as the
very next thing that happens (which an empty inbox says already). A misaligned program counter is rounded down. Log
entry 9. -/
def State.placeWord (s : State) (nbits w : Nat) : State :=
  let pc := s.pc &&& ~~~3#64
  let word := BitVec.ofNat 32 (w % 2 ^ nbits)
  { s with
    pc := pc
    mem := Memory.writeBytes s.mem pc.toNat (bytesOfWord word)
    text := if (List.range 4).all (fun i => s.text.contains (pc.toNat + i)) then s.text else ⟨pc.toNat, 4⟩
    inbox := if s.inbox.isEmpty then [] else .instruction :: s.inbox }

end Sys2Proof.Machine
end

