-- ==== Sys2Proof/Machine/Step.lean ====
section
/-!
DEFINITION. One step: the next outside event, or one instruction when the inbox is empty or says so (60_exceptions.md rule
R196: a step is one accessor from decode to outcome).
-/

namespace Sys2Proof.Machine

/-- One instruction: fetch, decode, execute. -/
def runInstruction (s : State) : Host.Outcome State Fault Refusal :=
  match s.fetch with
  | .ok i => exec i s
  | .error r => .refused r

/-- One step. -/
def step (s : State) : Host.Outcome State Fault Refusal :=
  match s.inbox with
  | [] => runInstruction s
  | .instruction :: rest => runInstruction { s with inbox := rest }
  | ev :: rest => .next (applyEvent ev { s with inbox := rest })

/-- The state whose very next step runs the instruction whose bits are `w`. -/
def State.withFetchWord (s : State) (nbits w : Nat) : State := s.placeWord nbits w

end Sys2Proof.Machine
end

