-- ==== Sys2Proof/Machine/Controls.lean ====
section
/-!
DEFINITION. What the fields say of mechanisms outside the twelve instructions (10_state.md rules R26 to R36, R43 to R54,
R57; 60_exceptions.md rules R190 to R195), as observables of the state for a neighbouring model (decision D23). Nothing
here is executed by a step. Each reads the Effective value of the stored register.
-/

namespace Sys2Proof.Machine

/-- The Effective value of HCR_EL2.{E2H, TGE} is {1, 1}: EL0 is governed by `SCTLR2_EL2` (rule R57). -/
def el0UnderEl2 (e : Env) : Bool := e.HCR_EL2_E2H_eff && e.HCR_EL2_TGE_eff

/-- The unprivileged control that governs EL0 (rule R57), for CPTM0, CPTA0 and EnPACM0. -/
def State.unprivileged (s : State) (f : Field) : Bool := if el0UnderEl2 s.env then s.eff2 f else s.eff1 f

/-- The two kinds of Checked Pointer Arithmetic (rules R26 to R29, R43 to R46). -/
inductive PtrOp where
  | addition | multiplication
deriving DecidableEq, Repr

/-- Whether Pointer Arithmetic is checked at an Exception level; the spec has no control for EL3 (rule R202). -/
def State.pointerArithChecked (s : State) : EL → PtrOp → Option Bool
  | .el0, .addition => some (s.unprivileged .CPTA0)
  | .el0, .multiplication => some (s.unprivileged .CPTM0)
  | .el1, .addition => some (s.eff1 .CPTA)
  | .el1, .multiplication => some (s.eff1 .CPTM)
  | .el2, .addition => some (s.eff2 .CPTA)
  | .el2, .multiplication => some (s.eff2 .CPTM)
  | .el3, _ => none

/-- Whether a PACM instruction has its effect at the current Exception level (rules R30, R31, R47, R48). -/
def State.pacmEnabled (s : State) : Option Bool :=
  match s.env.EL with
  | .el0 => some (s.unprivileged .EnPACM0)
  | .el1 => some (s.eff1 .EnPACM)
  | .el2 => some (s.eff2 .EnPACM)
  | .el3 => none

/-- `PSTATE.PACM` after a PACM instruction: set to 1 when enabled, else as it was (rules R30, R31, R73). -/
def State.pacmAfter (s : State) : Option Bool := s.pacmEnabled.map (fun on => on || s.pstate.PACM)

/-- The trap of an EL0 access to an IMPLEMENTATION DEFINED 128-bit System register: target and class (rules R32, R49,
R190), unless a higher priority exception. Where the field is absent, or EL2 is not enabled, the 0 of the Effective value
is no trap (rules R24, R58). -/
def State.impDef128Trap (s : State) : Option (EL × Nat) :=
  if !(sctlr2Exists s.cfg && s.cfg.FEAT_SYSREG128) then none
  else if el0UnderEl2 s.env then
    (if s.env.EL2Enabled && !s.eff2 .EnIDCP128 then some (.el2, 0x14) else none)
  else (if !s.eff1 .EnIDCP128 then some (.el1, 0x14) else none)

/-- The functionality of the 128-bit registers accessible at EL1 or EL2 is disabled (rules R32, R49). -/
def State.impDef128Disabled (s : State) : EL → Option Bool
  | .el1 => some (sctlr2Exists s.cfg && s.cfg.FEAT_SYSREG128 && !s.eff1 .EnIDCP128)
  | .el2 => some (sctlr2Exists s.cfg && s.cfg.FEAT_SYSREG128 && s.env.EL2Enabled && !s.eff2 .EnIDCP128)
  | _ => none

/-- The vector a synchronous External abort is taken to, as an offset from the level's VBAR (rules R33, R50, R191). -/
inductive AbortVector where
  | synchronous | sError
deriving DecidableEq, Repr

/-- EASE (rule R191), for an abort taken to EL1 or EL2. -/
def State.abortVector (s : State) : EL → Option AbortVector
  | .el1 => some (if s.eff1 .EASE then .sError else .synchronous)
  | .el2 => some (if s.eff2 .EASE then .sError else .synchronous)
  | _ => none

/-- The memory type of a read (rules R34, R35). -/
inductive MemType where
  | normal | device
deriving DecidableEq, Repr

/-- The translation regimes the fields speak of, by the register that governs them (rules R34, R51, R106). -/
inductive Regime where
  | el10 | el2
deriving DecidableEq, Repr

/-- How an External abort on a memory read is reported (rules R192 to R194). -/
inductive AbortReport where
  /-- A synchronous Data Abort, but in implementation-specific circumstances the sources do not bound. -/
  | syncDataAbortUnlessImplSpecific
  /-- A synchronous Data Abort or an asynchronous SError, as the implementation chooses for each abort. -/
  | syncDataAbortOrSError
  /-- No exception: reported in the FFR. -/
  | inFFR
deriving DecidableEq, Repr

/-- The field that governs aborts of a memory type. -/
def MemType.field : MemType → Field
  | .normal => .EnANERR
  | .device => .EnADERR

/-- The governing Effective value (rules R192, R193). -/
def State.abortGoverned (s : State) (g : Regime) (m : MemType) : Bool :=
  match g with
  | .el10 => s.eff1 m.field
  | .el2 => s.eff2 m.field

/-- Rules R192 to R194. `svePart` says that the access is due to an Active element of an SVE Non-fault load, or one not
the First of an SVE First-fault load. Where the governing field is absent, its register does not exist, or EL2 is not
enabled for `SCTLR2_EL2`, the spec says only that the field controls nothing; the report is then the one of a governing 0
(DESIGN CHOICE, log entry 28). -/
def State.abortReport (s : State) (g : Regime) (m : MemType) (svePart : Bool) : AbortReport :=
  if s.abortGoverned g m then .syncDataAbortOrSError
  else if s.cfg.FEAT_SVE && svePart then .inFFR
  else .syncDataAbortUnlessImplSpecific

/-- Whether a physical SError, not routed to a higher level, is masked at EL1 or EL2 (rules R36, R53, R195). What masks it
while NMEA is effectively 0 is in a section no source has (N18): the model takes `PSTATE.A` alone at EL1, `PSTATE.A` or
HCR_EL2.{AMO, TGE} = {0, 0} at EL2, and not masked otherwise (DESIGN CHOICE, log entry 30). -/
def State.sErrorMasked (s : State) : EL → Option Bool
  | .el1 => some (s.pstate.A && !s.eff1 .NMEA)
  | .el2 => some ((s.pstate.A || (!s.env.HCR_EL2_AMO && !s.env.HCR_EL2_TGE)) && !s.eff2 .NMEA)
  | _ => none

/-- MEC is enabled for the Realm physical address space (rule R54), by the stored bit; a TLB may hold another that
governed since the last TLB maintenance (rule R100, `Eff2May`). -/
def State.mecEnabled (s : State) : Bool := s.eff2 .EMEC

end Sys2Proof.Machine
end

