-- ==== Sys2Proof/Safety.lean ====
section
/-!
DEFINITION. What counts as a good state, a launch and a completed access, in the terms the statements use.
-/

namespace Sys2Proof.Machine

/-- The names that can leave a write in a register (rules R137, R164). -/
def SysRegId.writers : SysRegId → List AccName
  | .sctlr2El1 => [.sctlr2El1, .sctlr2El12, .sctlr2AliasEl1]
  | .sctlr2El2 => [.sctlr2El1, .sctlr2AliasEl1, .sctlr2El2]
  | .sctlr2MaskEl1 => [.sctlr2MaskEl1, .sctlr2MaskEl12]
  | .sctlr2MaskEl2 => [.sctlr2MaskEl1]

/-- The invariant of every step: memory in its canonical form, an aligned program counter, and in every register only
writes by names that reach it. -/
def State.Inv (s : State) : Prop :=
  Memory.wf s.mem ∧ s.pcAligned = true ∧ ∀ r, ∀ w ∈ (s.reg r).pending, w.name ∈ r.writers

/-- The premises rule R231 puts on a state: aligned program counter and NVMem base, program text clear of the two
slots. -/
def State.LaunchPremises (s : State) : Prop :=
  s.pcAligned = true ∧ s.nvAligned = true ∧ s.nvHitsText 0x278#64 = false ∧ s.nvHitsText 0x328#64 = false

/-- The named assumptions on the inputs that rule R75 and conflict C7 list and decision D13 leaves optional. The model
imposes none of them. -/
def EnvConsistent (c : Cfg) (e : Env) : Prop :=
  (e.EL = .el3 → c.HaveEL3 = true) ∧ (e.EL = .el2 → c.HaveEL2 = true) ∧ (e.EL2Enabled = true → c.HaveEL2 = true) ∧
  (e.EL2InHost = true → e.EL2Enabled = true ∧ c.FEAT_VHE = true) ∧ (e.NVx ≠ 0#3 → e.EL2Enabled = true) ∧
  (e.SDDUndefPriority = true → e.SDDUndef = true) ∧ (e.SDDUndef = true → c.HaveEL3 = true) ∧
  e.EL2InHost = e.HCR_EL2_E2H_eff ∧ e.HCR_EL2_TGE = e.HCR_EL2_TGE_eff

/-- The SCR_EL3 enable lets an access below EL3 pass (rule R198). -/
def El3Allows (s : State) (enable : Bool) : Prop := s.cfg.HaveEL3 = true → enable = true

/-- The FEAT_FGT trap of the name SCTLR2_EL1 is on (rule R136). -/
def FgtTraps (s : State) (bit : Bool) : Prop :=
  s.cfg.FEAT_FGT = true ∧ (s.cfg.HaveEL3 = false ∨ s.env.SCR_EL3_FGTEn = true) ∧ bit = true

/-- The FEAT_FGT2 trap of the alias and mask names is on (rules R136, R160). -/
def Fgt2Traps (s : State) (nbit : Bool) : Prop :=
  s.cfg.FEAT_FGT2 = true ∧ ((s.cfg.HaveEL3 = true ∧ s.env.SCR_EL3_FGTEn2 = false) ∨ nbit = false)

/-- The controls of EL2 let an access from EL1 pass (rule R198): all of them act only while EL2 is enabled. -/
def El2Allows (s : State) (txvm : Bool) (fgtTraps : Prop) (hcrxEn : Bool) : Prop :=
  s.env.EL2Enabled = true → txvm = false ∧ ¬fgtTraps ∧ s.env.HCRXEnabled = true ∧ hcrxEn = true

/-- A general register file after `x[t] <- v` (rule R70). -/
def setX (x : Vector Word 31) (t : Nat) (v : Word) : Vector Word 31 := if h : t < 31 then x.set t v else x

/-- The state after `x[t] <- Read(REG); pc <- pc + 4` by the name `n`. -/
def State.afterRead (s : State) (n : AccName) (r : SysRegId) (t : Nat) : State :=
  { s with
    x := setX s.x t (directRead s.cfg s.env r ((s.reg r).view n s.draws).1)
    pc := s.nextPc
    draws := ((s.reg r).view n s.draws).2 }

/-- The state after `REG <- MaskedWrite(REG, v, mask); pc <- pc + 4` by the name `n`, `draws` values drawn so far. -/
def State.afterMerge (s : State) (n : AccName) (r : SysRegId) (v mask : Word) (draws : Nat) : State :=
  { s.pushWrite r ⟨n, v, mask⟩ with pc := s.nextPc, draws := draws }

/-- The state after `REG <- x[t]; pc <- pc + 4` by the name `n`. -/
def State.afterWrite (s : State) (n : AccName) (r : SysRegId) (t : Nat) : State :=
  s.afterMerge n r (s.readX t) 0#64 s.draws

/-- The state after a write of `x[t]` under an effective mask when FEAT_SRMASK is implemented, whole otherwise. -/
def State.afterMasked (s : State) (n : AccName) (r : SysRegId) (em : Word × Nat) (t : Nat) : State :=
  if s.cfg.FEAT_SRMASK = true then s.afterMerge n r (s.readX t) em.1 em.2 else s.afterWrite n r t

/-- The state after `x[t] <- MemRead(Env.NVBase + off, 8); pc <- pc + 4`. -/
def State.afterLoad (s : State) (off : Word) (t : Nat) : State :=
  { s with x := setX s.x t (Memory.read64 s.mem s.cfg.NVBigEndian (s.nvAddr off).toNat), pc := s.nextPc }

/-- The state after `MemWrite(Env.NVBase + off, 8, x[t]); pc <- pc + 4`. -/
def State.afterStore (s : State) (off : Word) (t : Nat) : State :=
  { s with mem := Memory.write64 s.mem s.cfg.NVBigEndian (s.nvAddr off).toNat (s.readX t), pc := s.nextPc }

/-- The outcome of an NVMem load (rules R90, R94, R99). -/
def State.loadOutcome (s : State) (off : Word) (t : Nat) : Out :=
  if s.nvAligned = false then .refused .nvBaseMisaligned
  else if s.env.NVMemFault = true then .fault .nvMemFault
  else .next (s.afterLoad off t)

/-- The outcome of an NVMem store (rules R90, R94, R99, R104). -/
def State.storeOutcome (s : State) (off : Word) (t : Nat) : Out :=
  if s.nvAligned = false then .refused .nvBaseMisaligned
  else if s.nvHitsText off = true then .refused .nvStoreOverlapsText
  else if s.env.NVMemFault = true then .fault .nvMemFault
  else .next (s.afterStore off t)

/-- An NVMem load can complete. -/
def State.LoadReady (s : State) : Prop := s.nvAligned = true ∧ s.env.NVMemFault = false

/-- An NVMem store at `off` can complete. -/
def State.StoreReady (s : State) (off : Word) : Prop := s.LoadReady ∧ s.nvHitsText off = false

/-- The value of `NVx` that redirects a name at EL1, and the offset of the slot (rule R91). -/
def slotOf : AccName → Option (BitVec 3 × Word)
  | .sctlr2El1 | .sctlr2AliasEl1 => some (0b111#3, 0x278#64)
  | .sctlr2El12 => some (0b101#3, 0x278#64)
  | .sctlr2MaskEl1 => some (0b111#3, 0x328#64)
  | .sctlr2MaskEl12 => some (0b101#3, 0x328#64)
  | .sctlr2El2 => none

/-- The offset of the slot an access by the name `n` goes to instead of a register, if any (rule R91). -/
def State.redirect (s : State) (n : AccName) : Option Word :=
  match slotOf n with
  | some (nv, off) => if s.env.EL = .el1 ∧ s.env.NVx = nv then some off else none
  | none => none

/-- The register an access by the name `n` reaches when it completes on a register (rules R137, R164). -/
def State.reaches (s : State) (n : AccName) : SysRegId :=
  match n with
  | .sctlr2El1 | .sctlr2AliasEl1 => if s.env.EL = .el2 ∧ s.env.EL2InHost = true then .sctlr2El2 else .sctlr2El1
  | .sctlr2El12 => .sctlr2El1
  | .sctlr2El2 => .sctlr2El2
  | .sctlr2MaskEl1 => if s.env.EL = .el2 ∧ s.env.EL2InHost = true then .sctlr2MaskEl2 else .sctlr2MaskEl1
  | .sctlr2MaskEl12 => .sctlr2MaskEl1

/-- Whether a completed MSR by the name `n` is merged under the mask of the register it reaches (rules R64, R137: the
marks "(m)"). -/
def State.merges (s : State) (n : AccName) : Bool :=
  s.cfg.FEAT_SRMASK &&
  match n with
  | .sctlr2El1 | .sctlr2AliasEl1 => s.env.EL == .el1 || (s.env.EL == .el2 && s.env.EL2InHost)
  | .sctlr2El2 => s.env.EL == .el2
  | _ => false

end Sys2Proof.Machine
end

