-- ==== Sys2Proof/Certificates/Slice0/Obligations.lean ====
section
/-!
DEFINITION. The statements for the provers. OBLIGATIONS.json lists each with its tier, basis and the rules it cites.
-/

open Sys2Proof Sys2Proof.Machine

/-- Decoding the bytes of any well-formed instruction gives it back, whatever bytes follow.
For every well-formed instruction, the decoder applied to the four bytes the encoder lays out (field layout of
R111, tuples of R112, least significant byte first) followed by any bytes answers that instruction and the bytes
after it. Rules: R110, R111, R112, R113, R117. -/
def Obligations.DecodeOfEncode : Prop :=
  ∀ (i : Instr) (rest : List Byte), i.WellFormed → decodeBytes (encodeBytes i ++ rest) = .ok (i, rest)

/-- Every word the decoder accepts is the encoding of the well-formed instruction it answers.
For every 32-bit word, if the decoder answers an instruction then that instruction is well formed and encodes to
exactly that word. Rules: R111, R112, R113. -/
def Obligations.EncodeOfDecode : Prop :=
  ∀ (w : InstrWord) (i : Instr), decodeWord w = some i → i.WellFormed ∧ encode i = w

/-- A word is the instruction of a row exactly when its masked bits are the row's match, with t = w[4:0].
For each of the twelve rows of R113 and every 32-bit word w: w AND 0xFFFFFFE0 equals the row's match exactly
when the decoder answers the row's instruction, and then its operand is w[4:0]. Rules: R111, R112, R113. -/
def Obligations.RowsDecideDecoding : Prop :=
  ∀ w : InstrWord,
    (w &&& 0xFFFFFFE0#32 = 0xD5381060#32 ↔ decodeWord w = some (.mrsSctlr2El1 (w &&& 0x1F#32).toNat)) ∧
    (w &&& 0xFFFFFFE0#32 = 0xD5181060#32 ↔ decodeWord w = some (.msrSctlr2El1 (w &&& 0x1F#32).toNat)) ∧
    (w &&& 0xFFFFFFE0#32 = 0xD53D1060#32 ↔ decodeWord w = some (.mrsSctlr2El12 (w &&& 0x1F#32).toNat)) ∧
    (w &&& 0xFFFFFFE0#32 = 0xD51D1060#32 ↔ decodeWord w = some (.msrSctlr2El12 (w &&& 0x1F#32).toNat)) ∧
    (w &&& 0xFFFFFFE0#32 = 0xD53814E0#32 ↔ decodeWord w = some (.mrsSctlr2AliasEl1 (w &&& 0x1F#32).toNat)) ∧
    (w &&& 0xFFFFFFE0#32 = 0xD51814E0#32 ↔ decodeWord w = some (.msrSctlr2AliasEl1 (w &&& 0x1F#32).toNat)) ∧
    (w &&& 0xFFFFFFE0#32 = 0xD53C1060#32 ↔ decodeWord w = some (.mrsSctlr2El2 (w &&& 0x1F#32).toNat)) ∧
    (w &&& 0xFFFFFFE0#32 = 0xD51C1060#32 ↔ decodeWord w = some (.msrSctlr2El2 (w &&& 0x1F#32).toNat)) ∧
    (w &&& 0xFFFFFFE0#32 = 0xD5381460#32 ↔ decodeWord w = some (.mrsSctlr2MaskEl1 (w &&& 0x1F#32).toNat)) ∧
    (w &&& 0xFFFFFFE0#32 = 0xD5181460#32 ↔ decodeWord w = some (.msrSctlr2MaskEl1 (w &&& 0x1F#32).toNat)) ∧
    (w &&& 0xFFFFFFE0#32 = 0xD53D1460#32 ↔ decodeWord w = some (.mrsSctlr2MaskEl12 (w &&& 0x1F#32).toNat)) ∧
    (w &&& 0xFFFFFFE0#32 = 0xD51D1460#32 ↔ decodeWord w = some (.msrSctlr2MaskEl12 (w &&& 0x1F#32).toNat))

/-- Words of every family written out from the encoding decode to their instructions.
Seven words of vector table T310, one or two for each accessor name, decode to the instructions the table gives,
operand 31 included. Rules: R111, R112, R113, 95_test_vectors.md T310. -/
def Obligations.WrittenWordsDecode : Prop :=
  decodeWord 0xD538107F#32 = some (.mrsSctlr2El1 31) ∧ decodeWord 0xD5181062#32 = some (.msrSctlr2El1 2) ∧
    decodeWord 0xD53D1061#32 = some (.mrsSctlr2El12 1) ∧ decodeWord 0xD51814E7#32 = some (.msrSctlr2AliasEl1 7) ∧
    decodeWord 0xD53C1069#32 = some (.mrsSctlr2El2 9) ∧ decodeWord 0xD5181461#32 = some (.msrSctlr2MaskEl1 1) ∧
    decodeWord 0xD51D1460#32 = some (.msrSctlr2MaskEl12 0)

/-- A word of none of the twelve rows is refused by name when it is to be run.
In every state whose program counter is aligned and lies in the program text, with no outside event first (the
inbox is empty or says that an instruction runs now, log entry 2), if the four bytes at the program counter are
those of a word that matches none of the twelve rows, the step is refused as not in this spec: never a no-op and
never UNDEFINED. Rules: R113, R116. -/
def Obligations.UnlistedWordRefused : Prop :=
  ∀ (s : State) (w : InstrWord), (s.inbox = [] ∨ ∃ rest, s.inbox = .instruction :: rest) →
    s.pcAligned = true → s.pcInText = true →
    s.fetchBytes = bytesOfWord w →
    (∀ p ∈ [0xD5381060#32, 0xD5181060#32, 0xD53D1060#32, 0xD51D1060#32, 0xD53814E0#32, 0xD51814E0#32,
      0xD53C1060#32, 0xD51C1060#32, 0xD5381460#32, 0xD5181460#32, 0xD53D1460#32, 0xD51D1460#32],
      w &&& 0xFFFFFFE0#32 ≠ p) →
    step s = .refused .notInThisSpec

/-- A step runs exactly the instruction decoded at the program counter.
When no outside event comes first (the inbox is empty or says that an instruction runs now), the program counter
is aligned and in the program text, and the four bytes there decode to a well-formed instruction i, the step is
exec of i on the same state with only that inbox entry taken. The inbox is the model's way to supply outside
events (log entry 2). Rules: R72, R104, R117, R196. -/
def Obligations.StepRunsDecodedInstruction : Prop :=
  ∀ (s : State) (i : Instr) (rest : List Event),
    (s.inbox = [] ∧ rest = [] ∨ s.inbox = .instruction :: rest) →
    s.pcAligned = true → s.pcInText = true → decodeBytes s.fetchBytes = .ok (i, []) → i.WellFormed →
    step s = exec i { s with inbox := rest }

/-- A misaligned program counter, or one outside the program text, is refused by name.
When no outside event comes first (the inbox is empty or says that an instruction runs now, log entry 2): a
program counter whose low two bits are not 0 is refused as misaligned, and an aligned one with any of its four
bytes outside the program text is refused as outside the text. That the fetch is refused there is the model's
choice for the launch premises (log entry 9). Rules: R94, R104, R231. -/
def Obligations.FetchStopsOutsidePremises : Prop :=
  ∀ s : State, (s.inbox = [] ∨ ∃ rest, s.inbox = .instruction :: rest) →
    (s.pcAligned = false → step s = .refused .fetchMisaligned) ∧
    (s.pcAligned = true → s.pcInText = false → step s = .refused .fetchOutsideText)

/-- An instruction placed where the step fetches is the next instruction to run.
For every well-formed instruction and every state whose memory is in canonical form: after its 32-bit word is
placed with withFetchWord, the very next step is exec of that instruction, with the inbox as it was. How a word
is placed (pc rounded down to a multiple of 4, its four bytes made the program text, the inbox entry) is the
model's choice, log entry 9. Rules: R72, R104, R117. -/
def Obligations.PlacedWordRuns : Prop :=
  ∀ (i : Instr) (s : State), i.WellFormed → Memory.wf s.mem →
    step (s.withFetchWord 32 (encode i).toNat) =
      exec i { s.withFetchWord 32 (encode i).toNat with inbox := s.inbox }

/-- Each outside event is a step of its own with its stated effect and no other.
With an outside event at the head of the inbox the step answers a next state: new inputs replace the inputs and
nothing else; TLB maintenance clears the earlier EMEC values and nothing else; a synchronisation and a Warm
reset apply their operations; the event is taken from the inbox. That such events are steps of the machine is
the model's choice (log entry 2). Rules: R74, R98, R100, R220. -/
def Obligations.OutsideEventsTakeEffect : Prop :=
  ∀ (s : State) (rest : List Event) (e : Env),
    (s.inbox = .setEnv e :: rest → step s = .next { s with inbox := rest, env := e }) ∧
    (s.inbox = .tlbMaintenance :: rest → step s = .next { s with inbox := rest, tlbEmec := [] }) ∧
    (s.inbox = .sync :: rest → step s = .next ({ s with inbox := rest } : State).syncAll) ∧
    (s.inbox = .warmReset e :: rest → step s = .next (({ s with inbox := rest } : State).warmReset e))

/-- MRS Xt, SCTLR2_EL1: the outcome is the one the pseudocode of R130 gives, branch by branch.
For every operand 0 to 31, the outcome of the instruction is the one the pseudocode of R130 gives, branch by
branch in its order, with the trapped word written from its match word (the fault carries it for a reader). The
value read by a name is what rule R95 and R98 let that name find (the stored value when no other name has an
unsynchronised write). The state meets the launch premises of R231 (an aligned NVMem base, program text clear of
the slots); the NVMem transfer may end in NVMemFault (R99). The clauses the rule does not give are the model's:
log entries 12 (the trapped word, PRESUMED), 20 (a raise is a fault), 10 (pc past the top of the range), 11 (a
slot past the top), 16 and 17 (NVMemFault) and 6 (the draw of a read). Rules: R130, R72, R90, R95, R98, R99,
R181, R231. -/
def Obligations.MrsSctlr2El1Outcome : Prop :=
  ∀ (t : Nat) (s : State), t < 32 → s.LaunchPremises → exec (.mrsSctlr2El1 t) s =
    (if ¬(s.cfg.FEAT_SCTLR2 = true ∧ s.cfg.FEAT_AA64 = true) then .fault .undefined
    else if s.env.EL = .el0 then .fault .undefined
    else if s.env.EL = .el1 then
       (if s.cfg.HaveEL3 = true ∧ s.env.SDDUndefPriority = true ∧ s.env.SCR_EL3_SCTLR2En = false then .fault .undefined
        else if s.env.EL2Enabled = true ∧ s.env.HCR_EL2_TRVM = true then
          .fault (.systemAccessTrap .el2 0x18 (0xD5381060#32 ||| BitVec.ofNat 32 t))
        else if s.env.EL2Enabled = true ∧ s.cfg.FEAT_FGT = true ∧
            (s.cfg.HaveEL3 = false ∨ s.env.SCR_EL3_FGTEn = true) ∧ s.env.HFGRTR_EL2_SCTLR_EL1 = true then
          .fault (.systemAccessTrap .el2 0x18 (0xD5381060#32 ||| BitVec.ofNat 32 t))
        else if s.env.EL2Enabled = true ∧ (s.env.HCRXEnabled = false ∨ s.env.HCRX_EL2_SCTLR2En = false) then
          .fault (.systemAccessTrap .el2 0x18 (0xD5381060#32 ||| BitVec.ofNat 32 t))
        else if s.cfg.HaveEL3 = true ∧ s.env.SCR_EL3_SCTLR2En = false then
          (if s.env.SDDUndef = true then .fault .undefined
           else .fault (.systemAccessTrap .el3 0x18 (0xD5381060#32 ||| BitVec.ofNat 32 t)))
        else if s.env.NVx = 0b111#3 then (if s.env.NVMemFault = true then .fault .nvMemFault else .next (s.afterLoad 0x278#64 t))
        else .next (s.afterRead .sctlr2El1 .sctlr2El1 t))
    else if s.env.EL = .el2 then
       (if s.cfg.HaveEL3 = true ∧ s.env.SDDUndefPriority = true ∧ s.env.SCR_EL3_SCTLR2En = false then .fault .undefined
        else if s.cfg.HaveEL3 = true ∧ s.env.SCR_EL3_SCTLR2En = false then
          (if s.env.SDDUndef = true then .fault .undefined
           else .fault (.systemAccessTrap .el3 0x18 (0xD5381060#32 ||| BitVec.ofNat 32 t)))
        else if s.env.EL2InHost = true then .next (s.afterRead .sctlr2El1 .sctlr2El2 t)
        else .next (s.afterRead .sctlr2El1 .sctlr2El1 t))
    else .next (s.afterRead .sctlr2El1 .sctlr2El1 t))

/-- MSR SCTLR2_EL1, Xt: the outcome is the one the pseudocode of R131 gives, branch by branch.
For every operand 0 to 31, the outcome of the instruction is the one the pseudocode of R131 gives, branch by
branch in its order, with the trapped word written from its match word (the fault carries it for a reader). The
state meets the launch premises of R231 (an aligned NVMem base, program text clear of the slots); the NVMem
transfer may end in NVMemFault (R99). The clauses the rule does not give are the model's: log entries 12 (the
trapped word, PRESUMED), 20 (a raise is a fault), 10 (pc past the top of the range), 11 (a slot past the top),
16 and 17 (NVMemFault), 6 (the mask found by a draw) and 14 (EMEC in a TLB). Rules: R131, R72, R90, R95, R98,
R99, R100, R181, R231. -/
def Obligations.MsrSctlr2El1Outcome : Prop :=
  ∀ (t : Nat) (s : State), t < 32 → s.LaunchPremises → exec (.msrSctlr2El1 t) s =
    (if ¬(s.cfg.FEAT_SCTLR2 = true ∧ s.cfg.FEAT_AA64 = true) then .fault .undefined
    else if s.env.EL = .el0 then .fault .undefined
    else if s.env.EL = .el1 then
       (if s.cfg.HaveEL3 = true ∧ s.env.SDDUndefPriority = true ∧ s.env.SCR_EL3_SCTLR2En = false then .fault .undefined
        else if s.env.EL2Enabled = true ∧ s.env.HCR_EL2_TVM = true then
          .fault (.systemAccessTrap .el2 0x18 (0xD5181060#32 ||| BitVec.ofNat 32 t))
        else if s.env.EL2Enabled = true ∧ s.cfg.FEAT_FGT = true ∧
            (s.cfg.HaveEL3 = false ∨ s.env.SCR_EL3_FGTEn = true) ∧ s.env.HFGWTR_EL2_SCTLR_EL1 = true then
          .fault (.systemAccessTrap .el2 0x18 (0xD5181060#32 ||| BitVec.ofNat 32 t))
        else if s.env.EL2Enabled = true ∧ (s.env.HCRXEnabled = false ∨ s.env.HCRX_EL2_SCTLR2En = false) then
          .fault (.systemAccessTrap .el2 0x18 (0xD5181060#32 ||| BitVec.ofNat 32 t))
        else if s.cfg.HaveEL3 = true ∧ s.env.SCR_EL3_SCTLR2En = false then
          (if s.env.SDDUndef = true then .fault .undefined
           else .fault (.systemAccessTrap .el3 0x18 (0xD5181060#32 ||| BitVec.ofNat 32 t)))
        else if s.env.NVx = 0b111#3 then (if s.env.NVMemFault = true then .fault .nvMemFault else .next (s.afterStore 0x278#64 t))
        else .next (s.afterMasked .sctlr2El1 .sctlr2El1 s.effectiveMask1 t))
    else if s.env.EL = .el2 then
       (if s.cfg.HaveEL3 = true ∧ s.env.SDDUndefPriority = true ∧ s.env.SCR_EL3_SCTLR2En = false then .fault .undefined
        else if s.cfg.HaveEL3 = true ∧ s.env.SCR_EL3_SCTLR2En = false then
          (if s.env.SDDUndef = true then .fault .undefined
           else .fault (.systemAccessTrap .el3 0x18 (0xD5181060#32 ||| BitVec.ofNat 32 t)))
        else if s.env.EL2InHost = true then .next (s.afterMasked .sctlr2El1 .sctlr2El2 s.effectiveMask2 t)
        else .next (s.afterWrite .sctlr2El1 .sctlr2El1 t))
    else .next (s.afterWrite .sctlr2El1 .sctlr2El1 t))

/-- MRS Xt, SCTLR2_EL12: the outcome is the one the pseudocode of R132 gives, branch by branch.
For every operand 0 to 31, the outcome of the instruction is the one the pseudocode of R132 gives, branch by
branch in its order, with the trapped word written from its match word (the fault carries it for a reader). The
value read by a name is what rule R95 and R98 let that name find (the stored value when no other name has an
unsynchronised write). The state meets the launch premises of R231 (an aligned NVMem base, program text clear of
the slots); the NVMem transfer may end in NVMemFault (R99). FEAT_VHE, the rule's heading condition, is a premise
(without it: AbsentNamesUndefined). The clauses the rule does not give are the model's: log entries 12 (the
trapped word, PRESUMED), 20 (a raise is a fault), 10 (pc past the top of the range), 11 (a slot past the top),
16 and 17 (NVMemFault) and 6 (the draw of a read). Rules: R132, R72, R90, R95, R98, R99, R181, R231. -/
def Obligations.MrsSctlr2El12Outcome : Prop :=
  ∀ (t : Nat) (s : State), t < 32 → s.LaunchPremises → s.cfg.FEAT_VHE = true → exec (.mrsSctlr2El12 t) s =
    (if ¬(s.cfg.FEAT_SCTLR2 = true ∧ s.cfg.FEAT_AA64 = true) then .fault .undefined
    else if s.env.EL = .el0 then .fault .undefined
    else if s.env.EL = .el1 then
       (if s.env.NVx = 0b101#3 then (if s.env.NVMemFault = true then .fault .nvMemFault else .next (s.afterLoad 0x278#64 t))
        else if s.env.NVx.getLsbD 0 = true then .fault (.systemAccessTrap .el2 0x18 (0xD53D1060#32 ||| BitVec.ofNat 32 t))
        else .fault .undefined)
    else if s.env.EL = .el2 then
       (if s.env.EL2InHost = true then
         (if s.cfg.HaveEL3 = true ∧ s.env.SDDUndefPriority = true ∧ s.env.SCR_EL3_SCTLR2En = false then .fault .undefined
          else if s.cfg.HaveEL3 = true ∧ s.env.SCR_EL3_SCTLR2En = false then
            (if s.env.SDDUndef = true then .fault .undefined
             else .fault (.systemAccessTrap .el3 0x18 (0xD53D1060#32 ||| BitVec.ofNat 32 t)))
          else .next (s.afterRead .sctlr2El12 .sctlr2El1 t))
        else .fault .undefined)
    else if s.env.EL2InHost = true then .next (s.afterRead .sctlr2El12 .sctlr2El1 t) else .fault .undefined)

/-- MSR SCTLR2_EL12, Xt: the outcome is the one the pseudocode of R133 gives, branch by branch.
For every operand 0 to 31, the outcome of the instruction is the one the pseudocode of R133 gives, branch by
branch in its order, with the trapped word written from its match word (the fault carries it for a reader). The
state meets the launch premises of R231 (an aligned NVMem base, program text clear of the slots); the NVMem
transfer may end in NVMemFault (R99). FEAT_VHE, the rule's heading condition, is a premise (without it:
AbsentNamesUndefined). The clauses the rule does not give are the model's: log entries 12 (the trapped word,
PRESUMED), 20 (a raise is a fault), 10 (pc past the top of the range), 11 (a slot past the top) and 16 and 17
(NVMemFault). Rules: R133, R72, R90, R99, R181, R231. -/
def Obligations.MsrSctlr2El12Outcome : Prop :=
  ∀ (t : Nat) (s : State), t < 32 → s.LaunchPremises → s.cfg.FEAT_VHE = true → exec (.msrSctlr2El12 t) s =
    (if ¬(s.cfg.FEAT_SCTLR2 = true ∧ s.cfg.FEAT_AA64 = true) then .fault .undefined
    else if s.env.EL = .el0 then .fault .undefined
    else if s.env.EL = .el1 then
       (if s.env.NVx = 0b101#3 then (if s.env.NVMemFault = true then .fault .nvMemFault else .next (s.afterStore 0x278#64 t))
        else if s.env.NVx.getLsbD 0 = true then .fault (.systemAccessTrap .el2 0x18 (0xD51D1060#32 ||| BitVec.ofNat 32 t))
        else .fault .undefined)
    else if s.env.EL = .el2 then
       (if s.env.EL2InHost = true then
         (if s.cfg.HaveEL3 = true ∧ s.env.SDDUndefPriority = true ∧ s.env.SCR_EL3_SCTLR2En = false then .fault .undefined
          else if s.cfg.HaveEL3 = true ∧ s.env.SCR_EL3_SCTLR2En = false then
            (if s.env.SDDUndef = true then .fault .undefined
             else .fault (.systemAccessTrap .el3 0x18 (0xD51D1060#32 ||| BitVec.ofNat 32 t)))
          else .next (s.afterWrite .sctlr2El12 .sctlr2El1 t))
        else .fault .undefined)
    else if s.env.EL2InHost = true then .next (s.afterWrite .sctlr2El12 .sctlr2El1 t) else .fault .undefined)

/-- MRS Xt, SCTLR2ALIAS_EL1: the outcome is the one the pseudocode of R134 gives, branch by branch.
For every operand 0 to 31, the outcome of the instruction is the one the pseudocode of R134 gives, branch by
branch in its order, with the trapped word written from its match word (the fault carries it for a reader). The
value read by a name is what rule R95 and R98 let that name find (the stored value when no other name has an
unsynchronised write). The state meets the launch premises of R231 (an aligned NVMem base, program text clear of
the slots); the NVMem transfer may end in NVMemFault (R99). FEAT_SRMASK, the rule's heading condition, is a
premise (without it: AbsentNamesUndefined). The clauses the rule does not give are the model's: log entries 12
(the trapped word, PRESUMED), 20 (a raise is a fault), 10 (pc past the top of the range), 11 (a slot past the
top), 16 and 17 (NVMemFault) and 6 (the draw of a read). Rules: R134, R72, R90, R95, R98, R99, R181, R231. -/
def Obligations.MrsSctlr2AliasEl1Outcome : Prop :=
  ∀ (t : Nat) (s : State), t < 32 → s.LaunchPremises → s.cfg.FEAT_SRMASK = true → exec (.mrsSctlr2AliasEl1 t) s =
    (if ¬(s.cfg.FEAT_SCTLR2 = true ∧ s.cfg.FEAT_AA64 = true) then .fault .undefined
    else if s.env.EL = .el0 then .fault .undefined
    else if s.env.EL = .el1 then
       (if s.cfg.HaveEL3 = true ∧ s.env.SDDUndefPriority = true ∧ s.env.SCR_EL3_SCTLR2En = false then .fault .undefined
        else if s.env.EL2Enabled = true ∧ s.env.HCR_EL2_TRVM = true then
          .fault (.systemAccessTrap .el2 0x18 (0xD53814E0#32 ||| BitVec.ofNat 32 t))
        else if s.env.EL2Enabled = true ∧ s.cfg.FEAT_FGT2 = true ∧
            ((s.cfg.HaveEL3 = true ∧ s.env.SCR_EL3_FGTEn2 = false) ∨ s.env.HFGRTR2_EL2_nSCTLR2ALIAS_EL1 = false) then
          .fault (.systemAccessTrap .el2 0x18 (0xD53814E0#32 ||| BitVec.ofNat 32 t))
        else if s.env.EL2Enabled = true ∧ (s.env.HCRXEnabled = false ∨ s.env.HCRX_EL2_SCTLR2En = false) then
          .fault (.systemAccessTrap .el2 0x18 (0xD53814E0#32 ||| BitVec.ofNat 32 t))
        else if s.cfg.HaveEL3 = true ∧ s.env.SCR_EL3_SCTLR2En = false then
          (if s.env.SDDUndef = true then .fault .undefined
           else .fault (.systemAccessTrap .el3 0x18 (0xD53814E0#32 ||| BitVec.ofNat 32 t)))
        else if s.env.NVx = 0b111#3 then (if s.env.NVMemFault = true then .fault .nvMemFault else .next (s.afterLoad 0x278#64 t))
        else .next (s.afterRead .sctlr2AliasEl1 .sctlr2El1 t))
    else if s.env.EL = .el2 then
       (if s.cfg.HaveEL3 = true ∧ s.env.SDDUndefPriority = true ∧ s.env.SCR_EL3_SCTLR2En = false then .fault .undefined
        else if s.cfg.HaveEL3 = true ∧ s.env.SCR_EL3_SCTLR2En = false then
          (if s.env.SDDUndef = true then .fault .undefined
           else .fault (.systemAccessTrap .el3 0x18 (0xD53814E0#32 ||| BitVec.ofNat 32 t)))
        else if s.env.EL2InHost = true then .next (s.afterRead .sctlr2AliasEl1 .sctlr2El2 t)
        else .next (s.afterRead .sctlr2AliasEl1 .sctlr2El1 t))
    else .next (s.afterRead .sctlr2AliasEl1 .sctlr2El1 t))

/-- MSR SCTLR2ALIAS_EL1, Xt: the outcome is the one the pseudocode of R135 gives, branch by branch.
For every operand 0 to 31, the outcome of the instruction is the one the pseudocode of R135 gives, branch by
branch in its order, with the trapped word written from its match word (the fault carries it for a reader). The
state meets the launch premises of R231 (an aligned NVMem base, program text clear of the slots); the NVMem
transfer may end in NVMemFault (R99). FEAT_SRMASK, the rule's heading condition, is a premise (without it:
AbsentNamesUndefined). The clauses the rule does not give are the model's: log entries 12 (the trapped word,
PRESUMED), 20 (a raise is a fault), 10 (pc past the top of the range), 11 (a slot past the top), 16 and 17
(NVMemFault), 6 (the mask found by a draw) and 14 (EMEC in a TLB). Rules: R135, R72, R90, R95, R98, R99, R100,
R181, R231. -/
def Obligations.MsrSctlr2AliasEl1Outcome : Prop :=
  ∀ (t : Nat) (s : State), t < 32 → s.LaunchPremises → s.cfg.FEAT_SRMASK = true → exec (.msrSctlr2AliasEl1 t) s =
    (if ¬(s.cfg.FEAT_SCTLR2 = true ∧ s.cfg.FEAT_AA64 = true) then .fault .undefined
    else if s.env.EL = .el0 then .fault .undefined
    else if s.env.EL = .el1 then
       (if s.cfg.HaveEL3 = true ∧ s.env.SDDUndefPriority = true ∧ s.env.SCR_EL3_SCTLR2En = false then .fault .undefined
        else if s.env.EL2Enabled = true ∧ s.env.HCR_EL2_TVM = true then
          .fault (.systemAccessTrap .el2 0x18 (0xD51814E0#32 ||| BitVec.ofNat 32 t))
        else if s.env.EL2Enabled = true ∧ s.cfg.FEAT_FGT2 = true ∧
            ((s.cfg.HaveEL3 = true ∧ s.env.SCR_EL3_FGTEn2 = false) ∨ s.env.HFGWTR2_EL2_nSCTLR2ALIAS_EL1 = false) then
          .fault (.systemAccessTrap .el2 0x18 (0xD51814E0#32 ||| BitVec.ofNat 32 t))
        else if s.env.EL2Enabled = true ∧ (s.env.HCRXEnabled = false ∨ s.env.HCRX_EL2_SCTLR2En = false) then
          .fault (.systemAccessTrap .el2 0x18 (0xD51814E0#32 ||| BitVec.ofNat 32 t))
        else if s.cfg.HaveEL3 = true ∧ s.env.SCR_EL3_SCTLR2En = false then
          (if s.env.SDDUndef = true then .fault .undefined
           else .fault (.systemAccessTrap .el3 0x18 (0xD51814E0#32 ||| BitVec.ofNat 32 t)))
        else if s.env.NVx = 0b111#3 then (if s.env.NVMemFault = true then .fault .nvMemFault else .next (s.afterStore 0x278#64 t))
        else .next (s.afterMasked .sctlr2AliasEl1 .sctlr2El1 s.effectiveMask1 t))
    else if s.env.EL = .el2 then
       (if s.cfg.HaveEL3 = true ∧ s.env.SDDUndefPriority = true ∧ s.env.SCR_EL3_SCTLR2En = false then .fault .undefined
        else if s.cfg.HaveEL3 = true ∧ s.env.SCR_EL3_SCTLR2En = false then
          (if s.env.SDDUndef = true then .fault .undefined
           else .fault (.systemAccessTrap .el3 0x18 (0xD51814E0#32 ||| BitVec.ofNat 32 t)))
        else if s.env.EL2InHost = true then .next (s.afterMasked .sctlr2AliasEl1 .sctlr2El2 s.effectiveMask2 t)
        else .next (s.afterWrite .sctlr2AliasEl1 .sctlr2El1 t))
    else .next (s.afterWrite .sctlr2AliasEl1 .sctlr2El1 t))

/-- MRS Xt, SCTLR2_EL2: the outcome is the one the pseudocode of R150 gives, branch by branch.
For every operand 0 to 31, the outcome of the instruction is the one the pseudocode of R150 gives, branch by
branch in its order, with the trapped word written from its match word (the fault carries it for a reader). The
value read by a name is what rule R95 and R98 let that name find (the stored value when no other name has an
unsynchronised write). The clauses the rule does not give are the model's: log entries 12 (the trapped word,
PRESUMED), 20 (a raise is a fault), 10 (pc past the top of the range) and 6 (the draw of a read). Rules: R150,
R72, R95, R98, R181. -/
def Obligations.MrsSctlr2El2Outcome : Prop :=
  ∀ (t : Nat) (s : State), t < 32 → exec (.mrsSctlr2El2 t) s =
    (if ¬(s.cfg.FEAT_SCTLR2 = true ∧ s.cfg.FEAT_AA64 = true) then .fault .undefined
    else if s.env.EL = .el0 then .fault .undefined
    else if s.env.EL = .el1 then
       (if s.env.NVx.getLsbD 0 = true then .fault (.systemAccessTrap .el2 0x18 (0xD53C1060#32 ||| BitVec.ofNat 32 t)) else .fault .undefined)
    else if s.env.EL = .el2 then
       (if s.cfg.HaveEL3 = true ∧ s.env.SDDUndefPriority = true ∧ s.env.SCR_EL3_SCTLR2En = false then .fault .undefined
        else if s.cfg.HaveEL3 = true ∧ s.env.SCR_EL3_SCTLR2En = false then
          (if s.env.SDDUndef = true then .fault .undefined
           else .fault (.systemAccessTrap .el3 0x18 (0xD53C1060#32 ||| BitVec.ofNat 32 t)))
        else .next (s.afterRead .sctlr2El2 .sctlr2El2 t))
    else .next (s.afterRead .sctlr2El2 .sctlr2El2 t))

/-- MSR SCTLR2_EL2, Xt: the outcome is the one the pseudocode of R151 gives, branch by branch.
For every operand 0 to 31, the outcome of the instruction is the one the pseudocode of R151 gives, branch by
branch in its order, with the trapped word written from its match word (the fault carries it for a reader). The
clauses the rule does not give are the model's: log entries 12 (the trapped word, PRESUMED), 20 (a raise is a
fault), 10 (pc past the top of the range), 6 (the mask found by a draw) and 14 (EMEC in a TLB). Rules: R151,
R72, R95, R98, R100, R181. -/
def Obligations.MsrSctlr2El2Outcome : Prop :=
  ∀ (t : Nat) (s : State), t < 32 → exec (.msrSctlr2El2 t) s =
    (if ¬(s.cfg.FEAT_SCTLR2 = true ∧ s.cfg.FEAT_AA64 = true) then .fault .undefined
    else if s.env.EL = .el0 then .fault .undefined
    else if s.env.EL = .el1 then
       (if s.env.NVx.getLsbD 0 = true then .fault (.systemAccessTrap .el2 0x18 (0xD51C1060#32 ||| BitVec.ofNat 32 t)) else .fault .undefined)
    else if s.env.EL = .el2 then
       (if s.cfg.HaveEL3 = true ∧ s.env.SDDUndefPriority = true ∧ s.env.SCR_EL3_SCTLR2En = false then .fault .undefined
        else if s.cfg.HaveEL3 = true ∧ s.env.SCR_EL3_SCTLR2En = false then
          (if s.env.SDDUndef = true then .fault .undefined
           else .fault (.systemAccessTrap .el3 0x18 (0xD51C1060#32 ||| BitVec.ofNat 32 t)))
        else .next (s.afterMasked .sctlr2El2 .sctlr2El2 s.effectiveMask2 t))
    else .next (s.afterWrite .sctlr2El2 .sctlr2El2 t))

/-- MRS Xt, SCTLR2MASK_EL1: the outcome is the one the pseudocode of R160 gives, branch by branch.
For every operand 0 to 31, the outcome of the instruction is the one the pseudocode of R160 gives, branch by
branch in its order, with the trapped word written from its match word (the fault carries it for a reader). The
value read by a name is what rule R95 and R98 let that name find (the stored value when no other name has an
unsynchronised write). The state meets the launch premises of R231 (an aligned NVMem base, program text clear of
the slots); the NVMem transfer may end in NVMemFault (R99). The clauses the rule does not give are the model's:
log entries 12 (the trapped word, PRESUMED), 20 (a raise is a fault), 10 (pc past the top of the range), 11 (a
slot past the top), 16 and 17 (NVMemFault) and 6 (the draw of a read). Rules: R160, R72, R90, R95, R98, R99,
R181, R231. -/
def Obligations.MrsSctlr2MaskEl1Outcome : Prop :=
  ∀ (t : Nat) (s : State), t < 32 → s.LaunchPremises → exec (.mrsSctlr2MaskEl1 t) s =
    (if ¬(s.cfg.FEAT_SRMASK = true ∧ s.cfg.FEAT_AA64 = true) then .fault .undefined
    else if s.env.EL = .el0 then .fault .undefined
    else if s.env.EL = .el1 then
       (if s.cfg.HaveEL3 = true ∧ s.env.SDDUndefPriority = true ∧ s.env.SCR_EL3_SRMASKEn = false then .fault .undefined
        else if s.env.EL2Enabled = true ∧ s.cfg.FEAT_FGT2 = true ∧
            ((s.cfg.HaveEL3 = true ∧ s.env.SCR_EL3_FGTEn2 = false) ∨ s.env.HFGRTR2_EL2_nSCTLR2MASK_EL1 = false) then
          .fault (.systemAccessTrap .el2 0x18 (0xD5381460#32 ||| BitVec.ofNat 32 t))
        else if s.env.EL2Enabled = true ∧ (s.env.HCRXEnabled = false ∨ s.env.HCRX_EL2_SRMASKEn = false) then
          .fault (.systemAccessTrap .el2 0x18 (0xD5381460#32 ||| BitVec.ofNat 32 t))
        else if s.cfg.HaveEL3 = true ∧ s.env.SCR_EL3_SRMASKEn = false then
          (if s.env.SDDUndef = true then .fault .undefined
           else .fault (.systemAccessTrap .el3 0x18 (0xD5381460#32 ||| BitVec.ofNat 32 t)))
        else if s.env.NVx = 0b111#3 then (if s.env.NVMemFault = true then .fault .nvMemFault else .next (s.afterLoad 0x328#64 t))
        else .next (s.afterRead .sctlr2MaskEl1 .sctlr2MaskEl1 t))
    else if s.env.EL = .el2 then
       (if s.cfg.HaveEL3 = true ∧ s.env.SDDUndefPriority = true ∧ s.env.SCR_EL3_SRMASKEn = false then .fault .undefined
        else if s.cfg.HaveEL3 = true ∧ s.env.SCR_EL3_SRMASKEn = false then
          (if s.env.SDDUndef = true then .fault .undefined
           else .fault (.systemAccessTrap .el3 0x18 (0xD5381460#32 ||| BitVec.ofNat 32 t)))
        else if s.env.EL2InHost = true then .next (s.afterRead .sctlr2MaskEl1 .sctlr2MaskEl2 t)
        else .next (s.afterRead .sctlr2MaskEl1 .sctlr2MaskEl1 t))
    else .next (s.afterRead .sctlr2MaskEl1 .sctlr2MaskEl1 t))

/-- MSR SCTLR2MASK_EL1, Xt: the outcome is the one the pseudocode of R161 gives, branch by branch.
For every operand 0 to 31, the outcome of the instruction is the one the pseudocode of R161 gives, branch by
branch in its order, with the trapped word written from its match word (the fault carries it for a reader). The
state meets the launch premises of R231 (an aligned NVMem base, program text clear of the slots); the NVMem
transfer may end in NVMemFault (R99). The clauses the rule does not give are the model's: log entries 12 (the
trapped word, PRESUMED), 20 (a raise is a fault), 10 (pc past the top of the range), 11 (a slot past the top),
16 and 17 (NVMemFault) and 6 (the mask found by a draw). Rules: R161, R72, R90, R95, R98, R99, R181, R231. -/
def Obligations.MsrSctlr2MaskEl1Outcome : Prop :=
  ∀ (t : Nat) (s : State), t < 32 → s.LaunchPremises → exec (.msrSctlr2MaskEl1 t) s =
    (if ¬(s.cfg.FEAT_SRMASK = true ∧ s.cfg.FEAT_AA64 = true) then .fault .undefined
    else if s.env.EL = .el0 then .fault .undefined
    else if s.env.EL = .el1 then
       (if s.cfg.HaveEL3 = true ∧ s.env.SDDUndefPriority = true ∧ s.env.SCR_EL3_SRMASKEn = false then .fault .undefined
        else if s.env.EL2Enabled = true ∧ s.cfg.FEAT_FGT2 = true ∧
            ((s.cfg.HaveEL3 = true ∧ s.env.SCR_EL3_FGTEn2 = false) ∨ s.env.HFGWTR2_EL2_nSCTLR2MASK_EL1 = false) then
          .fault (.systemAccessTrap .el2 0x18 (0xD5181460#32 ||| BitVec.ofNat 32 t))
        else if s.env.EL2Enabled = true ∧ (s.env.HCRXEnabled = false ∨ s.env.HCRX_EL2_SRMASKEn = false) then
          .fault (.systemAccessTrap .el2 0x18 (0xD5181460#32 ||| BitVec.ofNat 32 t))
        else if s.cfg.HaveEL3 = true ∧ s.env.SCR_EL3_SRMASKEn = false then
          (if s.env.SDDUndef = true then .fault .undefined
           else .fault (.systemAccessTrap .el3 0x18 (0xD5181460#32 ||| BitVec.ofNat 32 t)))
        else if s.env.NVx = 0b111#3 then (if s.env.NVMemFault = true then .fault .nvMemFault else .next (s.afterStore 0x328#64 t))
        else (if s.effectiveMask1.1 ≠ 0#64 then .fault .undefined
          else .next (s.afterMerge .sctlr2MaskEl1 .sctlr2MaskEl1 (s.readX t) 0#64 s.effectiveMask1.2)))
    else if s.env.EL = .el2 then
       (if s.cfg.HaveEL3 = true ∧ s.env.SDDUndefPriority = true ∧ s.env.SCR_EL3_SRMASKEn = false then .fault .undefined
        else if s.cfg.HaveEL3 = true ∧ s.env.SCR_EL3_SRMASKEn = false then
          (if s.env.SDDUndef = true then .fault .undefined
           else .fault (.systemAccessTrap .el3 0x18 (0xD5181460#32 ||| BitVec.ofNat 32 t)))
        else if s.env.EL2InHost = true then (if s.effectiveMask2.1 ≠ 0#64 then .fault .undefined
          else .next (s.afterMerge .sctlr2MaskEl1 .sctlr2MaskEl2 (s.readX t) 0#64 s.effectiveMask2.2))
        else .next (s.afterWrite .sctlr2MaskEl1 .sctlr2MaskEl1 t))
    else .next (s.afterWrite .sctlr2MaskEl1 .sctlr2MaskEl1 t))

/-- MRS Xt, SCTLR2MASK_EL12: the outcome is the one the pseudocode of R162 gives, branch by branch.
For every operand 0 to 31, the outcome of the instruction is the one the pseudocode of R162 gives, branch by
branch in its order, with the trapped word written from its match word (the fault carries it for a reader). The
value read by a name is what rule R95 and R98 let that name find (the stored value when no other name has an
unsynchronised write). The state meets the launch premises of R231 (an aligned NVMem base, program text clear of
the slots); the NVMem transfer may end in NVMemFault (R99). FEAT_VHE, the rule's heading condition, is a premise
(without it: AbsentNamesUndefined). The clauses the rule does not give are the model's: log entries 12 (the
trapped word, PRESUMED), 20 (a raise is a fault), 10 (pc past the top of the range), 11 (a slot past the top),
16 and 17 (NVMemFault) and 6 (the draw of a read). Rules: R162, R72, R90, R95, R98, R99, R181, R231. -/
def Obligations.MrsSctlr2MaskEl12Outcome : Prop :=
  ∀ (t : Nat) (s : State), t < 32 → s.LaunchPremises → s.cfg.FEAT_VHE = true → exec (.mrsSctlr2MaskEl12 t) s =
    (if ¬(s.cfg.FEAT_SRMASK = true ∧ s.cfg.FEAT_AA64 = true) then .fault .undefined
    else if s.env.EL = .el0 then .fault .undefined
    else if s.env.EL = .el1 then
       (if s.env.NVx = 0b101#3 then (if s.env.NVMemFault = true then .fault .nvMemFault else .next (s.afterLoad 0x328#64 t))
        else if s.env.NVx.getLsbD 0 = true then .fault (.systemAccessTrap .el2 0x18 (0xD53D1460#32 ||| BitVec.ofNat 32 t))
        else .fault .undefined)
    else if s.env.EL = .el2 then
       (if s.env.EL2InHost = true then
         (if s.cfg.HaveEL3 = true ∧ s.env.SDDUndefPriority = true ∧ s.env.SCR_EL3_SRMASKEn = false then .fault .undefined
          else if s.cfg.HaveEL3 = true ∧ s.env.SCR_EL3_SRMASKEn = false then
            (if s.env.SDDUndef = true then .fault .undefined
             else .fault (.systemAccessTrap .el3 0x18 (0xD53D1460#32 ||| BitVec.ofNat 32 t)))
          else .next (s.afterRead .sctlr2MaskEl12 .sctlr2MaskEl1 t))
        else .fault .undefined)
    else if s.env.EL2InHost = true then .next (s.afterRead .sctlr2MaskEl12 .sctlr2MaskEl1 t) else .fault .undefined)

/-- MSR SCTLR2MASK_EL12, Xt: the outcome is the one the pseudocode of R163 gives, branch by branch.
For every operand 0 to 31, the outcome of the instruction is the one the pseudocode of R163 gives, branch by
branch in its order, with the trapped word written from its match word (the fault carries it for a reader). The
state meets the launch premises of R231 (an aligned NVMem base, program text clear of the slots); the NVMem
transfer may end in NVMemFault (R99). FEAT_VHE, the rule's heading condition, is a premise (without it:
AbsentNamesUndefined). The clauses the rule does not give are the model's: log entries 12 (the trapped word,
PRESUMED), 20 (a raise is a fault), 10 (pc past the top of the range), 11 (a slot past the top) and 16 and 17
(NVMemFault). Rules: R163, R72, R90, R99, R181, R231. -/
def Obligations.MsrSctlr2MaskEl12Outcome : Prop :=
  ∀ (t : Nat) (s : State), t < 32 → s.LaunchPremises → s.cfg.FEAT_VHE = true → exec (.msrSctlr2MaskEl12 t) s =
    (if ¬(s.cfg.FEAT_SRMASK = true ∧ s.cfg.FEAT_AA64 = true) then .fault .undefined
    else if s.env.EL = .el0 then .fault .undefined
    else if s.env.EL = .el1 then
       (if s.env.NVx = 0b101#3 then (if s.env.NVMemFault = true then .fault .nvMemFault else .next (s.afterStore 0x328#64 t))
        else if s.env.NVx.getLsbD 0 = true then .fault (.systemAccessTrap .el2 0x18 (0xD51D1460#32 ||| BitVec.ofNat 32 t))
        else .fault .undefined)
    else if s.env.EL = .el2 then
       (if s.env.EL2InHost = true then
         (if s.cfg.HaveEL3 = true ∧ s.env.SDDUndefPriority = true ∧ s.env.SCR_EL3_SRMASKEn = false then .fault .undefined
          else if s.cfg.HaveEL3 = true ∧ s.env.SCR_EL3_SRMASKEn = false then
            (if s.env.SDDUndef = true then .fault .undefined
             else .fault (.systemAccessTrap .el3 0x18 (0xD51D1460#32 ||| BitVec.ofNat 32 t)))
          else .next (s.afterWrite .sctlr2MaskEl12 .sctlr2MaskEl1 t))
        else .fault .undefined)
    else if s.env.EL2InHost = true then .next (s.afterWrite .sctlr2MaskEl12 .sctlr2MaskEl1 t) else .fault .undefined)

/-- MRS Xt, SCTLR2_EL1 completes at every level whose controls allow it, with its stated result.
With the features present, MRS Xt, SCTLR2_EL1 answers a next state at EL1, EL2 and EL3 under the conditions on
the inputs alone that R130 leaves when no check fires, and reads: the destination register takes the direct read
of the register the table names, or the NVMem slot at EL1; the program counter moves on; nothing else changes.
Operand 31 reads as zero and discards. Past the top of the address range pc and the slot's address are the
model's (log entries 10 and 11). Unsynchronised writes by other names make a read or a mask a draw (R95, log
entry 6). An NVMem transfer over a misaligned base is refused (R94), then NVMemFault is at the environment's
choice (R99); the order of these is the model's choice, log entries 16 and 17. Rules: R130, R137, R90, R91, R94,
R95, R99, R198. -/
def Obligations.MrsSctlr2El1Completes : Prop :=
  ∀ (t : Nat) (s : State), s.cfg.FEAT_SCTLR2 = true → s.cfg.FEAT_AA64 = true →
    (s.env.EL = .el1 → El3Allows s s.env.SCR_EL3_SCTLR2En →
      El2Allows s s.env.HCR_EL2_TRVM (FgtTraps s s.env.HFGRTR_EL2_SCTLR_EL1) s.env.HCRX_EL2_SCTLR2En →
      (s.env.NVx = 0b111#3 → exec (.mrsSctlr2El1 t) s = s.loadOutcome 0x278#64 t ∧ (s.LoadReady → exec (.mrsSctlr2El1 t) s = .next (s.afterLoad 0x278#64 t))) ∧
      (s.env.NVx ≠ 0b111#3 → exec (.mrsSctlr2El1 t) s = .next (s.afterRead .sctlr2El1 .sctlr2El1 t))) ∧
    (s.env.EL = .el2 → El3Allows s s.env.SCR_EL3_SCTLR2En →
      (s.env.EL2InHost = true → exec (.mrsSctlr2El1 t) s = .next (s.afterRead .sctlr2El1 .sctlr2El2 t)) ∧
      (s.env.EL2InHost = false → exec (.mrsSctlr2El1 t) s = .next (s.afterRead .sctlr2El1 .sctlr2El1 t))) ∧
    (s.env.EL = .el3 → exec (.mrsSctlr2El1 t) s = .next (s.afterRead .sctlr2El1 .sctlr2El1 t))

/-- MSR SCTLR2_EL1, Xt completes at every level whose controls allow it, with its stated result.
With the features present, MSR SCTLR2_EL1, Xt answers a next state at EL1, EL2 and EL3 under the conditions on
the inputs alone that R131 leaves when no check fires, and writes: the register the table names takes x[t],
whole or merged under the effective mask where the table says so, or the NVMem slot takes x[t] at EL1; the
program counter moves on; nothing else changes. Operand 31 reads as zero and discards. Past the top of the
address range pc and the slot's address are the model's (log entries 10 and 11). Unsynchronised writes by other
names make a read or a mask a draw (R95, log entry 6). An NVMem transfer over a misaligned base is refused
(R94), then a store over the program text (R104), then NVMemFault is at the environment's choice (R99); the
order of these is the model's choice, log entries 16 and 17. A write of SCTLR2_EL2 leaves the values of EMEC
before it where a TLB may hold them (R100, log entry 14). Rules: R131, R137, R90, R91, R94, R95, R99, R104,
R100, R198. -/
def Obligations.MsrSctlr2El1Completes : Prop :=
  ∀ (t : Nat) (s : State), s.cfg.FEAT_SCTLR2 = true → s.cfg.FEAT_AA64 = true →
    (s.env.EL = .el1 → El3Allows s s.env.SCR_EL3_SCTLR2En →
      El2Allows s s.env.HCR_EL2_TVM (FgtTraps s s.env.HFGWTR_EL2_SCTLR_EL1) s.env.HCRX_EL2_SCTLR2En →
      (s.env.NVx = 0b111#3 → exec (.msrSctlr2El1 t) s = s.storeOutcome 0x278#64 t ∧ (s.StoreReady 0x278#64 → exec (.msrSctlr2El1 t) s = .next (s.afterStore 0x278#64 t))) ∧
      (s.env.NVx ≠ 0b111#3 → exec (.msrSctlr2El1 t) s = .next (s.afterMasked .sctlr2El1 .sctlr2El1 s.effectiveMask1 t))) ∧
    (s.env.EL = .el2 → El3Allows s s.env.SCR_EL3_SCTLR2En →
      (s.env.EL2InHost = true → exec (.msrSctlr2El1 t) s = .next (s.afterMasked .sctlr2El1 .sctlr2El2 s.effectiveMask2 t)) ∧
      (s.env.EL2InHost = false → exec (.msrSctlr2El1 t) s = .next (s.afterWrite .sctlr2El1 .sctlr2El1 t))) ∧
    (s.env.EL = .el3 → exec (.msrSctlr2El1 t) s = .next (s.afterWrite .sctlr2El1 .sctlr2El1 t))

/-- MRS Xt, SCTLR2_EL12 completes at every level whose controls allow it, with its stated result.
With the features present, MRS Xt, SCTLR2_EL12 answers a next state at EL1 (redirected), and at EL2 and EL3 in
host, under the conditions on the inputs alone that R132 leaves when no check fires, and reads: the destination
register takes the direct read of the register the table names, or the NVMem slot at EL1; the program counter
moves on; nothing else changes. Operand 31 reads as zero and discards. Past the top of the address range pc and
the slot's address are the model's (log entries 10 and 11). Unsynchronised writes by other names make a read or
a mask a draw (R95, log entry 6). An NVMem transfer over a misaligned base is refused (R94), then NVMemFault is
at the environment's choice (R99); the order of these is the model's choice, log entries 16 and 17. Rules: R132,
R137, R90, R91, R94, R95, R99, R198. -/
def Obligations.MrsSctlr2El12Completes : Prop :=
  ∀ (t : Nat) (s : State), s.cfg.FEAT_SCTLR2 = true → s.cfg.FEAT_AA64 = true → s.cfg.FEAT_VHE = true →
    (s.env.EL = .el1 → s.env.NVx = 0b101#3 →
      exec (.mrsSctlr2El12 t) s = s.loadOutcome 0x278#64 t ∧ (s.LoadReady → exec (.mrsSctlr2El12 t) s = .next (s.afterLoad 0x278#64 t))) ∧
    (s.env.EL = .el2 → s.env.EL2InHost = true → El3Allows s s.env.SCR_EL3_SCTLR2En → exec (.mrsSctlr2El12 t) s = .next (s.afterRead .sctlr2El12 .sctlr2El1 t)) ∧
    (s.env.EL = .el3 → s.env.EL2InHost = true → exec (.mrsSctlr2El12 t) s = .next (s.afterRead .sctlr2El12 .sctlr2El1 t))

/-- MSR SCTLR2_EL12, Xt completes at every level whose controls allow it, with its stated result.
With the features present, MSR SCTLR2_EL12, Xt answers a next state at EL1 (redirected), and at EL2 and EL3 in
host, under the conditions on the inputs alone that R133 leaves when no check fires, and writes: the register
the table names takes x[t], whole or merged under the effective mask where the table says so, or the NVMem slot
takes x[t] at EL1; the program counter moves on; nothing else changes. Operand 31 reads as zero and discards.
Past the top of the address range pc and the slot's address are the model's (log entries 10 and 11). An NVMem
transfer over a misaligned base is refused (R94), then a store over the program text (R104), then NVMemFault is
at the environment's choice (R99); the order of these is the model's choice, log entries 16 and 17. Rules: R133,
R137, R90, R91, R94, R99, R104, R198. -/
def Obligations.MsrSctlr2El12Completes : Prop :=
  ∀ (t : Nat) (s : State), s.cfg.FEAT_SCTLR2 = true → s.cfg.FEAT_AA64 = true → s.cfg.FEAT_VHE = true →
    (s.env.EL = .el1 → s.env.NVx = 0b101#3 →
      exec (.msrSctlr2El12 t) s = s.storeOutcome 0x278#64 t ∧ (s.StoreReady 0x278#64 → exec (.msrSctlr2El12 t) s = .next (s.afterStore 0x278#64 t))) ∧
    (s.env.EL = .el2 → s.env.EL2InHost = true → El3Allows s s.env.SCR_EL3_SCTLR2En → exec (.msrSctlr2El12 t) s = .next (s.afterWrite .sctlr2El12 .sctlr2El1 t)) ∧
    (s.env.EL = .el3 → s.env.EL2InHost = true → exec (.msrSctlr2El12 t) s = .next (s.afterWrite .sctlr2El12 .sctlr2El1 t))

/-- MRS Xt, SCTLR2ALIAS_EL1 completes at every level whose controls allow it, with its stated result.
With the features present, MRS Xt, SCTLR2ALIAS_EL1 answers a next state at EL1, EL2 and EL3 under the conditions
on the inputs alone that R134 leaves when no check fires, and reads: the destination register takes the direct
read of the register the table names, or the NVMem slot at EL1; the program counter moves on; nothing else
changes. Operand 31 reads as zero and discards. Past the top of the address range pc and the slot's address are
the model's (log entries 10 and 11). Unsynchronised writes by other names make a read or a mask a draw (R95, log
entry 6). An NVMem transfer over a misaligned base is refused (R94), then NVMemFault is at the environment's
choice (R99); the order of these is the model's choice, log entries 16 and 17. Rules: R134, R137, R90, R91, R94,
R95, R99, R198. -/
def Obligations.MrsSctlr2AliasEl1Completes : Prop :=
  ∀ (t : Nat) (s : State), s.cfg.FEAT_SCTLR2 = true → s.cfg.FEAT_AA64 = true → s.cfg.FEAT_SRMASK = true →
    (s.env.EL = .el1 → El3Allows s s.env.SCR_EL3_SCTLR2En →
      El2Allows s s.env.HCR_EL2_TRVM (Fgt2Traps s s.env.HFGRTR2_EL2_nSCTLR2ALIAS_EL1) s.env.HCRX_EL2_SCTLR2En →
      (s.env.NVx = 0b111#3 → exec (.mrsSctlr2AliasEl1 t) s = s.loadOutcome 0x278#64 t ∧ (s.LoadReady → exec (.mrsSctlr2AliasEl1 t) s = .next (s.afterLoad 0x278#64 t))) ∧
      (s.env.NVx ≠ 0b111#3 → exec (.mrsSctlr2AliasEl1 t) s = .next (s.afterRead .sctlr2AliasEl1 .sctlr2El1 t))) ∧
    (s.env.EL = .el2 → El3Allows s s.env.SCR_EL3_SCTLR2En →
      (s.env.EL2InHost = true → exec (.mrsSctlr2AliasEl1 t) s = .next (s.afterRead .sctlr2AliasEl1 .sctlr2El2 t)) ∧
      (s.env.EL2InHost = false → exec (.mrsSctlr2AliasEl1 t) s = .next (s.afterRead .sctlr2AliasEl1 .sctlr2El1 t))) ∧
    (s.env.EL = .el3 → exec (.mrsSctlr2AliasEl1 t) s = .next (s.afterRead .sctlr2AliasEl1 .sctlr2El1 t))

/-- MSR SCTLR2ALIAS_EL1, Xt completes at every level whose controls allow it, with its stated result.
With the features present, MSR SCTLR2ALIAS_EL1, Xt answers a next state at EL1, EL2 and EL3 under the conditions
on the inputs alone that R135 leaves when no check fires, and writes: the register the table names takes x[t],
whole or merged under the effective mask where the table says so, or the NVMem slot takes x[t] at EL1; the
program counter moves on; nothing else changes. Operand 31 reads as zero and discards. Past the top of the
address range pc and the slot's address are the model's (log entries 10 and 11). Unsynchronised writes by other
names make a read or a mask a draw (R95, log entry 6). An NVMem transfer over a misaligned base is refused
(R94), then a store over the program text (R104), then NVMemFault is at the environment's choice (R99); the
order of these is the model's choice, log entries 16 and 17. A write of SCTLR2_EL2 leaves the values of EMEC
before it where a TLB may hold them (R100, log entry 14). Rules: R135, R137, R90, R91, R94, R95, R99, R104,
R100, R198. -/
def Obligations.MsrSctlr2AliasEl1Completes : Prop :=
  ∀ (t : Nat) (s : State), s.cfg.FEAT_SCTLR2 = true → s.cfg.FEAT_AA64 = true → s.cfg.FEAT_SRMASK = true →
    (s.env.EL = .el1 → El3Allows s s.env.SCR_EL3_SCTLR2En →
      El2Allows s s.env.HCR_EL2_TVM (Fgt2Traps s s.env.HFGWTR2_EL2_nSCTLR2ALIAS_EL1) s.env.HCRX_EL2_SCTLR2En →
      (s.env.NVx = 0b111#3 → exec (.msrSctlr2AliasEl1 t) s = s.storeOutcome 0x278#64 t ∧ (s.StoreReady 0x278#64 → exec (.msrSctlr2AliasEl1 t) s = .next (s.afterStore 0x278#64 t))) ∧
      (s.env.NVx ≠ 0b111#3 → exec (.msrSctlr2AliasEl1 t) s = .next (s.afterMerge .sctlr2AliasEl1 .sctlr2El1 (s.readX t) s.effectiveMask1.1 s.effectiveMask1.2))) ∧
    (s.env.EL = .el2 → El3Allows s s.env.SCR_EL3_SCTLR2En →
      (s.env.EL2InHost = true → exec (.msrSctlr2AliasEl1 t) s = .next (s.afterMerge .sctlr2AliasEl1 .sctlr2El2 (s.readX t) s.effectiveMask2.1 s.effectiveMask2.2)) ∧
      (s.env.EL2InHost = false → exec (.msrSctlr2AliasEl1 t) s = .next (s.afterWrite .sctlr2AliasEl1 .sctlr2El1 t))) ∧
    (s.env.EL = .el3 → exec (.msrSctlr2AliasEl1 t) s = .next (s.afterWrite .sctlr2AliasEl1 .sctlr2El1 t))

/-- MRS Xt, SCTLR2_EL2 completes at EL2 and EL3 when their controls allow it, with its stated result.
With the features present, MRS Xt, SCTLR2_EL2 answers a next state at EL2 and EL3 under the conditions on the
inputs alone that R150 leaves when no check fires, and reads: the destination register takes the direct read of
the register the table names; the program counter moves on; nothing else changes. Operand 31 reads as zero and
discards. Past the top of the address range pc is the model's (log entry 10). (EL1, where the form completes
nowhere, is in MrsSctlr2El2Outcome.) Unsynchronised writes by other names make a read or a mask a draw (R95, log
entry 6). Rules: R150, R137, R95, R198. -/
def Obligations.MrsSctlr2El2Completes : Prop :=
  ∀ (t : Nat) (s : State), s.cfg.FEAT_SCTLR2 = true → s.cfg.FEAT_AA64 = true →
    (s.env.EL = .el2 → El3Allows s s.env.SCR_EL3_SCTLR2En → exec (.mrsSctlr2El2 t) s = .next (s.afterRead .sctlr2El2 .sctlr2El2 t)) ∧
    (s.env.EL = .el3 → exec (.mrsSctlr2El2 t) s = .next (s.afterRead .sctlr2El2 .sctlr2El2 t))

/-- MSR SCTLR2_EL2, Xt completes at EL2 and EL3 when their controls allow it, with its stated result.
With the features present, MSR SCTLR2_EL2, Xt answers a next state at EL2 and EL3 under the conditions on the
inputs alone that R151 leaves when no check fires, and writes: the register the table names takes x[t], whole or
merged under the effective mask where the table says so; the program counter moves on; nothing else changes.
Operand 31 reads as zero and discards. Past the top of the address range pc is the model's (log entry 10). (EL1,
where the form completes nowhere, is in MsrSctlr2El2Outcome.) Unsynchronised writes by other names make a read
or a mask a draw (R95, log entry 6). A write of SCTLR2_EL2 leaves the values of EMEC before it where a TLB may
hold them (R100, log entry 14). Rules: R151, R137, R95, R100, R198. -/
def Obligations.MsrSctlr2El2Completes : Prop :=
  ∀ (t : Nat) (s : State), s.cfg.FEAT_SCTLR2 = true → s.cfg.FEAT_AA64 = true →
    (s.env.EL = .el2 → El3Allows s s.env.SCR_EL3_SCTLR2En → exec (.msrSctlr2El2 t) s = .next (s.afterMasked .sctlr2El2 .sctlr2El2 s.effectiveMask2 t)) ∧
    (s.env.EL = .el3 → exec (.msrSctlr2El2 t) s = .next (s.afterWrite .sctlr2El2 .sctlr2El2 t))

/-- MRS Xt, SCTLR2MASK_EL1 completes at every level whose controls allow it, with its stated result.
With the features present, MRS Xt, SCTLR2MASK_EL1 answers a next state at EL1, EL2 and EL3 under the conditions
on the inputs alone that R160 leaves when no check fires, and reads: the destination register takes the direct
read of the register the table names, or the NVMem slot at EL1; the program counter moves on; nothing else
changes. Operand 31 reads as zero and discards. Past the top of the address range pc and the slot's address are
the model's (log entries 10 and 11). Unsynchronised writes by other names make a read or a mask a draw (R95, log
entry 6). An NVMem transfer over a misaligned base is refused (R94), then NVMemFault is at the environment's
choice (R99); the order of these is the model's choice, log entries 16 and 17. Rules: R160, R164, R90, R91, R94,
R95, R99, R198. -/
def Obligations.MrsSctlr2MaskEl1Completes : Prop :=
  ∀ (t : Nat) (s : State), s.cfg.FEAT_SRMASK = true → s.cfg.FEAT_AA64 = true →
    (s.env.EL = .el1 → El3Allows s s.env.SCR_EL3_SRMASKEn →
      El2Allows s false (Fgt2Traps s s.env.HFGRTR2_EL2_nSCTLR2MASK_EL1) s.env.HCRX_EL2_SRMASKEn →
      (s.env.NVx = 0b111#3 → exec (.mrsSctlr2MaskEl1 t) s = s.loadOutcome 0x328#64 t ∧ (s.LoadReady → exec (.mrsSctlr2MaskEl1 t) s = .next (s.afterLoad 0x328#64 t))) ∧
      (s.env.NVx ≠ 0b111#3 → exec (.mrsSctlr2MaskEl1 t) s = .next (s.afterRead .sctlr2MaskEl1 .sctlr2MaskEl1 t))) ∧
    (s.env.EL = .el2 → El3Allows s s.env.SCR_EL3_SRMASKEn →
      (s.env.EL2InHost = true → exec (.mrsSctlr2MaskEl1 t) s = .next (s.afterRead .sctlr2MaskEl1 .sctlr2MaskEl2 t)) ∧
      (s.env.EL2InHost = false → exec (.mrsSctlr2MaskEl1 t) s = .next (s.afterRead .sctlr2MaskEl1 .sctlr2MaskEl1 t))) ∧
    (s.env.EL = .el3 → exec (.mrsSctlr2MaskEl1 t) s = .next (s.afterRead .sctlr2MaskEl1 .sctlr2MaskEl1 t))

/-- MSR SCTLR2MASK_EL1, Xt completes at every level whose controls allow it, with its stated result.
With the features present, MSR SCTLR2MASK_EL1, Xt answers a next state at EL1, EL2 and EL3 under the conditions
on the inputs alone that R161 leaves when no check fires, and writes: the register the table names takes x[t],
whole or merged under the effective mask where the table says so, or the NVMem slot takes x[t] at EL1; the
program counter moves on; nothing else changes. Operand 31 reads as zero and discards. Past the top of the
address range pc and the slot's address are the model's (log entries 10 and 11). Unsynchronised writes by other
names make a read or a mask a draw (R95, log entry 6). An NVMem transfer over a misaligned base is refused
(R94), then a store over the program text (R104), then NVMemFault is at the environment's choice (R99); the
order of these is the model's choice, log entries 16 and 17. At EL1, and at EL2 in host, a non-zero effective
mask makes it UNDEFINED instead (R165). Rules: R161, R164, R90, R91, R94, R95, R99, R104, R165, R198. -/
def Obligations.MsrSctlr2MaskEl1Completes : Prop :=
  ∀ (t : Nat) (s : State), s.cfg.FEAT_SRMASK = true → s.cfg.FEAT_AA64 = true →
    (s.env.EL = .el1 → El3Allows s s.env.SCR_EL3_SRMASKEn →
      El2Allows s false (Fgt2Traps s s.env.HFGWTR2_EL2_nSCTLR2MASK_EL1) s.env.HCRX_EL2_SRMASKEn →
      (s.env.NVx = 0b111#3 → exec (.msrSctlr2MaskEl1 t) s = s.storeOutcome 0x328#64 t ∧ (s.StoreReady 0x328#64 → exec (.msrSctlr2MaskEl1 t) s = .next (s.afterStore 0x328#64 t))) ∧
      (s.env.NVx ≠ 0b111#3 → exec (.msrSctlr2MaskEl1 t) s = if s.effectiveMask1.1 = 0#64 then .next (s.afterMerge .sctlr2MaskEl1 .sctlr2MaskEl1 (s.readX t) 0#64 s.effectiveMask1.2) else .fault .undefined)) ∧
    (s.env.EL = .el2 → El3Allows s s.env.SCR_EL3_SRMASKEn →
      (s.env.EL2InHost = true → exec (.msrSctlr2MaskEl1 t) s = if s.effectiveMask2.1 = 0#64 then .next (s.afterMerge .sctlr2MaskEl1 .sctlr2MaskEl2 (s.readX t) 0#64 s.effectiveMask2.2) else .fault .undefined) ∧
      (s.env.EL2InHost = false → exec (.msrSctlr2MaskEl1 t) s = .next (s.afterWrite .sctlr2MaskEl1 .sctlr2MaskEl1 t))) ∧
    (s.env.EL = .el3 → exec (.msrSctlr2MaskEl1 t) s = .next (s.afterWrite .sctlr2MaskEl1 .sctlr2MaskEl1 t))

/-- MRS Xt, SCTLR2MASK_EL12 completes at every level whose controls allow it, with its stated result.
With the features present, MRS Xt, SCTLR2MASK_EL12 answers a next state at EL1 (redirected), and at EL2 and EL3
in host, under the conditions on the inputs alone that R162 leaves when no check fires, and reads: the
destination register takes the direct read of the register the table names, or the NVMem slot at EL1; the
program counter moves on; nothing else changes. Operand 31 reads as zero and discards. Past the top of the
address range pc and the slot's address are the model's (log entries 10 and 11). Unsynchronised writes by other
names make a read or a mask a draw (R95, log entry 6). An NVMem transfer over a misaligned base is refused
(R94), then NVMemFault is at the environment's choice (R99); the order of these is the model's choice, log
entries 16 and 17. Rules: R162, R164, R90, R91, R94, R95, R99, R198. -/
def Obligations.MrsSctlr2MaskEl12Completes : Prop :=
  ∀ (t : Nat) (s : State), s.cfg.FEAT_SRMASK = true → s.cfg.FEAT_AA64 = true → s.cfg.FEAT_VHE = true →
    (s.env.EL = .el1 → s.env.NVx = 0b101#3 →
      exec (.mrsSctlr2MaskEl12 t) s = s.loadOutcome 0x328#64 t ∧ (s.LoadReady → exec (.mrsSctlr2MaskEl12 t) s = .next (s.afterLoad 0x328#64 t))) ∧
    (s.env.EL = .el2 → s.env.EL2InHost = true → El3Allows s s.env.SCR_EL3_SRMASKEn → exec (.mrsSctlr2MaskEl12 t) s = .next (s.afterRead .sctlr2MaskEl12 .sctlr2MaskEl1 t)) ∧
    (s.env.EL = .el3 → s.env.EL2InHost = true → exec (.mrsSctlr2MaskEl12 t) s = .next (s.afterRead .sctlr2MaskEl12 .sctlr2MaskEl1 t))

/-- MSR SCTLR2MASK_EL12, Xt completes at every level whose controls allow it, with its stated result.
With the features present, MSR SCTLR2MASK_EL12, Xt answers a next state at EL1 (redirected), and at EL2 and EL3
in host, under the conditions on the inputs alone that R163 leaves when no check fires, and writes: the register
the table names takes x[t], whole or merged under the effective mask where the table says so, or the NVMem slot
takes x[t] at EL1; the program counter moves on; nothing else changes. Operand 31 reads as zero and discards.
Past the top of the address range pc and the slot's address are the model's (log entries 10 and 11). An NVMem
transfer over a misaligned base is refused (R94), then a store over the program text (R104), then NVMemFault is
at the environment's choice (R99); the order of these is the model's choice, log entries 16 and 17. Rules: R163,
R164, R90, R91, R94, R99, R104, R198. -/
def Obligations.MsrSctlr2MaskEl12Completes : Prop :=
  ∀ (t : Nat) (s : State), s.cfg.FEAT_SRMASK = true → s.cfg.FEAT_AA64 = true → s.cfg.FEAT_VHE = true →
    (s.env.EL = .el1 → s.env.NVx = 0b101#3 →
      exec (.msrSctlr2MaskEl12 t) s = s.storeOutcome 0x328#64 t ∧ (s.StoreReady 0x328#64 → exec (.msrSctlr2MaskEl12 t) s = .next (s.afterStore 0x328#64 t))) ∧
    (s.env.EL = .el2 → s.env.EL2InHost = true → El3Allows s s.env.SCR_EL3_SRMASKEn → exec (.msrSctlr2MaskEl12 t) s = .next (s.afterWrite .sctlr2MaskEl12 .sctlr2MaskEl1 t)) ∧
    (s.env.EL = .el3 → s.env.EL2InHost = true → exec (.msrSctlr2MaskEl12 t) s = .next (s.afterWrite .sctlr2MaskEl12 .sctlr2MaskEl1 t))

/-- Every form is UNDEFINED for want of its features, at EL0, and without its heading feature.
R115 whole: the eight SCTLR2 forms without FEAT_SCTLR2 and FEAT_AA64, the four mask forms without FEAT_SRMASK
and FEAT_AA64, all twelve at EL0, the _EL12 forms without FEAT_VHE and the alias forms without FEAT_SRMASK, each
at every Exception level. The last two clauses are the spec's own decision D8. Rules: R115. -/
def Obligations.AbsentNamesUndefined : Prop :=
  ∀ (t : Nat) (s : State),
    (¬(s.cfg.FEAT_SCTLR2 = true ∧ s.cfg.FEAT_AA64 = true) → ∀ i ∈ [.mrsSctlr2El1 t, .msrSctlr2El1 t, .mrsSctlr2El12 t, .msrSctlr2El12 t, .mrsSctlr2AliasEl1 t,
      .msrSctlr2AliasEl1 t, .mrsSctlr2El2 t, .msrSctlr2El2 t],
      exec i s = .fault .undefined) ∧
    (¬(s.cfg.FEAT_SRMASK = true ∧ s.cfg.FEAT_AA64 = true) → ∀ i ∈ [.mrsSctlr2MaskEl1 t, .msrSctlr2MaskEl1 t, .mrsSctlr2MaskEl12 t, .msrSctlr2MaskEl12 t],
      exec i s = .fault .undefined) ∧
    (s.env.EL = .el0 → ∀ i : Instr, exec i s = .fault .undefined) ∧
    (s.cfg.FEAT_VHE = false →
      ∀ i ∈ [.mrsSctlr2El12 t, .msrSctlr2El12 t, .mrsSctlr2MaskEl12 t, .msrSctlr2MaskEl12 t],
      exec i s = .fault .undefined) ∧
    (s.cfg.FEAT_SRMASK = false → ∀ i ∈ [.mrsSctlr2AliasEl1 t, .msrSctlr2AliasEl1 t],
      exec i s = .fault .undefined)

/-- A trap is of class 0x18, carries the instruction's word, and goes from EL1 to EL2 or EL3 or from EL2 to EL3.
For every instruction and state: if the outcome is a System access trap then its class is 0x18, its word is the
instruction's encoding, and it goes from EL1 to EL2 or EL3, or from EL2 to EL3; a trap to EL3 needs EL3
implemented. No trap is ever taken to EL1 or EL0, or from EL0 or EL3. Rules: R181, R183, R198. -/
def Obligations.TrapsGoUp : Prop :=
  ∀ (i : Instr) (s : State) (target : EL) (cls : Nat) (w : InstrWord),
    exec i s = .fault (.systemAccessTrap target cls w) →
    cls = 0x18 ∧ w = encode i ∧ (target = .el3 → s.cfg.HaveEL3 = true) ∧
    ((s.env.EL = .el1 ∧ (target = .el2 ∨ target = .el3)) ∨ (s.env.EL = .el2 ∧ target = .el3))

/-- Refused only outside the launch premises and by two names; NVMemFault only on a redirected access.
Under the launch premises of R231 (aligned program counter and NVMem base, program text clear of both slots) no
instruction is refused. In any state the only refusals are a misaligned NVMem base and an NVMem store over the
program text, and both only at EL1; the misaligned base is tested first, which is the model's choice, log entry
16. If an instruction ends in NVMemFault then the access was redirected to an NVMem slot, the base was aligned,
and the environment chose to raise it (log entry 17). Rules: R94, R99, R104, R182, R231. -/
def Obligations.RefusedOnlyOutsidePremises : Prop :=
  ∀ (i : Instr) (s : State),
    (∀ r : Refusal, exec i s = .refused r →
      ¬s.LaunchPremises ∧ s.env.EL = .el1 ∧
      ((r = .nvBaseMisaligned ∧ s.nvAligned = false) ∨
       (r = .nvStoreOverlapsText ∧ i.isRead = false ∧ s.nvAligned = true ∧
         ∃ off, s.redirect i.accessor = some off ∧ s.nvHitsText off = true))) ∧
    (exec i s = .fault .nvMemFault →
      s.env.NVMemFault = true ∧ s.nvAligned = true ∧ ∃ off, s.redirect i.accessor = some off)

/-- A mask write is locked in exactly two places, by a non-zero effective mask.
For an MSR of SCTLR2MASK_EL1 that passes every check and is not redirected: at EL1 it is UNDEFINED exactly when
the effective mask of EL1 is not zero, at EL2 in host exactly when that of EL2 is not zero, and at EL2 not in
host and at EL3 never; an MSR of SCTLR2MASK_EL12 that reaches the register is never locked. The effective mask
is EffMask1 (EffMask2) of the stored mask register, the configuration and the inputs, without a draw, when only
the name SCTLR2MASK_EL1 has unsynchronised writes of it, and of a value a read by that name may return otherwise
(log entry 6). Rules: R66, R67, R131, R161, R165. -/
def Obligations.LockedExactlyByEffectiveMask : Prop :=
  (∀ s : State,
      ((∀ w ∈ s.sctlr2MaskEl1.pending, w.name = .sctlr2MaskEl1) →
        s.effectiveMask1 = (Config.effMask1 s.sctlr2MaskEl1.stored s.cfg s.env, s.draws)) ∧
      ((∀ w ∈ s.sctlr2MaskEl2.pending, w.name = .sctlr2MaskEl1) →
        s.effectiveMask2 = (Config.effMask2 s.sctlr2MaskEl2.stored s.cfg s.env, s.draws)) ∧
      (∃ m ∈ s.sctlr2MaskEl1.readCandidates .sctlr2MaskEl1, s.effectiveMask1.1 = Config.effMask1 m s.cfg s.env) ∧
      ∃ m ∈ s.sctlr2MaskEl2.readCandidates .sctlr2MaskEl1, s.effectiveMask2.1 = Config.effMask2 m s.cfg s.env) ∧
  ∀ (t : Nat) (s : State), s.cfg.FEAT_SRMASK = true → s.cfg.FEAT_AA64 = true →
    El3Allows s s.env.SCR_EL3_SRMASKEn →
    (s.env.EL = .el1 → s.env.NVx ≠ 0b111#3 →
      El2Allows s false (Fgt2Traps s s.env.HFGWTR2_EL2_nSCTLR2MASK_EL1) s.env.HCRX_EL2_SRMASKEn →
      (exec (.msrSctlr2MaskEl1 t) s = .fault .undefined ↔ s.effectiveMask1.1 ≠ 0#64)) ∧
    (s.env.EL = .el2 → s.env.EL2InHost = true →
      (exec (.msrSctlr2MaskEl1 t) s = .fault .undefined ↔ s.effectiveMask2.1 ≠ 0#64)) ∧
    (s.env.EL = .el2 → s.env.EL2InHost = false → ∃ s', exec (.msrSctlr2MaskEl1 t) s = .next s') ∧
    (s.env.EL = .el3 → ∃ s', exec (.msrSctlr2MaskEl1 t) s = .next s') ∧
    (s.env.EL = .el2 ∨ s.env.EL = .el3 → s.env.EL2InHost = true → s.cfg.FEAT_VHE = true →
      ∃ s', exec (.msrSctlr2MaskEl12 t) s = .next s')

/-- The masked write, bit by bit, and the five places an MSR uses it; every other MSR stores x[t] whole.
For every old value, new value, mask and bit position 0 to 63: MaskedWrite is (new AND NOT M) OR (old AND M), so
bit i is old[i] where M[i] = 1 and new[i] where M[i] = 0, and of two masked writes under one mask the last wins.
For every MSR that answers a next state and is not redirected to a slot: with FEAT_SRMASK, by the names
SCTLR2_EL1 and SCTLR2ALIAS_EL1 at EL1 the stored SCTLR2_EL1 is merged under EffectiveSCTLR2MASK_EL1(), by the
same names at EL2 in host and by the name SCTLR2_EL2 at EL2 the stored SCTLR2_EL2 is merged under
EffectiveSCTLR2MASK_EL2(); in every other case the register the name reaches takes x[t] whole. An MRS that is
not redirected puts in x[t] the direct read of what its name finds, under no mask. (An effective mask or a read
that other names leave open is a draw, log entry 6.) Rules: R22, R64, R66, R95, R137, R164, 95_test_vectors.md
T312. -/
def Obligations.StoredValueAfterMsr : Prop :=
  (∀ (old a b m : Word),
      maskedWrite old a m = (a &&& ~~~m) ||| (old &&& m) ∧
      (∀ i, i < 64 → (maskedWrite old a m).getLsbD i = if m.getLsbD i then old.getLsbD i else a.getLsbD i) ∧
      maskedWrite (maskedWrite old a m) b m = maskedWrite old b m) ∧
  ∀ (i : Instr) (s s' : State), exec i s = .next s' → s.redirect i.accessor = none →
    (i.isRead = false →
      (s'.reg (s.reaches i.accessor)).stored =
        if s.cfg.FEAT_SRMASK = true ∧ (i.accessor = .sctlr2El1 ∨ i.accessor = .sctlr2AliasEl1) ∧
            s.env.EL = .el1 then
          maskedWrite s.sctlr2El1.stored (s.readX i.operand) s.effectiveMask1.1
        else if s.cfg.FEAT_SRMASK = true ∧ (i.accessor = .sctlr2El1 ∨ i.accessor = .sctlr2AliasEl1) ∧
            s.env.EL = .el2 ∧ s.env.EL2InHost = true then
          maskedWrite s.sctlr2El2.stored (s.readX i.operand) s.effectiveMask2.1
        else if s.cfg.FEAT_SRMASK = true ∧ i.accessor = .sctlr2El2 ∧ s.env.EL = .el2 then
          maskedWrite s.sctlr2El2.stored (s.readX i.operand) s.effectiveMask2.1
        else s.readX i.operand) ∧
    (i.isRead = true → i.operand < 31 →
      s'.readX i.operand = directRead s.cfg s.env (s.reaches i.accessor)
        ((s.reg (s.reaches i.accessor)).view i.accessor s.draws).1)

/-- A completed MRS puts the direct read of the register its name reaches, or the eight bytes of the slot, in x[t].
For every MRS of operand 0 to 30 that answers a next state: when its name is redirected, x[t] is the 64-bit read
of the slot, whose address is Env.NVBase plus the offset (below the top of the address range; past it, log entry
11); otherwise, if no other name has an unsynchronised write of the register its name reaches, x[t] is the
direct read of that register's stored value. Rules: R22, R24, R70, R90, R91, R98. -/
def Obligations.ValueReadByMrs : Prop :=
  ∀ (i : Instr) (s s' : State), i.isRead = true → i.operand < 31 → exec i s = .next s' →
    (∀ off, s.redirect i.accessor = some off →
      s'.readX i.operand = Memory.read64 s.mem s.cfg.NVBigEndian (s.nvAddr off).toNat ∧
      (s.env.NVBase.toNat + off.toNat < 2 ^ 64 → s.nvAddr off = s.env.NVBase + off)) ∧
    (s.redirect i.accessor = none →
      (∀ w ∈ (s.reg (s.reaches i.accessor)).pending, w.name = i.accessor) →
      s'.readX i.operand =
        directRead s.cfg s.env (s.reaches i.accessor) (s.reg (s.reaches i.accessor)).stored)

/-- x[0] to x[30] are independent and register 31 reads as zero and discards writes.
Writing x[t] for t below 31 is read back and leaves every other register as it was; register 31 reads as zero in
every state, and writing it changes nothing at all. Rules: R70, R114. -/
def Obligations.GeneralRegisters : Prop :=
  ∀ (s : State) (v : Word),
    (∀ t, t < 31 → (s.writeX t v).readX t = v) ∧ (∀ t k, k ≠ t → (s.writeX t v).readX k = s.readX k) ∧
    s.readX 31 = 0#64 ∧ s.writeX 31 v = s

/-- The layouts of SCTLR2_EL1, SCTLR2_EL2 and SCTLR2MASK_EL1, row by row: position, presence, RES0 elsewhere.
For every configuration and inputs: each row of the tables of R20 and R60 (eleven fields, bits 12 to 2) and of
R40 (twelve fields, bits 12 to 1, three of them only in host) gives the field's one bit and when it is present;
every bit of no present field is RES0; no other field exists; and the bits that can be a named field are 0x1FFC
in SCTLR2_EL1 and SCTLR2MASK_EL1 and 0x1FFE in SCTLR2_EL2. Rules: R20, R40, R60. -/
def Obligations.FieldTables : Prop :=
  ∀ (c : Cfg) (e : Env),
    (∀ row ∈ [(Field.CPTM0, 12, c.FEAT_CPA2), (Field.CPTM, 11, c.FEAT_CPA2), (Field.CPTA0, 10, c.FEAT_CPA2),
      (Field.CPTA, 9, c.FEAT_CPA2), (Field.EnPACM0, 8, c.FEAT_PAuth_LR),
      (Field.EnPACM, 7, c.FEAT_PAuth_LR), (Field.EnIDCP128, 6, c.FEAT_SYSREG128),
      (Field.EASE, 5, c.FEAT_DoubleFault2), (Field.EnANERR, 4, c.FEAT_ANERR),
      (Field.EnADERR, 3, c.FEAT_ADERR), (Field.NMEA, 2, c.FEAT_DoubleFault2)],
      (∀ v, fieldBit v row.1 = v.getLsbD row.2.1) ∧ present1 c row.1 = row.2.2 ∧
      (notRes0 c e .sctlr2El1).getLsbD row.2.1 = row.2.2 ∧
      (notRes0 c e .sctlr2MaskEl1).getLsbD row.2.1 = row.2.2) ∧
    (∀ i, i < 2 ∨ 12 < i →
      (notRes0 c e .sctlr2El1).getLsbD i = false ∧ (notRes0 c e .sctlr2MaskEl1).getLsbD i = false) ∧
    present1 c .EMEC = false ∧
    (∀ row ∈ [(Field.CPTM0, 12, c.FEAT_CPA2 && e.EL2InHost), (Field.CPTM, 11, c.FEAT_CPA2),
      (Field.CPTA0, 10, c.FEAT_CPA2 && e.EL2InHost), (Field.CPTA, 9, c.FEAT_CPA2),
      (Field.EnPACM0, 8, c.FEAT_PAuth_LR && e.EL2InHost), (Field.EnPACM, 7, c.FEAT_PAuth_LR),
      (Field.EnIDCP128, 6, c.FEAT_SYSREG128), (Field.EASE, 5, c.FEAT_DoubleFault2),
      (Field.EnANERR, 4, c.FEAT_ANERR), (Field.EnADERR, 3, c.FEAT_ADERR),
      (Field.NMEA, 2, c.FEAT_DoubleFault2), (Field.EMEC, 1, c.FEAT_MEC)],
      (∀ v, fieldBit v row.1 = v.getLsbD row.2.1) ∧ present2 c e.EL2InHost row.1 = row.2.2 ∧
      (notRes0 c e .sctlr2El2).getLsbD row.2.1 = row.2.2) ∧
    (∀ i, i < 1 ∨ 12 < i → (notRes0 c e .sctlr2El2).getLsbD i = false) ∧
    fieldMask (fun f => f ≠ .EMEC) = 0x1FFC#64 ∧ fieldMask (fun _ => true) = 0x1FFE#64

/-- A direct read returns every present field as stored, and RES0 bits as the parameter says.
For the registers SCTLR2_EL1, SCTLR2MASK_EL1 and SCTLR2_EL2, every configuration, input and stored value: a
present field reads as its stored bit; with Res0Reads = stored every bit does; with Res0Reads = zero every bit
that is no present field reads as 0. SCTLR2MASK_EL2 always reads as stored. Rules: R20, R24, R40, R41, R60. -/
def Obligations.DirectReadBits : Prop :=
  ∀ (c : Cfg) (e : Env) (v : Word),
    directRead c e .sctlr2MaskEl2 v = v ∧
    ∀ r p, (r, p) ∈ [(SysRegId.sctlr2El1, present1 c), (.sctlr2MaskEl1, present1 c),
        (.sctlr2El2, present2 c e.EL2InHost)] →
      (∀ f, p f = true → fieldBit (directRead c e r v) f = fieldBit v f) ∧
      (c.res0Reads = .stored → directRead c e r v = v) ∧
      (c.res0Reads = .zero → ∀ i, (∀ f : Field, p f = true → f.bit ≠ i) →
        (directRead c e r v).getLsbD i = false)

/-- An NVMem store is read back whole and alone, byte by byte in the configured order; equal reads are equal
memories.
For every memory in canonical form, address and value: in both byte orders the 64-bit read after the 64-bit
write at the same address gives the value and every byte outside the eight reads as before; with NVBigEndian
false the byte at address a + k is bits [8k+7:8k] of the value, with it true the byte at a + 7 - k is. (What
true means is the model's reading, log entry 15.) Two memories in the canonical form that read the same at every
address are equal lists; the form is the model's representation, log entry 7. Rules: R78, R90, R92, R93, R96. -/
def Obligations.SlotReadsBackAlone : Prop :=
  (∀ (m : Memory) (a : Nat) (v : Word), Memory.wf m →
    (∀ big, (m.write64 big a v).read64 big a = v ∧
      ∀ b, b < a ∨ a + 8 ≤ b → (m.write64 big a v).readByte b = m.readByte b) ∧
    ∀ k, k < 8 →
      (m.write64 false a v).readByte (a + k) = v.extractLsb' (8 * k) 8 ∧
      (m.write64 true a v).readByte (a + (7 - k)) = v.extractLsb' (8 * k) 8) ∧
    ∀ m n : Memory, Memory.wf m → Memory.wf n → (∀ a, Memory.readByte m a = Memory.readByte n a) → m = n

/-- A read by the writing name finds the written value; by another name the value before the write or after it, both
open.
For every register without unsynchronised writes by other names: after one more write by the name, a read by
that name finds MaskedWrite of the stored value before (the written value when the mask is zero), and draws
nothing. For every register with exactly one unsynchronised write since the last synchronisation: the values a
read by another name may find are exactly the value before that write and the value after it, and which of the
two it finds is the next draw, an opaque number, so neither can be shut out. (The draws are log entry 6.) Rules:
R22, R95, R98. -/
def Obligations.ReadsBetweenSynchronisations : Prop :=
  (∀ (r : SysReg) (n : AccName) (v m : Word) (d : Nat), (∀ w ∈ r.pending, w.name = n) →
      SysReg.view ⟨r.base, r.pending ++ [⟨n, v, m⟩]⟩ n d = (maskedWrite r.stored v m, d)) ∧
    ∀ (b : Word) (w : PendingWrite) (n : AccName) (d : Nat), n ≠ w.name →
      SysReg.readCandidates ⟨b, [w]⟩ n = [b, maskedWrite b w.value w.mask] ∧
      SysReg.view ⟨b, [w]⟩ n d =
        (if Config.draw d % 2 = 0 then b else maskedWrite b w.value w.mask, d + 1)

/-- A synchronisation makes every name agree; two writes by two names end in either order, both open, merges
included.
In every state: after an explicit synchronisation no register has an unsynchronised write, every name finds in
it the same stored value without a draw, and where only one name had written, the value is the one stored
before. For every register with two unsynchronised writes by different names: the values it may end with are
exactly the result of the second then the first and of the first then the second, each merged under its mask,
and which of the two it is is the next draw, an opaque number, so neither can be shut out. (The draws are log
entry 6.) Rules: R95, R98. -/
def Obligations.SynchronisationSettles : Prop :=
  (∀ (s : State) (r : SysRegId) (n : AccName) (d : Nat),
      (s.syncAll.reg r).pending = [] ∧
      (s.syncAll.reg r).view n d = ((s.syncAll.reg r).stored, d) ∧
      ((∃ k, ∀ w ∈ (s.reg r).pending, w.name = k) → (s.syncAll.reg r).stored = (s.reg r).stored)) ∧
    ∀ (b : Word) (u w : PendingWrite) (d : Nat), u.name ≠ w.name →
      SysReg.settleCandidates ⟨b, [u, w]⟩ =
        [maskedWrite (maskedWrite b w.value w.mask) u.value u.mask,
         maskedWrite (maskedWrite b u.value u.mask) w.value w.mask] ∧
      SysReg.settle ⟨b, [u, w]⟩ d =
        (⟨if Config.draw d % 2 = 0 then maskedWrite (maskedWrite b w.value w.mask) u.value u.mask
          else maskedWrite (maskedWrite b u.value u.mask) w.value w.mask, []⟩, d + 1)

/-- Every EMEC that governed stays where a TLB may hold it, past a synchronisation, until TLB maintenance.
In every state: a completed MSR that reaches SCTLR2_EL2 leaves the EMEC stored before it, and every other value
of EMEC that may have governed before it, among those a TLB may hold; a synchronisation adds exactly the values
that may have governed until then, the ones it does not settle on included, and so does a Warm reset (log entry
14, the model's choice); TLB maintenance leaves none; and no step but TLB maintenance, whatever instruction or
event it is, takes one away. Rules: R76, R98, R100. -/
def Obligations.EarlierEmecStaysUntilTlbMaintenance : Prop :=
  (∀ (i : Instr) (s s' : State), i.isRead = false → exec i s = .next s' → s.redirect i.accessor = none →
      s.reaches i.accessor = .sctlr2El2 →
      fieldBit s.sctlr2El2.stored .EMEC ∈ s'.tlbEmec ∧
      ∀ v ∈ s.sctlr2El2.visible, fieldBit v .EMEC ∈ s'.tlbEmec) ∧
    (∀ (s : State) (b : Bool) (e : Env),
      (b ∈ s.syncAll.tlbEmec ↔ b ∈ s.tlbEmec ∨ ∃ v ∈ s.sctlr2El2.visible, fieldBit v .EMEC = b) ∧
      (b ∈ (s.warmReset e).tlbEmec ↔ b ∈ s.tlbEmec ∨ ∃ v ∈ s.sctlr2El2.visible, fieldBit v .EMEC = b) ∧
      (applyEvent .tlbMaintenance s).tlbEmec = []) ∧
    ∀ s s' : State, step s = .next s' → (∀ rest, s.inbox ≠ .tlbMaintenance :: rest) →
      ∀ b ∈ s.tlbEmec, b ∈ s'.tlbEmec

/-- What may govern: one value when synchronised, old or new field by field before, and any EMEC a TLB may hold.
In every state and for every field: with nothing unsynchronised the one Effective value of SCTLR2_EL1 that may
govern is the one of its stored value (either, in the band of D12, log entry 13), and for SCTLR2_EL2 the same
for every field but EMEC; with one unsynchronised write the Effective value is computed from the value before or
the value after it, field by field. Where EMEC is present, EL2 enabled and Z2 false, EMEC may govern as b
exactly when a TLB may hold b or b is the EMEC of a value that may be found; and whatever EMEC may govern before
a synchronisation may govern after it (R100; log entry 14). Rules: R39, R58, R76, R98, R100. -/
def Obligations.ValuesThatMayGovern : Prop :=
  ∀ (s : State) (f : Field) (b : Bool),
    (s.sctlr2El1.pending = [] → (s.Eff1May f b ↔
      eff1Of s.cfg s.env (fieldBit s.sctlr2El1.stored) f = b ∨
        siblingBand s.cfg s.env (fieldBit s.sctlr2El1.stored) f = true)) ∧
    (s.sctlr2El2.pending = [] → f ≠ .EMEC → (s.Eff2May f b ↔ s.eff2 f = b)) ∧
    (∀ v w, s.sctlr2El1 = ⟨v, [w]⟩ → (s.Eff1May f b ↔
      ∃ S : Field → Bool, (∀ g, S g = fieldBit v g ∨ S g = fieldBit (maskedWrite v w.value w.mask) g) ∧
        (eff1Of s.cfg s.env S f = b ∨ siblingBand s.cfg s.env S f = true))) ∧
    (∀ v w, s.sctlr2El2 = ⟨v, [w]⟩ → f ≠ .EMEC → (s.Eff2May f b ↔
      ∃ S : Field → Bool, (∀ g, S g = fieldBit v g ∨ S g = fieldBit (maskedWrite v w.value w.mask) g) ∧
        eff2Of s.cfg s.env S f = b)) ∧
    (s.cfg.FEAT_SCTLR2 = true → s.cfg.FEAT_AA64 = true → s.cfg.FEAT_MEC = true → s.env.EL2Enabled = true →
      ¬(s.cfg.HaveEL3 = true ∧ s.env.SCR_EL3_SCTLR2En = false) →
      (s.Eff2May .EMEC b ↔ b ∈ s.tlbEmec ∨ ∃ v ∈ s.sctlr2El2.visible, fieldBit v .EMEC = b) ∧
      (s.Eff2May .EMEC b → s.syncAll.Eff2May .EMEC b))

/-- An MRS changes its destination register and the program counter, and nothing else.
For each of the six MRS forms that answers a next state: every general register but the destination, the PSTATE
bits, all four System registers, the earlier EMEC values, every byte of memory, the program text, the
configuration, the inputs and the inbox are unchanged; the program counter moves on by 4 (past the top of the
range its value is open, log entry 10). Rules: R70, R72, R73, R97. -/
def Obligations.ReadsChangeOnlyDestination : Prop :=
  ∀ (t : Nat) (s s' : State), ∀ i ∈ [.mrsSctlr2El1 t, .mrsSctlr2El12 t, .mrsSctlr2AliasEl1 t, .mrsSctlr2El2 t, .mrsSctlr2MaskEl1 t,
      .mrsSctlr2MaskEl12 t], exec i s = .next s' →
    (∀ k, k ≠ t → s'.readX k = s.readX k) ∧ s'.pc = s.nextPc ∧
    (s.pc.toNat + 4 < 2 ^ 64 → s'.pc = s.pc + 4#64) ∧ s'.pstate = s.pstate ∧
    (∀ r, s'.reg r = s.reg r) ∧ s'.tlbEmec = s.tlbEmec ∧ s'.mem = s.mem ∧
    (∀ a, Memory.readByte s'.mem a = Memory.readByte s.mem a) ∧
    s'.text = s.text ∧ s'.cfg = s.cfg ∧ s'.env = s.env ∧ s'.inbox = s.inbox

/-- An MSR changes one register or the eight bytes of one slot, and nothing else but the program counter.
For each of the six MSR forms that answers a next state, in a state whose memory is canonical: every general
register, the PSTATE bits, the program text, the configuration, the inputs and the inbox are unchanged, and the
program counter moves on by 4 (past the top of the range it is open, log entry 10). When the name is redirected
to a slot, whose address is Env.NVBase plus the offset (past the top, log entry 11), all four System registers
and the earlier EMEC values are unchanged and every byte outside the eight from the slot's address is unchanged;
otherwise every byte of memory is unchanged, every register but the one the name reaches is unchanged, and the
earlier EMEC values change only when that is SCTLR2_EL2. Rules: R22, R72, R90, R91, R137, R164. -/
def Obligations.WritesChangeOnlyTheirTarget : Prop :=
  ∀ (t : Nat) (s s' : State), ∀ i ∈ [.msrSctlr2El1 t, .msrSctlr2El12 t, .msrSctlr2AliasEl1 t, .msrSctlr2El2 t, .msrSctlr2MaskEl1 t,
      .msrSctlr2MaskEl12 t], exec i s = .next s' →
    Memory.wf s.mem →
    (∀ k, s'.readX k = s.readX k) ∧ s'.pc = s.nextPc ∧
    (s.pc.toNat + 4 < 2 ^ 64 → s'.pc = s.pc + 4#64) ∧ s'.pstate = s.pstate ∧
    s'.text = s.text ∧ s'.cfg = s.cfg ∧ s'.env = s.env ∧ s'.inbox = s.inbox ∧
    (∀ off, s.redirect i.accessor = some off →
      (s.env.NVBase.toNat + off.toNat < 2 ^ 64 → s.nvAddr off = s.env.NVBase + off) ∧
      (∀ r, s'.reg r = s.reg r) ∧ s'.tlbEmec = s.tlbEmec ∧
      ∀ a, a < (s.nvAddr off).toNat ∨ (s.nvAddr off).toNat + 8 ≤ a →
        Memory.readByte s'.mem a = Memory.readByte s.mem a) ∧
    (s.redirect i.accessor = none →
      (∀ a, Memory.readByte s'.mem a = Memory.readByte s.mem a) ∧ s'.mem = s.mem ∧
      (∀ r, r ≠ s.reaches i.accessor → s'.reg r = s.reg r) ∧
      (s.reaches i.accessor ≠ .sctlr2El2 → s'.tlbEmec = s.tlbEmec))

/-- No instruction executed at EL1 changes a stored bit of SCTLR2_EL1 that the effective mask covers.
For every instruction and every state at EL1 with FEAT_SRMASK implemented: if it answers a next state, the
stored bits of SCTLR2_EL1 under the effective mask are as before, whichever name was used; the stored SCTLR2_EL2
is unchanged, and unless the effective mask is zero SCTLR2MASK_EL1 is unchanged too. Rules: R62, R64, R67. -/
def Obligations.MaskedFieldsSurviveEl1 : Prop :=
  ∀ (i : Instr) (s s' : State), s.env.EL = .el1 → s.cfg.FEAT_SRMASK = true → exec i s = .next s' →
    s'.sctlr2El1.stored &&& s.effectiveMask1.1 = s.sctlr2El1.stored &&& s.effectiveMask1.1 ∧
    s'.sctlr2El2 = s.sctlr2El2 ∧ s'.sctlr2MaskEl2 = s.sctlr2MaskEl2 ∧
    (s.effectiveMask1.1 = 0#64 ∨ s'.sctlr2MaskEl1 = s.sctlr2MaskEl1)

/-- Once the effective mask is non-zero, no run of steps at EL1 changes the mask or the fields it covers.
An invariant every step at EL1 keeps, over every number of steps from every state: with FEAT_SRMASK, EL1, no
outside event to come, and a mask written by its own name only since the last synchronisation, the run leaves
the inputs and the configuration as they were and every stored bit of SCTLR2_EL1 under the first effective mask
as it was; and, unless that effective mask is zero, the mask register too. Rules: R62, R64, R67, R165. -/
def Obligations.LockedMaskHoldsForAnEl1Run : Prop :=
  ∀ (k : Nat) (s s' : State), s.env.EL = .el1 → s.cfg.FEAT_SRMASK = true → s.inbox = [] →
    (∀ w ∈ s.sctlr2MaskEl1.pending, w.name = .sctlr2MaskEl1) →
    Host.Core.run Sys2Proof.core k s = .next s' →
    (s.effectiveMask1.1 = 0#64 ∨ s'.sctlr2MaskEl1 = s.sctlr2MaskEl1) ∧ s'.env = s.env ∧ s'.cfg = s.cfg ∧
    s'.sctlr2El1.stored &&& s.effectiveMask1.1 = s.sctlr2El1.stored &&& s.effectiveMask1.1

/-- Eff1 is the function of R39, in the order and with the recursion the rule writes.
For every configuration, input, stored value and field, Eff1 is the chain of R39: absent register, absent field,
Z1, the PACM condition, the two error-reporting fields with their stored siblings, CPTM after the Effective CPTA
and CPTM0 after the Effective CPTA0, else the stored bit. The machine's Effective value is that function of the
stored bits outside the band of D12 and an opaque bit inside it (log entry 13); the band is: the registers and
both fields present, Z1 false, the sibling stored 1 and treated as zero by its own HCRX_EL2 condition, the field
in question not treated as zero, its own stored bit 0 and its ID field 0b0010, so that the two readings differ;
in it R39 gives the field 1 and the sibling 0. Rules: R37, R38, R39, R74, 92_eei_decisions.md D12. -/
def Obligations.Eff1Formula : Prop :=
  (∀ (s : State) (f : Field),
      (siblingBand s.cfg s.env (fieldBit s.sctlr2El1.stored) f = false →
        s.eff1 f = eff1Of s.cfg s.env (fieldBit s.sctlr2El1.stored) f) ∧
      (siblingBand s.cfg s.env (fieldBit s.sctlr2El1.stored) f = true →
        s.eff1 f = Config.siblingOpen s.sctlr2El1.stored s.cfg s.env (f == .EnANERR))) ∧
  (∀ (c : Cfg) (e : Env) (S : Field → Bool) (f : Field),
      (siblingBand c e S f = true ↔ c.FEAT_SCTLR2 = true ∧ c.FEAT_AA64 = true ∧ c.FEAT_ANERR = true ∧
        c.FEAT_ADERR = true ∧ ¬((c.HaveEL3 = true ∧ e.SCR_EL3_SCTLR2En = false) ∨
          (e.EL2Enabled = true ∧ ¬(e.HCRXEnabled = true ∧ e.HCRX_EL2_SCTLR2En = true))) ∧
        e.EL2Enabled = true ∧ e.HCRXEnabled = true ∧
        ((f = .EnANERR ∧ c.ID_ANERR = 0b0010#4 ∧ S .EnADERR = true ∧ S .EnANERR = false ∧
            e.HCRX_EL2_EnSDERR = true ∧ e.HCRX_EL2_EnSNERR = false) ∨
         (f = .EnADERR ∧ c.ID_ADERR = 0b0010#4 ∧ S .EnANERR = true ∧ S .EnADERR = false ∧
            e.HCRX_EL2_EnSNERR = true ∧ e.HCRX_EL2_EnSDERR = false))) ∧
      (siblingBand c e S f = true → eff1Of c e S f = true ∧
        (f = .EnANERR → eff1Of c e S .EnADERR = false) ∧ (f = .EnADERR → eff1Of c e S .EnANERR = false))) ∧
  ∀ (c : Cfg) (e : Env) (v : Word) (f : Field), eff1Of c e (fieldBit v) f =
    (if ¬(c.FEAT_SCTLR2 = true ∧ c.FEAT_AA64 = true) then false
    else if present1 c f = false then false
    else if (c.HaveEL3 = true ∧ e.SCR_EL3_SCTLR2En = false) ∨
        (e.EL2Enabled = true ∧ ¬(e.HCRXEnabled = true ∧ e.HCRX_EL2_SCTLR2En = true)) then false
    else if (f = .EnPACM0 ∨ f = .EnPACM) ∧ e.EL2Enabled = true ∧
        ¬(e.HCRXEnabled = true ∧ e.HCRX_EL2_PACMEn = true) then false
    else if f = .EnANERR then
      (if e.EL2Enabled = true ∧ e.HCRXEnabled = true ∧ e.HCRX_EL2_EnSNERR = true then false
       else if c.FEAT_ADERR = true ∧ c.ID_ANERR = 0b0010#4 ∧ fieldBit v .EnADERR = true then true
       else fieldBit v .EnANERR)
    else if f = .EnADERR then
      (if e.EL2Enabled = true ∧ e.HCRXEnabled = true ∧ e.HCRX_EL2_EnSDERR = true then false
       else if c.FEAT_ANERR = true ∧ c.ID_ADERR = 0b0010#4 ∧ fieldBit v .EnANERR = true then true
       else fieldBit v .EnADERR)
    else if f = .CPTM ∧ eff1Of c e (fieldBit v) .CPTA = false then false
    else if f = .CPTM0 ∧ eff1Of c e (fieldBit v) .CPTA0 = false then false
    else fieldBit v f)

/-- Eff2 is the function of R58, in the order and with the recursion the rule writes.
For every configuration, input, stored value and field, Eff2 is the chain of R58: absent register, EL2 not
enabled, absent field, Z2, the unprivileged fields IGNORED when TGE is 0, the two error-reporting fields with
their stored siblings, CPTM after the Effective CPTA and CPTM0 after the Effective CPTA0, else the stored bit.
The machine's Effective value is that function of the stored bits everywhere, and with EL2 not enabled the 0 of
EnIDCP128 is no trap. Rules: R40, R55, R56, R58. -/
def Obligations.Eff2Formula : Prop :=
  (∀ (s : State) (f : Field), s.eff2 f = eff2Of s.cfg s.env (fieldBit s.sctlr2El2.stored) f ∧
      (s.env.EL2Enabled = false → s.impDef128Trap ≠ some (.el2, 0x14))) ∧
  ∀ (c : Cfg) (e : Env) (v : Word) (f : Field), eff2Of c e (fieldBit v) f =
    (if ¬(c.FEAT_SCTLR2 = true ∧ c.FEAT_AA64 = true) then false
    else if e.EL2Enabled = false then false
    else if present2 c e.EL2InHost f = false then false
    else if c.HaveEL3 = true ∧ e.SCR_EL3_SCTLR2En = false then false
    else if (f = .CPTM0 ∨ f = .CPTA0 ∨ f = .EnPACM0) ∧ e.HCR_EL2_TGE = false then false
    else if f = .EnANERR then
      (if c.FEAT_ADERR = true ∧ c.ID_ANERR = 0b0010#4 ∧ fieldBit v .EnADERR = true then true
       else fieldBit v .EnANERR)
    else if f = .EnADERR then
      (if c.FEAT_ANERR = true ∧ c.ID_ADERR = 0b0010#4 ∧ fieldBit v .EnANERR = true then true
       else fieldBit v .EnADERR)
    else if f = .CPTM ∧ eff2Of c e (fieldBit v) .CPTA = false then false
    else if f = .CPTM0 ∧ eff2Of c e (fieldBit v) .CPTA0 = false then false
    else fieldBit v f)

/-- A closed EL3 enable zeroes every Effective value of both registers, a closed EL2 enable those of SCTLR2_EL1
only.
In every state: when EL3 is implemented and SCR_EL3.SCTLR2En is 0, or EL2 is enabled and the Effective value of
HCRX_EL2.SCTLR2En is 0, the Effective value of every field of SCTLR2_EL1 is 0; when EL3 is implemented and
SCR_EL3.SCTLR2En is 0, that of every field of SCTLR2_EL2 is 0; no HCRX_EL2 input has any part in the fields of
SCTLR2_EL2; and a change of the inputs leaves the stored value of both registers as it was. Rules: R37, R55. -/
def Obligations.ClosedEnablesZeroEveryField : Prop :=
  ∀ (s : State) (f : Field),
    ((s.cfg.HaveEL3 = true ∧ s.env.SCR_EL3_SCTLR2En = false) ∨
      (s.env.EL2Enabled = true ∧ (s.env.HCRXEnabled = false ∨ s.env.HCRX_EL2_SCTLR2En = false)) → s.eff1 f = false) ∧
    (s.cfg.HaveEL3 = true ∧ s.env.SCR_EL3_SCTLR2En = false → s.eff2 f = false) ∧
    (∀ on a b c d g : Bool, ({ s with env := { s.env with
        HCRXEnabled := on, HCRX_EL2_SCTLR2En := a, HCRX_EL2_SRMASKEn := b, HCRX_EL2_PACMEn := c,
        HCRX_EL2_EnSNERR := d, HCRX_EL2_EnSDERR := g } } : State).eff2 f = s.eff2 f) ∧
    ∀ e : Env, (applyEvent (.setEnv e) s).sctlr2El1.stored = s.sctlr2El1.stored ∧
      (applyEvent (.setEnv e) s).sctlr2El2.stored = s.sctlr2El2.stored

/-- Which Effective value governs Pointer Arithmetic, PACM and the 128-bit registers at each level, EL0 included.
In every state: EL0 is governed by SCTLR2_EL2 exactly when the Effective E2H and TGE are both 1, else by
SCTLR2_EL1; at EL0, EL1 and EL2 the checking of Pointer Arithmetic and the effect of PACM are the governing
Effective value, EL3 has no control; PACM sets PSTATE.PACM when enabled and leaves it otherwise (log entry 26);
an EL0 access to an IMPLEMENTATION DEFINED 128-bit register traps with class 0x14 to EL1, or to EL2, exactly
when the field is present and its governing Effective value is 0 (and, for EL2, EL2 is enabled), and otherwise
does not trap; the same 0 disables those registers at its own level (an absent field or a disabled EL2 traps and
disables nothing: log entry 26); a closed EL3 enable turns the trap on. Rules: R26, R28, R30, R31, R32, R47,
R48, R49, R57, R58, R190, R202. -/
def Obligations.GoverningControls : Prop :=
  ∀ (s : State) (f : Field),
    (s.env.HCR_EL2_E2H_eff = true ∧ s.env.HCR_EL2_TGE_eff = true → s.unprivileged f = s.eff2 f) ∧
    (¬(s.env.HCR_EL2_E2H_eff = true ∧ s.env.HCR_EL2_TGE_eff = true) → s.unprivileged f = s.eff1 f) ∧
    (∀ p ∈ [(EL.el0, s.unprivileged .CPTA0, s.unprivileged .CPTM0), (.el1, s.eff1 .CPTA, s.eff1 .CPTM),
        (.el2, s.eff2 .CPTA, s.eff2 .CPTM)],
      s.pointerArithChecked p.1 .addition = some p.2.1 ∧ s.pointerArithChecked p.1 .multiplication = some p.2.2) ∧
    (∀ op, s.pointerArithChecked .el3 op = none) ∧
    (∀ p ∈ [(EL.el0, some (s.unprivileged .EnPACM0)), (.el1, some (s.eff1 .EnPACM)), (.el2, some (s.eff2 .EnPACM)),
        (.el3, none)], s.env.EL = p.1 → s.pacmEnabled = p.2) ∧
    (s.pacmEnabled = some true → s.pacmAfter = some true) ∧
    (s.pacmEnabled = some false → s.pacmAfter = some s.pstate.PACM) ∧
    (s.pacmEnabled = none → s.pacmAfter = none) ∧
    (s.impDef128Trap = some (.el1, 0x14) ↔
      s.cfg.FEAT_SCTLR2 = true ∧ s.cfg.FEAT_AA64 = true ∧ s.cfg.FEAT_SYSREG128 = true ∧
      ¬(s.env.HCR_EL2_E2H_eff = true ∧ s.env.HCR_EL2_TGE_eff = true) ∧ s.eff1 .EnIDCP128 = false) ∧
    (s.impDef128Trap = some (.el2, 0x14) ↔
      s.cfg.FEAT_SCTLR2 = true ∧ s.cfg.FEAT_AA64 = true ∧ s.cfg.FEAT_SYSREG128 = true ∧
      (s.env.HCR_EL2_E2H_eff = true ∧ s.env.HCR_EL2_TGE_eff = true) ∧ s.env.EL2Enabled = true ∧
      s.eff2 .EnIDCP128 = false) ∧
    (s.impDef128Trap = none ∨ s.impDef128Trap = some (.el1, 0x14) ∨ s.impDef128Trap = some (.el2, 0x14)) ∧
    (s.impDef128Disabled .el1 = some true ↔
      s.cfg.FEAT_SCTLR2 = true ∧ s.cfg.FEAT_AA64 = true ∧ s.cfg.FEAT_SYSREG128 = true ∧
      s.eff1 .EnIDCP128 = false) ∧
    (s.impDef128Disabled .el2 = some true ↔
      s.cfg.FEAT_SCTLR2 = true ∧ s.cfg.FEAT_AA64 = true ∧ s.cfg.FEAT_SYSREG128 = true ∧
      s.env.EL2Enabled = true ∧ s.eff2 .EnIDCP128 = false) ∧
    (s.cfg.FEAT_SCTLR2 = true → s.cfg.FEAT_AA64 = true → s.cfg.FEAT_SYSREG128 = true →
      s.cfg.HaveEL3 = true → s.env.SCR_EL3_SCTLR2En = false →
      (¬(s.env.HCR_EL2_E2H_eff = true ∧ s.env.HCR_EL2_TGE_eff = true) → s.impDef128Trap = some (.el1, 0x14)) ∧
      (s.env.HCR_EL2_E2H_eff = true ∧ s.env.HCR_EL2_TGE_eff = true → s.env.EL2Enabled = true →
        s.impDef128Trap = some (.el2, 0x14)))

/-- EASE, EnANERR, EnADERR, NMEA and EMEC: vector, report, masking and MEC follow the governing Effective values.
In every state: the vector of a synchronous External abort taken to EL1 or EL2 is the SError one exactly when
the Effective EASE of that level's register is 1; for the EL1&0 regime by SCTLR2_EL1 and the EL2 regimes by
SCTLR2_EL2, for Normal reads by EnANERR and Device reads by EnADERR, a governing 1 leaves both reports open
whatever the access, a governing 0 reports in the FFR with FEAT_SVE for the SVE part and otherwise synchronously
but for implementation-specific circumstances (an absent field, register or EL2 is answered as a governing 0:
the model's choice, log entries 26 and 28); NMEA = 1 takes every masking away at its level; NMEA = 0 leaves
PSTATE.A at EL1, PSTATE.A or {AMO, TGE} = {0, 0} at EL2 (the model's choice, log entry 30); MEC is enabled by
the Effective EMEC. Rules: R33, R34, R35, R50, R51, R52, R54, R191, R192, R193, R194, R195. -/
def Obligations.ErrorReportingControls : Prop :=
  ∀ s : State,
    s.abortVector .el1 = some (if s.eff1 .EASE = true then .sError else .synchronous) ∧
    s.abortVector .el2 = some (if s.eff2 .EASE = true then .sError else .synchronous) ∧
    (∀ p ∈ [(Regime.el10, MemType.normal, s.eff1 .EnANERR), (.el10, .device, s.eff1 .EnADERR),
        (.el2, .normal, s.eff2 .EnANERR), (.el2, .device, s.eff2 .EnADERR)], ∀ sve : Bool,
      (p.2.2 = true → s.abortReport p.1 p.2.1 sve = .syncDataAbortOrSError) ∧
      (p.2.2 = false → s.cfg.FEAT_SVE = true → sve = true → s.abortReport p.1 p.2.1 sve = .inFFR) ∧
      (p.2.2 = false → s.cfg.FEAT_SVE = false ∨ sve = false →
        s.abortReport p.1 p.2.1 sve = .syncDataAbortUnlessImplSpecific)) ∧
    (s.eff1 .NMEA = true → s.sErrorMasked .el1 = some false) ∧
    (s.eff1 .NMEA = false → s.sErrorMasked .el1 = some s.pstate.A) ∧
    (s.eff2 .NMEA = true → s.sErrorMasked .el2 = some false) ∧
    (s.eff2 .NMEA = false → s.sErrorMasked .el2 =
      some (s.pstate.A || (!s.env.HCR_EL2_AMO && !s.env.HCR_EL2_TGE))) ∧
    s.mecEnabled = s.eff2 .EMEC

/-- A Warm reset zeroes the present fields of the highest level's registers and leaves memory alone.
For every state and every inputs, each register under its own presence: after a Warm reset, with EL1 the highest
level every present field of SCTLR2_EL1 (with FEAT_SCTLR2 and FEAT_AA64) and of SCTLR2MASK_EL1 (with FEAT_SRMASK
and FEAT_AA64, R61; without FEAT_SCTLR2 too, the model's choice, log entry 29) is 0, and every Effective value
of SCTLR2_EL1 is 0; with EL2 the highest level every field of SCTLR2_EL2 present by its feature is 0; memory,
program text and configuration are unchanged, the inputs are the given ones, and no register that exists has an
unsynchronised write. That the program counter is then a multiple of 4 is the model's choice (log entry 24),
since R84 leaves pc UNKNOWN. Rules: R61, R80, R81, R83, R220, R221, R225. -/
def Obligations.WarmResetValues : Prop :=
  ∀ (s : State) (e : Env),
    (s.cfg.FEAT_SCTLR2 = true → s.cfg.FEAT_AA64 = true →
      (s.cfg.HaveEL3 = false → s.cfg.HaveEL2 = false →
        ∀ f, present1 s.cfg f = true → fieldBit (s.warmReset e).sctlr2El1.stored f = false) ∧
      (s.cfg.HaveEL3 = false → s.cfg.HaveEL2 = true →
        ∀ f, present2 s.cfg true f = true → fieldBit (s.warmReset e).sctlr2El2.stored f = false) ∧
      (s.warmReset e).sctlr2El1.pending = [] ∧ (s.warmReset e).sctlr2El2.pending = []) ∧
    (s.cfg.FEAT_SRMASK = true → s.cfg.FEAT_AA64 = true →
      (s.cfg.HaveEL3 = false → s.cfg.HaveEL2 = false →
        ∀ f, present1 s.cfg f = true → fieldBit (s.warmReset e).sctlr2MaskEl1.stored f = false) ∧
      (s.warmReset e).sctlr2MaskEl1.pending = [] ∧ (s.warmReset e).sctlr2MaskEl2.pending = []) ∧
    (s.cfg.HaveEL3 = false → s.cfg.HaveEL2 = false → ∀ f, (s.warmReset e).eff1 f = false) ∧
    (s.warmReset e).mem = s.mem ∧ (s.warmReset e).text = s.text ∧ (s.warmReset e).cfg = s.cfg ∧
    (s.warmReset e).env = e ∧ (s.warmReset e).pcAligned = true

/-- No step changes a byte of the program text, where it lies, or the configuration.
For every state whose memory is in canonical form: if a step answers a next state, the configuration and the
program text's place are as before and every byte of the program text reads as before, whatever instruction or
outside event the step was. Rules: R104, R220, R225, R4. -/
def Obligations.ProgramTextNeverChanges : Prop :=
  ∀ s s' : State, Memory.wf s.mem → step s = .next s' →
    s'.cfg = s.cfg ∧ s'.text = s.text ∧
    ∀ a, s.text.contains a = true → Memory.readByte s'.mem a = Memory.readByte s.mem a

/-- Every step keeps memory canonical, the program counter aligned, and each register written only by names that
reach it.
For every state that meets the invariant: if a step, instruction or outside event, answers a next state, that
state meets it too. The invariant: memory in its canonical form, pc[1:0] = 0, and every unsynchronised write of
a register by a name the tables of R137 and R164 let reach it. The model's choices in it: the canonical form
(log entry 7), pc[1:0] = 0 past the top of the range (log entry 10) and after a Warm reset (log entry 24), a
slot past the top (log entry 11). Rules: R72, R90, R94, R137, R164. -/
def Obligations.StepKeepsInvariant : Prop :=
  ∀ s s' : State, s.Inv → step s = .next s' → s'.Inv

/-- The state after reset meets the invariant.
State.reset has memory in canonical form, an aligned program counter and no unsynchronised write. Its zero
values are the model's choice (log entry 1). Rules: R220, R231. -/
def Obligations.ResetMeetsInvariant : Prop :=
  State.reset.Inv
end

