-- ==== Sys2Proof/Laws/State.lean ====
section
/-!
SUPPORT. One lemma for each field under each update of the state, so that no proof unfolds a record update.
-/

namespace Sys2Proof.Machine

/-! ### `State.advance` -/

@[simp] theorem advance_cfg (s : State) : s.advance.cfg = s.cfg := rfl
@[simp] theorem advance_env (s : State) : s.advance.env = s.env := rfl
@[simp] theorem advance_inbox (s : State) : s.advance.inbox = s.inbox := rfl
@[simp] theorem advance_x (s : State) : s.advance.x = s.x := rfl
@[simp] theorem advance_pc (s : State) : s.advance.pc = s.nextPc := rfl
@[simp] theorem advance_pstate (s : State) : s.advance.pstate = s.pstate := rfl
@[simp] theorem advance_sctlr2El1 (s : State) : s.advance.sctlr2El1 = s.sctlr2El1 := rfl
@[simp] theorem advance_sctlr2El2 (s : State) : s.advance.sctlr2El2 = s.sctlr2El2 := rfl
@[simp] theorem advance_sctlr2MaskEl1 (s : State) : s.advance.sctlr2MaskEl1 = s.sctlr2MaskEl1 := rfl
@[simp] theorem advance_sctlr2MaskEl2 (s : State) : s.advance.sctlr2MaskEl2 = s.sctlr2MaskEl2 := rfl
@[simp] theorem advance_tlbEmec (s : State) : s.advance.tlbEmec = s.tlbEmec := rfl
@[simp] theorem advance_mem (s : State) : s.advance.mem = s.mem := rfl
@[simp] theorem advance_text (s : State) : s.advance.text = s.text := rfl
@[simp] theorem advance_draws (s : State) : s.advance.draws = s.draws := rfl

@[simp] theorem advance_reg (s : State) (r : SysRegId) : s.advance.reg r = s.reg r := by cases r <;> rfl

@[simp] theorem advance_readX (s : State) (t : Nat) : s.advance.readX t = s.readX t := rfl

/-! ### `State.writeX` -/

@[simp] theorem writeX_cfg (s : State) (t : Nat) (v : Word) : (s.writeX t v).cfg = s.cfg := by
  unfold State.writeX; split <;> rfl
@[simp] theorem writeX_env (s : State) (t : Nat) (v : Word) : (s.writeX t v).env = s.env := by
  unfold State.writeX; split <;> rfl
@[simp] theorem writeX_inbox (s : State) (t : Nat) (v : Word) : (s.writeX t v).inbox = s.inbox := by
  unfold State.writeX; split <;> rfl
@[simp] theorem writeX_pc (s : State) (t : Nat) (v : Word) : (s.writeX t v).pc = s.pc := by
  unfold State.writeX; split <;> rfl
@[simp] theorem writeX_pstate (s : State) (t : Nat) (v : Word) : (s.writeX t v).pstate = s.pstate := by
  unfold State.writeX; split <;> rfl
@[simp] theorem writeX_sctlr2El1 (s : State) (t : Nat) (v : Word) : (s.writeX t v).sctlr2El1 = s.sctlr2El1 := by
  unfold State.writeX; split <;> rfl
@[simp] theorem writeX_sctlr2El2 (s : State) (t : Nat) (v : Word) : (s.writeX t v).sctlr2El2 = s.sctlr2El2 := by
  unfold State.writeX; split <;> rfl
@[simp] theorem writeX_sctlr2MaskEl1 (s : State) (t : Nat) (v : Word) : (s.writeX t v).sctlr2MaskEl1 = s.sctlr2MaskEl1 := by
  unfold State.writeX; split <;> rfl
@[simp] theorem writeX_sctlr2MaskEl2 (s : State) (t : Nat) (v : Word) : (s.writeX t v).sctlr2MaskEl2 = s.sctlr2MaskEl2 := by
  unfold State.writeX; split <;> rfl
@[simp] theorem writeX_tlbEmec (s : State) (t : Nat) (v : Word) : (s.writeX t v).tlbEmec = s.tlbEmec := by
  unfold State.writeX; split <;> rfl
@[simp] theorem writeX_mem (s : State) (t : Nat) (v : Word) : (s.writeX t v).mem = s.mem := by
  unfold State.writeX; split <;> rfl
@[simp] theorem writeX_text (s : State) (t : Nat) (v : Word) : (s.writeX t v).text = s.text := by
  unfold State.writeX; split <;> rfl
@[simp] theorem writeX_draws (s : State) (t : Nat) (v : Word) : (s.writeX t v).draws = s.draws := by
  unfold State.writeX; split <;> rfl

@[simp] theorem writeX_reg (s : State) (t : Nat) (v : Word) (r : SysRegId) : (s.writeX t v).reg r = s.reg r := by
  cases r <;> simp [State.reg]

@[simp] theorem writeX_nextPc (s : State) (t : Nat) (v : Word) : (s.writeX t v).nextPc = s.nextPc := by
  simp [State.nextPc]

/-! ### `State.pushWrite` -/

@[simp] theorem pushWrite_cfg (s : State) (r : SysRegId) (w : PendingWrite) :
    (s.pushWrite r w).cfg = s.cfg := by cases r <;> rfl
@[simp] theorem pushWrite_env (s : State) (r : SysRegId) (w : PendingWrite) :
    (s.pushWrite r w).env = s.env := by cases r <;> rfl
@[simp] theorem pushWrite_inbox (s : State) (r : SysRegId) (w : PendingWrite) :
    (s.pushWrite r w).inbox = s.inbox := by cases r <;> rfl
@[simp] theorem pushWrite_x (s : State) (r : SysRegId) (w : PendingWrite) :
    (s.pushWrite r w).x = s.x := by cases r <;> rfl
@[simp] theorem pushWrite_pc (s : State) (r : SysRegId) (w : PendingWrite) :
    (s.pushWrite r w).pc = s.pc := by cases r <;> rfl
@[simp] theorem pushWrite_pstate (s : State) (r : SysRegId) (w : PendingWrite) :
    (s.pushWrite r w).pstate = s.pstate := by cases r <;> rfl
@[simp] theorem pushWrite_mem (s : State) (r : SysRegId) (w : PendingWrite) :
    (s.pushWrite r w).mem = s.mem := by cases r <;> rfl
@[simp] theorem pushWrite_text (s : State) (r : SysRegId) (w : PendingWrite) :
    (s.pushWrite r w).text = s.text := by cases r <;> rfl
@[simp] theorem pushWrite_draws (s : State) (r : SysRegId) (w : PendingWrite) :
    (s.pushWrite r w).draws = s.draws := by cases r <;> rfl

@[simp] theorem pushWrite_readX (s : State) (r : SysRegId) (w : PendingWrite) (t : Nat) :
    (s.pushWrite r w).readX t = s.readX t := by simp [State.readX]

@[simp] theorem pushWrite_nextPc (s : State) (r : SysRegId) (w : PendingWrite) :
    (s.pushWrite r w).nextPc = s.nextPc := by simp [State.nextPc]

/-- The register written takes the write at the end of its unsynchronised writes. -/
@[simp] theorem pushWrite_reg_self (s : State) (r : SysRegId) (w : PendingWrite) :
    (s.pushWrite r w).reg r = ⟨(s.reg r).base, (s.reg r).pending ++ [w]⟩ := by cases r <;> rfl

/-- Every other register keeps its value. -/
theorem pushWrite_reg_ne (s : State) (r q : SysRegId) (w : PendingWrite) (h : q ≠ r) :
    (s.pushWrite r w).reg q = s.reg q := by
  cases r <;> cases q <;> first | rfl | exact absurd rfl h

/-- A write of `SCTLR2_EL2` leaves every EMEC that may govern before it where a TLB may hold it. -/
@[simp] theorem pushWrite_tlbEmec_self (s : State) (w : PendingWrite) :
    (s.pushWrite .sctlr2El2 w).tlbEmec = s.emecCopies := rfl

/-- Only a write of `SCTLR2_EL2` leaves an earlier EMEC where a TLB may hold it. -/
theorem pushWrite_tlbEmec_ne (s : State) (r : SysRegId) (w : PendingWrite) (h : r ≠ .sctlr2El2) :
    (s.pushWrite r w).tlbEmec = s.tlbEmec := by
  cases r <;> first | rfl | exact absurd rfl h

/-! ### `applyEvent` -/

@[simp] theorem applyEvent_cfg (ev : Event) (s : State) : (applyEvent ev s).cfg = s.cfg := by
  cases ev <;> rfl
@[simp] theorem applyEvent_mem (ev : Event) (s : State) : (applyEvent ev s).mem = s.mem := by
  cases ev <;> rfl
@[simp] theorem applyEvent_text (ev : Event) (s : State) : (applyEvent ev s).text = s.text := by
  cases ev <;> rfl
@[simp] theorem syncAll_cfg (s : State) : s.syncAll.cfg = s.cfg := rfl
@[simp] theorem syncAll_env (s : State) : s.syncAll.env = s.env := rfl
@[simp] theorem syncAll_tlbEmec (s : State) : s.syncAll.tlbEmec = s.emecCopies := rfl
@[simp] theorem warmReset_tlbEmec (s : State) (e : Env) : (s.warmReset e).tlbEmec = s.emecCopies := rfl
@[simp] theorem applyEvent_inbox (ev : Event) (s : State) : (applyEvent ev s).inbox = s.inbox := by
  cases ev <;> rfl

end Sys2Proof.Machine
end

