-- ==== Sys2Proof/Laws/Registers.lean ====
section
/-!
SUPPORT. The general registers, the program counter, and the address of an NVMem slot.
-/

namespace Sys2Proof.Machine

/-- A register reads what was written to it, unless it is the zero register (rule R70). -/
theorem readX_writeX_self (s : State) (t : Nat) (v : Word) (h : t < 31) : (s.writeX t v).readX t = v := by
  simp [State.readX, State.writeX, h]

/-- Every other register keeps its value (rule R70). -/
theorem readX_writeX_ne (s : State) (t k : Nat) (v : Word) (h : k ≠ t) :
    (s.writeX t v).readX k = s.readX k := by
  unfold State.writeX State.readX
  by_cases ht : t < 31 <;> by_cases hk : k < 31 <;> simp [ht, hk, Ne.symm h]

/-- The zero register reads as zero (rule R70). -/
@[simp] theorem readX_zero (s : State) : s.readX 31 = 0#64 := rfl

/-- A write of the zero register changes nothing (rule R70). -/
@[simp] theorem writeX_zero (s : State) (v : Word) : s.writeX 31 v = s := rfl

/-- `writeX` is the update of the register file that the statements write. -/
theorem writeX_eq (s : State) (t : Nat) (v : Word) : s.writeX t v = { s with x := setX s.x t v } := by
  unfold State.writeX setX; split <;> rfl

/-- Below the top of the address range the program counter moves on by 4 (rule R72). -/
theorem nextPc_of_lt (s : State) (h : s.pc.toNat + 4 < 2 ^ 64) : s.nextPc = s.pc + 4#64 := if_pos h

/-- An aligned program counter stays aligned. -/
theorem nextPc_aligned (s : State) (h : s.pcAligned = true) : s.nextPc.extractLsb' 0 2 = 0#2 := by
  have h' : s.pc.extractLsb' 0 2 = 0#2 := by simpa [State.pcAligned] using h
  unfold State.nextPc
  split
  · have h2 : s.pc.toNat % 4 = 0 := by simpa [BitVec.toNat_eq] using congrArg BitVec.toNat h'
    apply BitVec.eq_of_toNat_eq
    simp [BitVec.toNat_add]
    omega
  · ext i hi
    simp only [BitVec.getElem_extractLsb', BitVec.getLsbD_append]
    simp
    omega

/-- The address of a slot over an aligned base is a multiple of 8, so the slot ends below 2^64 (rule R94). -/
theorem nvAddr_slot (s : State) (off : Word) (h : s.nvAligned = true) (ho : off.toNat % 8 = 0) :
    (s.nvAddr off).toNat % 8 = 0 ∧ (s.nvAddr off).toNat + 8 ≤ 2 ^ 64 := by
  have h' : s.env.NVBase.extractLsb' 0 3 = 0#3 := by simpa [State.nvAligned] using h
  have hb : s.env.NVBase.toNat % 8 = 0 := by simpa [BitVec.toNat_eq] using congrArg BitVec.toNat h'
  have hlt := (s.nvAddr off).isLt
  have hmod : (s.nvAddr off).toNat % 8 = 0 := by
    unfold State.nvAddr
    split
    · rename_i hsum
      rw [BitVec.toNat_add, Nat.mod_eq_of_lt hsum]; omega
    · change (Config.nvSlotPastTop s.env.NVBase off ++ 0#3 : BitVec (61 + 3)).toNat % 8 = 0
      rw [BitVec.toNat_append]
      simp [Nat.shiftLeft_eq]
  exact ⟨hmod, by omega⟩

end Sys2Proof.Machine
end

