-- ==== Sys2Proof/Laws/SysRegs.lean ====
section
/-!
SUPPORT. The masked write, the orders of unsynchronised writes, and what an access or a synchronisation finds.
-/

namespace Sys2Proof.Machine

/-- Bit by bit (rule R64): the old bit under the mask, the new bit elsewhere. -/
theorem getLsbD_maskedWrite (old new mask : Word) (i : Nat) (hi : i < 64) :
    (maskedWrite old new mask).getLsbD i = if mask.getLsbD i then old.getLsbD i else new.getLsbD i := by
  simp only [maskedWrite, BitVec.getLsbD_or, BitVec.getLsbD_and, BitVec.getLsbD_not, hi, decide_true, Bool.true_and]
  cases mask.getLsbD i <;> simp

/-- A mask of zero lets the whole value through. -/
@[simp] theorem maskedWrite_zero (old new : Word) : maskedWrite old new 0#64 = new := by
  apply BitVec.eq_of_getLsbD_eq
  intro i hi
  simp [getLsbD_maskedWrite old new 0#64 i hi]

/-- The masked bits keep their old value. -/
theorem maskedWrite_and_mask (old new mask : Word) : maskedWrite old new mask &&& mask = old &&& mask := by
  ext i hi
  simp only [maskedWrite, BitVec.getElem_and, BitVec.getElem_or, BitVec.getElem_not]
  cases mask[i] <;> simp

/-- The stored value after a write is the masked write of the stored value before (rules R22, R64). -/
theorem stored_push (b : Word) (ws : List PendingWrite) (w : PendingWrite) :
    SysReg.stored ⟨b, ws ++ [w]⟩ = maskedWrite (SysReg.stored ⟨b, ws⟩) w.value w.mask := by
  simp [SysReg.stored, replay, PendingWrite.apply]

/-- With nothing unsynchronised the stored value is the base. -/
@[simp] theorem stored_settled (b : Word) : SysReg.stored ⟨b, []⟩ = b := rfl

/-- An access finds the stored value when no other name has an unsynchronised write (rule R98 (a)). -/
theorem view_of_own (r : SysReg) (n : AccName) (d : Nat) (h : ∀ w ∈ r.pending, w.name = n) :
    r.view n d = (r.stored, d) := by
  have : r.pending.all (fun w => w.name == n) = true := by simpa using h
  simp [SysReg.view, this]

/-- A later write may always come last. -/
theorem append_mem_insertions (w : PendingWrite) (ws : List PendingWrite) : ws ++ [w] ∈ insertions w ws := by
  induction ws with
  | nil => simp [insertions]
  | cons p ps ih => simp only [insertions, List.mem_append, List.mem_map]; exact .inr ⟨_, ih, rfl⟩

/-- An insertion only adds the write. -/
theorem perm_of_mem_insertions (w : PendingWrite) (ws o : List PendingWrite) (h : o ∈ insertions w ws) :
    o.Perm (w :: ws) := by
  induction ws generalizing o with
  | nil => simp [insertions] at h; simp [h]
  | cons p ps ih =>
    simp only [insertions, List.mem_append, List.mem_map] at h
    rcases h with h | ⟨o', ho', rfl⟩
    · split at h
      · simp at h
      · simp at h; simp [h]
    · exact ((ih o' ho').cons p).trans (List.Perm.swap _ _ _)

/-- One more write is inserted into every order of the earlier ones. -/
theorem orders_append (ws : List PendingWrite) (w : PendingWrite) :
    orders (ws ++ [w]) = (orders ws).flatMap (insertions w) := by simp [orders]

/-- Program order is one of the orders. -/
theorem self_mem_orders (ws : List PendingWrite) : ws ∈ orders ws := by
  induction ws using List.reverseRecOn with
  | nil => simp [orders]
  | append_singleton ws w ih =>
    rw [orders_append, List.mem_flatMap]
    exact ⟨ws, ih, append_mem_insertions w ws⟩

/-- Every order performs the same writes. -/
theorem perm_of_mem_orders (ws o : List PendingWrite) (h : o ∈ orders ws) : o.Perm ws := by
  induction ws using List.reverseRecOn generalizing o with
  | nil => simp [orders] at h; simp [h]
  | append_singleton ws w ih =>
    rw [orders_append, List.mem_flatMap] at h
    obtain ⟨o', ho', ho⟩ := h
    exact (perm_of_mem_insertions w o' o ho).trans
      (((ih o' ho').cons w).trans (List.perm_append_singleton w ws).symm)

/-- All of an order is one of its cuts. -/
theorem self_mem_cuts (n : AccName) (o : List PendingWrite) : o ∈ cuts n o := by
  induction o with
  | nil => simp [cuts]
  | cons p ps ih => simp only [cuts, List.mem_append, List.mem_map]; exact .inr ⟨_, ih, rfl⟩

/-- A cut is a beginning of its order. -/
theorem isPrefix_of_mem_cuts (n : AccName) (o c : List PendingWrite) (h : c ∈ cuts n o) : c <+: o := by
  induction o generalizing c with
  | nil => simp [cuts] at h; simp [h]
  | cons p ps ih =>
    simp only [cuts, List.mem_append, List.mem_map] at h
    rcases h with h | ⟨c', hc', rfl⟩
    · split at h
      · simp at h
      · simp at h; simp [h]
    · exact (List.prefix_cons_inj p).2 (ih c' hc')

/-- The stored value is a read candidate of every name. -/
theorem stored_mem_readCandidates (r : SysReg) (n : AccName) : r.stored ∈ r.readCandidates n := by
  simp only [SysReg.readCandidates, List.mem_map, List.mem_flatMap]
  exact ⟨r.pending, ⟨_, self_mem_orders _, self_mem_cuts n _⟩, rfl⟩

/-- The stored value is what a synchronisation may leave. -/
theorem stored_mem_settleCandidates (r : SysReg) : r.stored ∈ r.settleCandidates :=
  List.mem_map.2 ⟨_, self_mem_orders _, rfl⟩

/-- The base is a value a mechanism may find. -/
theorem base_mem_visible (r : SysReg) : r.base ∈ r.visible := by
  simp only [SysReg.visible, List.mem_map, List.mem_flatMap]
  exact ⟨[], ⟨_, self_mem_orders _, by simp⟩, rfl⟩

/-- The stored value is a value a mechanism may find. -/
theorem stored_mem_visible (r : SysReg) : r.stored ∈ r.visible := by
  simp only [SysReg.visible, List.mem_map, List.mem_flatMap]
  exact ⟨r.pending, ⟨_, self_mem_orders _, by simp⟩, rfl⟩

/-- With nothing unsynchronised a mechanism finds the stored value only. -/
theorem visible_settled (b : Word) : SysReg.visible ⟨b, []⟩ = [b] := rfl

/-- With one unsynchronised write a mechanism finds the value before it or after it (rule R98 (c)). -/
theorem visible_one (b : Word) (w : PendingWrite) : SysReg.visible ⟨b, [w]⟩ = [b, maskedWrite b w.value w.mask] := rfl

theorem mem_insertBits (vs : List Word) (l : List Bool) (b : Bool) :
    b ∈ vs.foldl (fun l v => l.insert (fieldBit v .EMEC)) l ↔ b ∈ l ∨ ∃ v ∈ vs, fieldBit v .EMEC = b := by
  induction vs generalizing l with
  | nil => simp
  | cons v vs ih =>
    rw [List.foldl_cons, ih, List.mem_insert_iff]
    simp only [List.mem_cons, exists_eq_or_imp]
    tauto

/-- What a TLB may hold: what it held, and every EMEC that may govern (rules R76 (a), R100). -/
theorem mem_emecCopies (s : State) (b : Bool) :
    b ∈ s.emecCopies ↔ b ∈ s.tlbEmec ∨ ∃ v ∈ s.sctlr2El2.visible, fieldBit v .EMEC = b := mem_insertBits _ _ _

/-- A choice is one of the candidates. -/
theorem choose_mem (cands : List Word) (d : Word) (n : Nat) (h : d ∈ cands) : choose cands d n ∈ cands := by
  have hpos : 0 < cands.length := List.length_pos_of_mem h
  have hlt : Config.draw n % cands.length < cands.length := Nat.mod_lt _ hpos
  rw [choose, List.getD_eq_getElem _ _ hlt]
  exact List.getElem_mem hlt

/-- What an access finds is one of the values rule R95 allows. -/
theorem view_mem_readCandidates (r : SysReg) (n : AccName) (d : Nat) : (r.view n d).1 ∈ r.readCandidates n := by
  unfold SysReg.view
  split
  · exact stored_mem_readCandidates r n
  · exact choose_mem _ _ _ (stored_mem_readCandidates r n)

/-- A synchronisation leaves one of the values rule R95 allows, and nothing unsynchronised. -/
theorem settle_spec (r : SysReg) (d : Nat) :
    (r.settle d).1.pending = [] ∧ (r.settle d).1.stored ∈ r.settleCandidates := by
  unfold SysReg.settle
  split
  · exact ⟨rfl, stored_mem_settleCandidates r⟩
  · exact ⟨rfl, choose_mem _ _ _ (stored_mem_settleCandidates r)⟩

/-- Nothing is unsynchronised after an explicit synchronisation. -/
theorem syncAll_pending (s : State) (r : SysRegId) : ((s.syncAll).reg r).pending = [] := by
  cases r <;> exact (settle_spec _ _).1

/-- A Warm reset leaves a register alone or leaves nothing unsynchronised. -/
theorem resetReg_pending (p : Bool) (z v : Word) (r : SysReg) :
    resetReg p z v r = r ∨ (resetReg p z v r).pending = [] := by
  unfold resetReg; cases p <;> simp

end Sys2Proof.Machine
end

