-- ==== Sys2Proof/Laws/Access.lean ====
section
/-!
SUPPORT. For each shared operation of the accessors, what it can answer, said once.
-/

namespace Sys2Proof.Machine

/-- `byLevel` answers a next state only from the branch of the current level, never from EL0. -/
theorem byLevel_next {p : Bool} {s s' : State} {a b c : Out} (h : byLevel p s a b c = .next s') :
    p = true ∧ ((s.env.EL = .el1 ∧ a = .next s') ∨ (s.env.EL = .el2 ∧ b = .next s') ∨
      (s.env.EL = .el3 ∧ c = .next s')) := by
  unfold byLevel raiseUndefined at h
  split at h
  · cases h
  · rename_i hp
    refine ⟨by simpa using hp, ?_⟩
    split at h
    · cases h
    · rename_i he; exact .inl ⟨he, h⟩
    · rename_i he; exact .inr (.inl ⟨he, h⟩)
    · rename_i he; exact .inr (.inr ⟨he, h⟩)

/-- Class 7 passes exactly when the SCR_EL3 enable allows. -/
theorem el3Gate_next {i : Instr} {s s' : State} {en : Bool} {k : Out} (h : el3Gate i s en k = .next s') :
    El3Allows s en ∧ k = .next s' := by
  unfold el3Gate at h
  split at h
  · split at h <;> simp [raiseUndefined, raiseSystemAccessTrap] at h
  · rename_i hc; exact ⟨fun h3 => by simpa [h3] using hc, h⟩

/-- Classes 3 and 7 pass exactly when the SCR_EL3 enable allows. -/
theorem el2Gate_next {i : Instr} {s s' : State} {en : Bool} {k : Out} (h : el2Gate i s en k = .next s') :
    El3Allows s en ∧ k = .next s' := by
  unfold el2Gate at h
  split at h
  · simp [raiseUndefined] at h
  · exact el3Gate_next h

/-- Classes 3 to 7 pass exactly when the controls of EL2 and EL3 allow. -/
theorem el1Gate_next {i : Instr} {s s' : State} {en tv fg hc : Bool} {k : Out}
    (h : el1Gate i s en tv fg hc k = .next s') :
    El3Allows s en ∧ El2Allows s tv (fg = true) hc ∧ k = .next s' := by
  unfold el1Gate at h
  split at h
  · simp [raiseUndefined] at h
  split at h
  · simp [raiseSystemAccessTrap] at h
  split at h
  · simp [raiseSystemAccessTrap] at h
  split at h
  · simp [raiseSystemAccessTrap] at h
  rename_i h1 h2 h3 h4
  refine ⟨(el3Gate_next h).1, fun he => ?_, (el3Gate_next h).2⟩
  simp only [he, Bool.true_and, Bool.not_eq_true, Bool.or_eq_false_iff, Bool.not_eq_eq_eq_not, Bool.not_false] at h2 h3 h4
  exact ⟨h2, by simp [h3], h4.1, h4.2⟩

/-- An open class 7 goes on. -/
theorem el3Gate_open (i : Instr) (s : State) (en : Bool) (k : Out) (h : El3Allows s en) : el3Gate i s en k = k := by
  unfold el3Gate El3Allows at *
  cases h3 : s.cfg.HaveEL3 <;> simp_all

/-- Open classes 3 and 7 go on. -/
theorem el2Gate_open (i : Instr) (s : State) (en : Bool) (k : Out) (h : El3Allows s en) : el2Gate i s en k = k := by
  have := el3Gate_open i s en k h
  unfold el2Gate
  unfold El3Allows at h
  cases h3 : s.cfg.HaveEL3 <;> simp_all

/-- Open classes 3 to 7 go on. -/
theorem el1Gate_open (i : Instr) (s : State) (en tv fg hc : Bool) (k : Out) (h : El3Allows s en)
    (h2 : El2Allows s tv (fg = true) hc) : el1Gate i s en tv fg hc k = k := by
  have h3 := el3Gate_open i s en k h
  unfold el1Gate
  unfold El3Allows at h
  unfold El2Allows at h2
  cases he : s.env.EL2Enabled
  · cases h3' : s.cfg.HaveEL3 <;> simp_all
  · obtain ⟨rfl, hf, hx, rfl⟩ := h2 he
    cases h3' : s.cfg.HaveEL3 <;> simp_all

/-! ### Every answer of the checks -/

/-- `byLevel` answers UNDEFINED, or the branch of the current Exception level. -/
theorem byLevel_cases {p : Bool} {s : State} {a b c o : Out} (h : byLevel p s a b c = o) :
    o = .fault .undefined ∨ (p = true ∧
      ((s.env.EL = .el1 ∧ a = o) ∨ (s.env.EL = .el2 ∧ b = o) ∨ (s.env.EL = .el3 ∧ c = o))) := by
  subst h
  unfold byLevel raiseUndefined
  cases p <;> simp
  cases s.env.EL <;> simp

/-- Class 7 answers UNDEFINED, a trap to EL3, or goes on. -/
theorem el3Gate_cases {i : Instr} {s : State} {en : Bool} {k o : Out} (h : el3Gate i s en k = o) :
    (s.cfg.HaveEL3 = true ∧ (o = .fault .undefined ∨ o = .fault (.systemAccessTrap .el3 0x18 (encode i)))) ∨
      k = o := by
  subst h
  unfold el3Gate raiseUndefined raiseSystemAccessTrap
  cases s.cfg.HaveEL3 <;> cases en <;> cases s.env.SDDUndef <;> simp

/-- Classes 3 and 7 answer UNDEFINED, a trap to EL3, or go on. -/
theorem el2Gate_cases {i : Instr} {s : State} {en : Bool} {k o : Out} (h : el2Gate i s en k = o) :
    (s.cfg.HaveEL3 = true ∧ (o = .fault .undefined ∨ o = .fault (.systemAccessTrap .el3 0x18 (encode i)))) ∨
      k = o := by
  unfold el2Gate raiseUndefined at h
  split at h
  · rename_i hc; exact .inl ⟨by simp_all, .inl h.symm⟩
  · exact el3Gate_cases h

/-- Classes 3 to 7 answer UNDEFINED, a trap to EL2 or to EL3, or go on. -/
theorem el1Gate_cases {i : Instr} {s : State} {en tv fg hc : Bool} {k o : Out}
    (h : el1Gate i s en tv fg hc k = o) :
    (s.env.EL2Enabled = true ∧ o = .fault (.systemAccessTrap .el2 0x18 (encode i))) ∨
    (s.cfg.HaveEL3 = true ∧ (o = .fault .undefined ∨ o = .fault (.systemAccessTrap .el3 0x18 (encode i)))) ∨
      k = o := by
  unfold el1Gate raiseUndefined raiseSystemAccessTrap at h
  split at h
  · rename_i hc; exact .inr (.inl ⟨by simp_all, .inl h.symm⟩)
  split at h
  · rename_i hc; exact .inl ⟨by simp_all, h.symm⟩
  split at h
  · rename_i hc; exact .inl ⟨by simp_all, h.symm⟩
  split at h
  · rename_i hc; exact .inl ⟨by simp_all, h.symm⟩
  exact .inr (el3Gate_cases h)

/-- Nested virtualisation answers a trap to EL2 or UNDEFINED. -/
theorem nvTrap_cases (i : Instr) (s : State) :
    nvTrap i s = .fault (.systemAccessTrap .el2 0x18 (encode i)) ∨ nvTrap i s = .fault .undefined := by
  unfold nvTrap raiseUndefined raiseSystemAccessTrap; split <;> simp

/-- The FEAT_FGT clause, as the statements write it. -/
theorem fgtClause_iff (s : State) (b : Bool) : fgtClause s b = true ↔ FgtTraps s b := by
  simp [fgtClause, FgtTraps, and_assoc]

/-- The FEAT_FGT2 clause, as the statements write it. -/
theorem fgt2Clause_iff (s : State) (b : Bool) : fgt2Clause s b = true ↔ Fgt2Traps s b := by
  simp [fgt2Clause, Fgt2Traps]

/-- An NVMem load, as the statements write it. -/
theorem nvLoad_eq (t : Nat) (off : Word) (s : State) : nvLoad t off s = s.loadOutcome off t := by
  unfold nvLoad State.loadOutcome State.afterLoad
  rw [writeX_eq]
  cases s.nvAligned <;> simp [State.advance, State.nextPc]

/-- An NVMem store, as the statements write it. -/
theorem nvStore_eq (t : Nat) (off : Word) (s : State) : nvStore t off s = s.storeOutcome off t := by
  unfold nvStore State.storeOutcome State.afterStore
  cases s.nvAligned <;> simp [State.advance, State.nextPc]

/-- A register read, as the statements write it. -/
theorem regRead_eq (n : AccName) (r : SysRegId) (t : Nat) (s : State) :
    regRead n r t s = .next (s.afterRead n r t) := by
  unfold regRead State.afterRead
  simp only [writeX_eq]
  rfl

/-- A register write, as the statements write it. -/
theorem regWrite_eq (n : AccName) (r : SysRegId) (t : Nat) (s : State) :
    regWrite n r t s = .next (s.afterWrite n r t) := by
  unfold regWrite State.afterWrite State.afterMerge
  cases r <;> rfl

/-- A masked register write, as the statements write it. -/
theorem regWriteMasked_eq (n : AccName) (r : SysRegId) (em : Word × Nat) (t : Nat) (s : State) :
    regWriteMasked n r em t s = .next (s.afterMasked n r em t) := by
  unfold regWriteMasked State.afterMasked
  split
  · unfold State.afterMerge; cases r <;> rfl
  · rw [regWrite_eq]

/-- A locked register write, as the statements write it. -/
theorem regWriteLocked_eq (n : AccName) (r : SysRegId) (em : Word × Nat) (t : Nat) (s : State) :
    regWriteLocked n r em t s =
      if em.1 = 0#64 then .next (s.afterMerge n r (s.readX t) 0#64 em.2) else .fault .undefined := by
  unfold regWriteLocked isZero raiseUndefined
  by_cases h : em.1 = 0#64
  · simp only [h, beq_self_eq_true, Bool.not_true, Bool.false_eq_true, if_false, if_true]
    rw [regWrite_eq]; unfold State.afterWrite State.afterMerge; cases r <;> rfl
  · simp [h]

/-- An NVMem load answers a next state only over an aligned base, without a fault. -/
theorem loadOutcome_next {s s' : State} {off : Word} {t : Nat} (h : s.loadOutcome off t = .next s') :
    s.LoadReady ∧ s' = s.afterLoad off t := by
  unfold State.loadOutcome at h
  split at h
  · cases h
  split at h
  · cases h
  · rename_i h1 h2
    exact ⟨⟨by simpa using h1, by simpa using h2⟩, by cases h; rfl⟩

/-- An NVMem store answers a next state only over an aligned base, clear of the program text, without a fault. -/
theorem storeOutcome_next {s s' : State} {off : Word} {t : Nat} (h : s.storeOutcome off t = .next s') :
    s.StoreReady off ∧ s' = s.afterStore off t := by
  unfold State.storeOutcome at h
  split at h
  · cases h
  split at h
  · cases h
  split at h
  · cases h
  · rename_i h1 h2 h3
    exact ⟨⟨⟨by simpa using h1, by simpa using h3⟩, by simpa using h2⟩, by cases h; rfl⟩

/-- The two offsets are multiples of 8 (rule R91). -/
theorem slotOf_offset (n : AccName) (nv : BitVec 3) (off : Word) (h : slotOf n = some (nv, off)) :
    off.toNat % 8 = 0 := by
  cases n <;> simp [slotOf] at h <;> (obtain ⟨-, rfl⟩ := h; rfl)

/-- A redirected access is at EL1 with the redirecting `NVx` of its name. -/
theorem redirect_some {s : State} {n : AccName} {off : Word} (h : s.redirect n = some off) :
    ∃ nv, slotOf n = some (nv, off) ∧ s.env.EL = .el1 ∧ s.env.NVx = nv := by
  unfold State.redirect at h
  split at h
  · rename_i nv off' hs
    split at h
    · rename_i hc; cases h; exact ⟨nv, hs, hc.1, hc.2⟩
    · cases h
  · cases h

/-- The register a merge writes takes the write at the end of its unsynchronised writes. -/
theorem afterMerge_reg_self (s : State) (n : AccName) (r : SysRegId) (v m : Word) (d : Nat) :
    (s.afterMerge n r v m d).reg r = ⟨(s.reg r).base, (s.reg r).pending ++ [⟨n, v, m⟩]⟩ := by
  cases r <;> rfl

/-- A merge leaves every other register alone. -/
theorem afterMerge_reg_ne (s : State) (n : AccName) (r q : SysRegId) (v m : Word) (d : Nat) (h : q ≠ r) :
    (s.afterMerge n r v m d).reg q = s.reg q := by
  cases r <;> cases q <;> first | rfl | exact absurd rfl h

end Sys2Proof.Machine
end

