-- ==== Sys2Proof/Laws/Exec.lean ====
section
/-!
SUPPORT. What exec can answer: a completed MRS is an NVMem load or a register read, a completed MSR an NVMem store or a
register write, each at the place the tables of rules R91, R137 and R164 name. The proofs about every instruction cite
these instead of unfolding the meanings.
-/

namespace Sys2Proof.Machine

/-- A completed MRS: from the slot of its name when redirected, else from the register its name reaches. -/
def ReadDone (s s' : State) (n : AccName) (t : Nat) : Prop :=
  (∃ off, s.redirect n = some off ∧ s.LoadReady ∧ s' = s.afterLoad off t) ∨
  (s.redirect n = none ∧ s' = s.afterRead n (s.reaches n) t)

/-- A completed MSR: to the slot of its name when redirected, else to the register its name reaches, merged under a
mask or whole. -/
def WriteDone (s s' : State) (n : AccName) (t : Nat) : Prop :=
  (∃ off, s.redirect n = some off ∧ s.StoreReady off ∧ s' = s.afterStore off t) ∨
  (s.redirect n = none ∧ ∃ m d, s' = s.afterMerge n (s.reaches n) (s.readX t) m d ∧
    (s.merges n = false → m = 0#64) ∧
    (s.merges n = true → s.reaches n = .sctlr2El1 → (m, d) = s.effectiveMask1) ∧
    (s.merges n = true → s.reaches n = .sctlr2El2 → (m, d) = s.effectiveMask2))

theorem readDone_load {s s' : State} {n : AccName} {off : Word} {t : Nat} {nv : BitVec 3}
    (hs : slotOf n = some (nv, off)) (he : s.env.EL = .el1) (hn : s.env.NVx = nv)
    (h : nvLoad t off s = .next s') : ReadDone s s' n t := by
  rw [nvLoad_eq] at h
  exact .inl ⟨off, by simp [State.redirect, hs, he, hn], loadOutcome_next h⟩

theorem writeDone_store {s s' : State} {n : AccName} {off : Word} {t : Nat} {nv : BitVec 3}
    (hs : slotOf n = some (nv, off)) (he : s.env.EL = .el1) (hn : s.env.NVx = nv)
    (h : nvStore t off s = .next s') : WriteDone s s' n t := by
  rw [nvStore_eq] at h
  exact .inl ⟨off, by simp [State.redirect, hs, he, hn], storeOutcome_next h⟩

theorem readDone_reg {s s' : State} {n : AccName} {r : SysRegId} {t : Nat} (hr : s.redirect n = none)
    (hq : s.reaches n = r) (h : regRead n r t s = .next s') : ReadDone s s' n t := by
  rw [regRead_eq] at h
  cases h; subst hq
  exact .inr ⟨hr, rfl⟩

theorem writeDone_reg {s s' : State} {n : AccName} {r : SysRegId} {t : Nat} (hr : s.redirect n = none)
    (hq : s.reaches n = r) (hm : s.merges n = false) (h : regWrite n r t s = .next s') : WriteDone s s' n t := by
  rw [regWrite_eq] at h
  cases h; subst hq
  exact .inr ⟨hr, 0#64, s.draws, rfl, fun _ => rfl, by simp [hm], by simp [hm]⟩

theorem writeDone_masked {s s' : State} {n : AccName} {r : SysRegId} {em : Word × Nat} {t : Nat}
    (hr : s.redirect n = none) (hq : s.reaches n = r) (hm : s.merges n = s.cfg.FEAT_SRMASK)
    (h1 : r = .sctlr2El1 → em = s.effectiveMask1) (h2 : r = .sctlr2El2 → em = s.effectiveMask2)
    (h : regWriteMasked n r em t s = .next s') : WriteDone s s' n t := by
  rw [regWriteMasked_eq] at h
  cases h; subst hq
  unfold State.afterMasked
  split
  · rename_i hf
    exact .inr ⟨hr, em.1, em.2, rfl, by simp [hm, hf], fun _ hq => h1 hq, fun _ hq => h2 hq⟩
  · rename_i hf
    exact .inr ⟨hr, 0#64, s.draws, rfl, fun _ => rfl, by simp [hm, hf], by simp [hm, hf]⟩

theorem writeDone_locked {s s' : State} {n : AccName} {r : SysRegId} {em : Word × Nat} {t : Nat}
    (hr : s.redirect n = none) (hq : s.reaches n = r) (hm : s.merges n = false)
    (h : regWriteLocked n r em t s = .next s') : WriteDone s s' n t := by
  rw [regWriteLocked_eq] at h
  split at h
  · cases h; subst hq
    exact .inr ⟨hr, 0#64, em.2, rfl, fun _ => rfl, by simp [hm], by simp [hm]⟩
  · cases h

theorem nvTrap_ne_next {i : Instr} {s s' : State} (h : nvTrap i s = .next s') : False := by
  unfold nvTrap at h; split at h <;> simp [raiseUndefined, raiseSystemAccessTrap] at h

theorem undefined_ne_next {s' : State} (h : raiseUndefined = .next s') : False := by
  simp [raiseUndefined] at h

/-- Every outcome of an instruction: UNDEFINED; a trap to EL2 from EL1; a trap to EL3 from EL1 or EL2, with EL3
implemented; the outcome of an NVMem transfer when its name is redirected; or a completed register access. -/
def ExecOutcome (i : Instr) (s : State) (o : Out) : Prop :=
  o = .fault .undefined ∨
  (s.env.EL = .el1 ∧ o = .fault (.systemAccessTrap .el2 0x18 (encode i))) ∨
  ((s.env.EL = .el1 ∨ s.env.EL = .el2) ∧ s.cfg.HaveEL3 = true ∧
    o = .fault (.systemAccessTrap .el3 0x18 (encode i))) ∨
  (∃ off, s.env.EL = .el1 ∧ s.redirect i.accessor = some off ∧
    ((i.isRead = true ∧ o = s.loadOutcome off i.operand) ∨ (i.isRead = false ∧ o = s.storeOutcome off i.operand))) ∨
  ∃ s', o = .next s'

theorem execOutcome_nvTrap (i : Instr) (s : State) (he : s.env.EL = .el1) : ExecOutcome i s (nvTrap i s) := by
  rcases nvTrap_cases i s with h | h
  · exact .inr (.inl ⟨he, h⟩)
  · exact .inl h

theorem execOutcome_load {i : Instr} {s : State} {t : Nat} {off : Word} {nv : BitVec 3} (he : s.env.EL = .el1)
    (hn : s.env.NVx = nv) (hs : slotOf i.accessor = some (nv, off)) (hr : i.isRead = true) (ht : i.operand = t) :
    ExecOutcome i s (nvLoad t off s) := by
  subst ht
  exact .inr (.inr (.inr (.inl ⟨off, he, by simp [State.redirect, hs, he, hn], .inl ⟨hr, nvLoad_eq _ _ _⟩⟩)))

theorem execOutcome_store {i : Instr} {s : State} {t : Nat} {off : Word} {nv : BitVec 3} (he : s.env.EL = .el1)
    (hn : s.env.NVx = nv) (hs : slotOf i.accessor = some (nv, off)) (hr : i.isRead = false) (ht : i.operand = t) :
    ExecOutcome i s (nvStore t off s) := by
  subst ht
  exact .inr (.inr (.inr (.inl ⟨off, he, by simp [State.redirect, hs, he, hn], .inr ⟨hr, nvStore_eq _ _ _⟩⟩)))

theorem execOutcome_next {i : Instr} {s s' : State} {o : Out} (h : o = .next s') : ExecOutcome i s o :=
  .inr (.inr (.inr (.inr ⟨s', h⟩)))

theorem execOutcome_locked (i : Instr) (s : State) (n : AccName) (r : SysRegId) (em : Word × Nat) (t : Nat) :
    ExecOutcome i s (regWriteLocked n r em t s) := by
  rw [regWriteLocked_eq]
  split
  · exact execOutcome_next rfl
  · exact .inl rfl

/-- `exec` answers nothing but these. -/
theorem exec_outcome (i : Instr) (s : State) : ExecOutcome i s (exec i s) := by
  generalize ho : exec i s = o
  cases i <;>
    simp only [exec, execMrsSctlr2El1, execMsrSctlr2El1, execMrsSctlr2El12, execMsrSctlr2El12,
      execMrsSctlr2AliasEl1, execMsrSctlr2AliasEl1, execMrsSctlr2El2, execMsrSctlr2El2, execMrsSctlr2MaskEl1,
      execMsrSctlr2MaskEl1, execMrsSctlr2MaskEl12, execMsrSctlr2MaskEl12] at ho <;>
    obtain h | ⟨-, ⟨he, h⟩ | ⟨he, h⟩ | ⟨he, h⟩⟩ := byLevel_cases ho <;>
    first
    | exact .inl h
    | exact .inl h.symm
    | exact h ▸ execOutcome_next (regRead_eq _ _ _ _)
    | exact h ▸ execOutcome_next (regWrite_eq _ _ _ _)
    | exact h ▸ execOutcome_nvTrap _ _ he
    | (obtain ⟨-, h⟩ | ⟨h3, h | h⟩ | h := el1Gate_cases h
       · exact .inr (.inl ⟨he, h⟩)
       · exact .inl h
       · exact .inr (.inr (.inl ⟨.inl he, h3, h⟩))
       · split at h <;> rename_i hn <;> subst h <;>
         first
         | exact execOutcome_load he hn rfl rfl rfl
         | exact execOutcome_store he hn rfl rfl rfl
         | exact execOutcome_next (regRead_eq _ _ _ _)
         | exact execOutcome_next (regWriteMasked_eq _ _ _ _ _)
         | exact execOutcome_locked _ _ _ _ _ _)
    | (obtain ⟨h3, h | h⟩ | h := el2Gate_cases h
       · exact .inl h
       · exact .inr (.inr (.inl ⟨.inr he, h3, h⟩))
       · (try split at h) <;> subst h <;>
         first
         | exact execOutcome_next (regRead_eq _ _ _ _)
         | exact execOutcome_next (regWrite_eq _ _ _ _)
         | exact execOutcome_next (regWriteMasked_eq _ _ _ _ _)
         | exact execOutcome_locked _ _ _ _ _ _)
    | (split at h <;> rename_i hn
       · first
         | exact h ▸ execOutcome_load he hn rfl rfl rfl
         | exact h ▸ execOutcome_store he hn rfl rfl rfl
         | exact h ▸ execOutcome_next (regRead_eq _ _ _ _)
         | exact h ▸ execOutcome_next (regWrite_eq _ _ _ _)
         | (obtain ⟨h3, h | h⟩ | h := el2Gate_cases h
            · exact .inl h
            · exact .inr (.inr (.inl ⟨.inr he, h3, h⟩))
            · subst h
              first
              | exact execOutcome_next (regRead_eq _ _ _ _)
              | exact execOutcome_next (regWrite_eq _ _ _ _))
       · first
         | exact h ▸ execOutcome_nvTrap _ _ he
         | exact .inl h.symm)

/-- Every completed MRS. -/
theorem exec_read_next (i : Instr) (s s' : State) (hi : i.isRead = true) (h : exec i s = .next s') :
    ReadDone s s' i.accessor i.operand := by
  cases i <;> simp only [Instr.isRead, Bool.false_eq_true] at hi <;>
    simp only [exec, execMrsSctlr2El1, execMrsSctlr2El12, execMrsSctlr2AliasEl1, execMrsSctlr2El2,
      execMrsSctlr2MaskEl1, execMrsSctlr2MaskEl12] at h <;>
    simp only [Instr.accessor, Instr.operand] <;>
    obtain ⟨-, ⟨he, h⟩ | ⟨he, h⟩ | ⟨he, h⟩⟩ := byLevel_next h <;>
    first
    | exact (nvTrap_ne_next h).elim
    | exact readDone_reg (by simp [State.redirect, slotOf, he]) (by simp [State.reaches, he]) h
    | (have h := (el2Gate_next h).2
       exact readDone_reg (by simp [State.redirect, slotOf]) (by simp [State.reaches]) h)
    | (have h := (el2Gate_next h).2
       split at h <;> rename_i hh <;>
         exact readDone_reg (by simp [State.redirect, slotOf, he]) (by simp [State.reaches, he, hh]) h)
    | (have h := (el1Gate_next h).2.2
       split at h <;> rename_i hh
       · exact readDone_load rfl he hh h
       · exact readDone_reg (by simp [State.redirect, slotOf, hh]) (by simp [State.reaches, he]) h)
    | (split at h <;> rename_i hh
       · exact readDone_load rfl he hh h
       · exact (nvTrap_ne_next h).elim)
    | (split at h <;> rename_i hh
       · first
         | exact readDone_reg (by simp [State.redirect, slotOf, he]) (by simp [State.reaches]) h
         | exact readDone_reg (by simp [State.redirect, slotOf, he]) (by simp [State.reaches]) (el2Gate_next h).2
       · exact (undefined_ne_next h).elim)

/-- Every completed MSR. -/
theorem exec_write_next (i : Instr) (s s' : State) (hi : i.isRead = false) (h : exec i s = .next s') :
    WriteDone s s' i.accessor i.operand := by
  cases i <;> simp only [Instr.isRead, Bool.true_eq_false] at hi <;>
    simp only [exec, execMsrSctlr2El1, execMsrSctlr2El12, execMsrSctlr2AliasEl1, execMsrSctlr2El2,
      execMsrSctlr2MaskEl1, execMsrSctlr2MaskEl12] at h <;>
    simp only [Instr.accessor, Instr.operand] <;>
    obtain ⟨-, ⟨he, h⟩ | ⟨he, h⟩ | ⟨he, h⟩⟩ := byLevel_next h <;>
    first
    | exact (nvTrap_ne_next h).elim
    | exact writeDone_reg (by simp [State.redirect, slotOf, he]) (by simp [State.reaches, he])
        (by simp [State.merges, he]) h
    | (have h := (el2Gate_next h).2
       exact writeDone_masked (by simp [State.redirect, slotOf]) (by simp [State.reaches])
         (by simp [State.merges, he]) (by simp) (by simp) h)
    | (have h := (el2Gate_next h).2
       split at h <;> rename_i hh
       · first
         | exact writeDone_masked (by simp [State.redirect, slotOf, he]) (by simp [State.reaches, he, hh])
             (by simp [State.merges, he, hh]) (by simp) (by simp) h
         | exact writeDone_locked (by simp [State.redirect, slotOf, he]) (by simp [State.reaches, he, hh])
             (by simp [State.merges]) h
       · exact writeDone_reg (by simp [State.redirect, slotOf, he]) (by simp [State.reaches, hh])
           (by simp [State.merges, he, hh]) h)
    | (have h := (el1Gate_next h).2.2
       split at h <;> rename_i hh
       · exact writeDone_store rfl he hh h
       · first
         | exact writeDone_masked (by simp [State.redirect, slotOf, hh]) (by simp [State.reaches, he])
             (by simp [State.merges, he]) (by simp) (by simp) h
         | exact writeDone_locked (by simp [State.redirect, slotOf, hh]) (by simp [State.reaches, he])
             (by simp [State.merges]) h)
    | (split at h <;> rename_i hh
       · exact writeDone_store rfl he hh h
       · exact (nvTrap_ne_next h).elim)
    | (split at h <;> rename_i hh
       · first
         | exact writeDone_reg (by simp [State.redirect, slotOf, he]) (by simp [State.reaches])
             (by simp [State.merges]) h
         | exact writeDone_reg (by simp [State.redirect, slotOf, he]) (by simp [State.reaches])
             (by simp [State.merges]) (el2Gate_next h).2
       · exact (undefined_ne_next h).elim)

/-- Every completed MSR at EL1 that is not redirected: a masked write of `SCTLR2_EL1` by its own name or the alias, or a
write of `SCTLR2MASK_EL1` while the effective mask is zero. -/
theorem exec_write_el1 (i : Instr) (s s' : State) (hi : i.isRead = false) (he : s.env.EL = .el1)
    (hr : s.redirect i.accessor = none) (h : exec i s = .next s') :
    ((i.accessor = .sctlr2El1 ∨ i.accessor = .sctlr2AliasEl1) ∧
      s' = s.afterMasked i.accessor .sctlr2El1 s.effectiveMask1 i.operand) ∨
    (i.accessor = .sctlr2MaskEl1 ∧ s.effectiveMask1.1 = 0#64 ∧
      s' = s.afterMerge .sctlr2MaskEl1 .sctlr2MaskEl1 (s.readX i.operand) 0#64 s.effectiveMask1.2) := by
  cases i <;> simp only [Instr.isRead, Bool.true_eq_false] at hi <;>
    simp only [exec, execMsrSctlr2El1, execMsrSctlr2El12, execMsrSctlr2AliasEl1, execMsrSctlr2El2,
      execMsrSctlr2MaskEl1, execMsrSctlr2MaskEl12] at h <;>
    simp only [Instr.accessor, State.redirect, slotOf, he, true_and, ite_eq_right_iff, reduceCtorEq, imp_false] at hr <;>
    simp only [Instr.accessor, Instr.operand] <;>
    obtain ⟨-, ⟨-, h⟩ | ⟨hx, -⟩ | ⟨hx, -⟩⟩ := byLevel_next h <;>
    first
    | (rw [he] at hx; cases hx)
    | exact (nvTrap_ne_next h).elim
    | (rw [if_neg hr] at h; exact (nvTrap_ne_next h).elim)
    | (have h := (el1Gate_next h).2.2
       rw [if_neg hr, regWriteMasked_eq] at h
       cases h; simp)
    | (have h := (el1Gate_next h).2.2
       rw [if_neg hr, regWriteLocked_eq] at h
       split at h
       · rename_i hz; cases h; simp [hz]
       · cases h)

end Sys2Proof.Machine
end

