-- ==== Sys2Proof/Laws/Fields.lean ====
section
/-!
SUPPORT. The bits of the fields, what a direct read returns for them, and the alignment a Warm reset gives the program
counter.
-/

namespace Sys2Proof.Machine

/-- Every field is listed. -/
theorem mem_fieldAll (f : Field) : f ∈ Field.all := by cases f <;> decide

/-- Every field lies in the word. -/
theorem fieldBit_lt (f : Field) : f.bit < 64 := by cases f <;> decide

/-- No two fields share a bit. -/
theorem fieldBit_inj (f g : Field) (h : f.bit = g.bit) : f = g := by
  cases f <;> cases g <;> first | rfl | simp [Field.bit] at h

theorem getLsbD_fieldFold (p : Field → Bool) (l : List Field) (m : Word) (i : Nat) (hi : i < 64) :
    (l.foldl (fun m f => if p f then m ||| (1#64 <<< f.bit) else m) m).getLsbD i =
      (m.getLsbD i || l.any (fun f => p f && f.bit == i)) := by
  induction l generalizing m with
  | nil => simp
  | cons f l ih =>
    have hb : ∀ (f : Field) (i : Fin 64), (1#64 <<< f.bit).getLsbD i.val = (f.bit == i.val) := by
      intro f; cases f <;> decide
    have := hb f ⟨i, hi⟩
    rw [List.foldl_cons, ih, List.any_cons]
    cases p f <;> simp [this, Bool.or_assoc]

/-- A bit of the mask of the present fields: that of some present field. -/
theorem getLsbD_fieldMask (p : Field → Bool) (i : Nat) (hi : i < 64) :
    (fieldMask p).getLsbD i = Field.all.any (fun f => p f && f.bit == i) := by
  rw [fieldMask, getLsbD_fieldFold _ _ _ _ hi]; simp

/-- The mask of the present fields, field by field. -/
theorem fieldBit_fieldMask (p : Field → Bool) (f : Field) : (fieldMask p).getLsbD f.bit = p f := by
  rw [getLsbD_fieldMask _ _ (fieldBit_lt f)]
  cases hp : p f
  · simp only [List.any_eq_false, Bool.and_eq_true, beq_iff_eq, not_and]
    intro g _ hg hb
    rw [fieldBit_inj g f hb, hp] at hg; cases hg
  · simp only [List.any_eq_true, Bool.and_eq_true, beq_iff_eq]
    exact ⟨f, mem_fieldAll f, hp, rfl⟩

/-- A register that a reset zeroes holds 0 in every present field. -/
theorem fieldBit_resetReg (p : Field → Bool) (v : Word) (r : SysReg) (f : Field) (h : p f = true) :
    fieldBit (resetReg true (resetZeros true p) v r).stored f = false := by
  simp [resetReg, resetZeros, SysReg.stored, replay, fieldBit, fieldBit_fieldMask, h]

/-- The program counter is aligned after a Warm reset. -/
theorem warmReset_pc (s : State) (e : Env) : (s.warmReset e).pc.extractLsb' 0 2 = 0#2 := by
  simp only [State.warmReset]
  ext i hi
  simp only [BitVec.getElem_extractLsb', BitVec.getLsbD_append]
  simp
  omega

end Sys2Proof.Machine
end

