-- ==== Sys2Proof/Laws/Memory.lean ====
section
/-!
SUPPORT. Memory: a read after a write, a read elsewhere, and the canonical form that every operation keeps.
-/

namespace Sys2Proof.Machine

/-- A byte write is seen at its address and nowhere else. -/
theorem readByte_writeByte (m : Memory) (a b : Nat) (v : Byte) (hs : m.Pairwise (fun c d => c.1 < d.1)) :
    (m.writeByte a v).readByte b = if b = a then v else m.readByte b := by
  induction m with
  | nil => by_cases hv : v = Memory.unlisted <;> by_cases hb : b = a <;> simp [Memory.writeByte, Memory.readByte, hv, hb, Ne.symm]
  | cons c m ih =>
    obtain ⟨k, u⟩ := c
    rw [List.pairwise_cons] at hs
    have hout : ∀ a', a' ≤ k → Memory.readByte m a' = Memory.unlisted := by
      intro a' ha'
      have : ∀ l : Memory, (∀ c ∈ l, k < c.1) → l.readByte a' = Memory.unlisted := by
        intro l
        induction l with
        | nil => intro _; rfl
        | cons d l ihl =>
          intro hl
          have hd := hl d (by simp)
          have : d.1 ≠ a' := by omega
          simp only [Memory.readByte, if_neg this]
          exact ihl (fun c hc => hl c (by simp [hc]))
      exact this m hs.1
    simp only [Memory.writeByte]
    split
    · rename_i hlt
      split
      · rename_i hv
        by_cases hb : b = a
        · subst hb; simp [Memory.readByte, Nat.ne_of_gt hlt, hout b hlt.le, hv]
        · simp [hb]
      · by_cases hb : b = a
        · simp [Memory.readByte, hb]
        · simp [Memory.readByte, hb, Ne.symm hb]
    · split
      · rename_i hak; subst hak
        split
        · rename_i hv
          by_cases hb : b = a
          · subst hb; simp [hout b le_rfl, hv]
          · simp [Memory.readByte, hb, Ne.symm hb]
        · by_cases hb : b = a
          · simp [Memory.readByte, hb]
          · simp [Memory.readByte, hb, Ne.symm hb]
      · rename_i hak
        simp only [Memory.readByte, ih hs.2]
        by_cases hb : b = a
        · subst hb; simp [Ne.symm hak]
        · simp [hb]

/-- Every entry after a byte write is an old one or the written one. -/
theorem mem_writeByte (m : Memory) (a : Nat) (v : Byte) (c : Host.Cell) (h : c ∈ m.writeByte a v) :
    c ∈ m ∨ (c = (a, v) ∧ v ≠ Memory.unlisted) := by
  induction m with
  | nil =>
    simp only [Memory.writeByte] at h
    split at h
    · simp at h
    · rename_i hv; exact .inr ⟨by simpa using h, hv⟩
  | cons d m ih =>
    obtain ⟨k, u⟩ := d
    simp only [Memory.writeByte] at h
    split at h
    · split at h
      · exact .inl h
      · rename_i hv
        rcases List.mem_cons.1 h with h | h
        · exact .inr ⟨h, hv⟩
        · exact .inl h
    · split at h
      · split at h
        · exact .inl (List.mem_cons_of_mem _ h)
        · rename_i hv
          rcases List.mem_cons.1 h with h | h
          · exact .inr ⟨h, hv⟩
          · exact .inl (List.mem_cons_of_mem _ h)
      · rcases List.mem_cons.1 h with h | h
        · exact .inl (by simp [h])
        · exact (ih h).imp_left (List.mem_cons_of_mem _)

/-- A byte write keeps the addresses strictly rising. -/
theorem writeByte_sorted (m : Memory) (a : Nat) (v : Byte) (hs : m.Pairwise (fun c d => c.1 < d.1)) :
    (m.writeByte a v).Pairwise (fun c d => c.1 < d.1) := by
  induction m with
  | nil => simp only [Memory.writeByte]; split <;> simp
  | cons c m ih =>
    obtain ⟨k, u⟩ := c
    have hs' := List.pairwise_cons.1 hs
    simp only [Memory.writeByte]
    split
    · rename_i hlt
      split
      · exact hs
      · refine List.pairwise_cons.2 ⟨fun c hc => ?_, hs⟩
        rcases List.mem_cons.1 hc with rfl | hc
        · exact hlt
        · exact hlt.trans (hs'.1 c hc)
    · split
      · rename_i hak; subst hak
        split
        · exact hs'.2
        · exact List.pairwise_cons.2 ⟨hs'.1, hs'.2⟩
      · rename_i hlt hak
        refine List.pairwise_cons.2 ⟨fun c hc => ?_, ih hs'.2⟩
        rcases mem_writeByte m a v c hc with hc | ⟨rfl, -⟩
        · exact hs'.1 c hc
        · exact lt_of_le_of_ne (not_lt.1 hlt) (Ne.symm hak)

/-- A byte write below 2^64 keeps the canonical form. -/
theorem writeByte_wf (m : Memory) (a : Nat) (v : Byte) (h : Memory.wf m) (ha : a < 2 ^ 64) :
    Memory.wf (m.writeByte a v) := by
  refine ⟨writeByte_sorted m a v h.1, fun c hc => ?_⟩
  rcases mem_writeByte m a v c hc with hc | ⟨rfl, hv⟩
  · exact h.2 c hc
  · exact ⟨ha, hv⟩

/-- A run of byte writes keeps the addresses strictly rising. -/
theorem writeBytes_sorted (bs : List Byte) (m : Memory) (a : Nat) (hs : m.Pairwise (fun c d => c.1 < d.1)) :
    (m.writeBytes a bs).Pairwise (fun c d => c.1 < d.1) := by
  induction bs generalizing m a with
  | nil => exact hs
  | cons b bs ih => exact ih _ _ (writeByte_sorted m a b hs)

/-- A run of byte writes that ends below 2^64 keeps the canonical form. -/
theorem writeBytes_wf (bs : List Byte) (m : Memory) (a : Nat) (h : Memory.wf m) (ha : a + bs.length ≤ 2 ^ 64) :
    Memory.wf (m.writeBytes a bs) := by
  induction bs generalizing m a with
  | nil => exact h
  | cons b bs ih =>
    simp only [List.length_cons] at ha
    exact ih _ _ (writeByte_wf m a b h (by omega)) (by omega)

/-- A run of byte writes leaves every address outside it alone. -/
theorem readByte_writeBytes_outside (bs : List Byte) (m : Memory) (a b : Nat)
    (hs : m.Pairwise (fun c d => c.1 < d.1)) (hb : b < a ∨ a + bs.length ≤ b) :
    (m.writeBytes a bs).readByte b = m.readByte b := by
  induction bs generalizing m a with
  | nil => rfl
  | cons v bs ih =>
    simp only [List.length_cons] at hb
    rw [Memory.writeBytes, ih _ _ (writeByte_sorted m a v hs) (by omega), readByte_writeByte m a b v hs,
      if_neg (by omega)]

/-- A run of byte writes is read back byte by byte. -/
theorem readByte_writeBytes_inside (bs : List Byte) (m : Memory) (a i : Nat)
    (hs : m.Pairwise (fun c d => c.1 < d.1)) (hi : i < bs.length) :
    (m.writeBytes a bs).readByte (a + i) = bs[i] := by
  induction bs generalizing m a i with
  | nil => simp at hi
  | cons v bs ih =>
    cases i with
    | zero =>
      rw [Nat.add_zero, Memory.writeBytes,
        readByte_writeBytes_outside bs _ (a + 1) a (writeByte_sorted m a v hs) (by omega),
        readByte_writeByte m a a v hs, if_pos rfl, List.getElem_cons_zero]
    | succ i =>
      have := ih (m.writeByte a v) (a + 1) i (writeByte_sorted m a v hs) (by simpa using hi)
      rw [Memory.writeBytes, show a + (i + 1) = a + 1 + i by omega, this, List.getElem_cons_succ]

/-- A slot holds eight bytes. -/
@[simp] theorem slotBytes_length (big : Bool) (v : Word) : (slotBytes big v).length = 8 := by
  cases big <;> rfl

/-- The bytes of a value joined are the value. -/
theorem joinBytes_bytesOf (v : Word) :
    joinBytes (v.extractLsb' 0 8) (v.extractLsb' 8 8) (v.extractLsb' 16 8) (v.extractLsb' 24 8)
      (v.extractLsb' 32 8) (v.extractLsb' 40 8) (v.extractLsb' 48 8) (v.extractLsb' 56 8) = v := by
  unfold joinBytes
  ext i hi
  simp only [BitVec.getElem_append, BitVec.getElem_extractLsb']
  split
  · simp [BitVec.getLsbD_eq_getElem hi]
  split
  · rw [show 8 + (i - 8) = i by omega, BitVec.getLsbD_eq_getElem hi]
  split
  · rw [show 16 + (i - 8 - 8) = i by omega, BitVec.getLsbD_eq_getElem hi]
  split
  · rw [show 24 + (i - 8 - 8 - 8) = i by omega, BitVec.getLsbD_eq_getElem hi]
  split
  · rw [show 32 + (i - 8 - 8 - 8 - 8) = i by omega, BitVec.getLsbD_eq_getElem hi]
  split
  · rw [show 40 + (i - 8 - 8 - 8 - 8 - 8) = i by omega, BitVec.getLsbD_eq_getElem hi]
  split
  · rw [show 48 + (i - 8 - 8 - 8 - 8 - 8 - 8) = i by omega, BitVec.getLsbD_eq_getElem hi]
  · rw [show 56 + (i - 8 - 8 - 8 - 8 - 8 - 8 - 8) = i by omega, BitVec.getLsbD_eq_getElem hi]

/-- `MemRead` after `MemWrite` at the same address and byte order gives the value written. -/
theorem read64_write64 (m : Memory) (big : Bool) (a : Nat) (v : Word)
    (hs : m.Pairwise (fun c d => c.1 < d.1)) : (m.write64 big a v).read64 big a = v := by
  have h : ∀ i (hi : i < 8), (m.write64 big a v).readByte (a + i) = (slotBytes big v)[i]'(by simpa using hi) :=
    fun i hi => readByte_writeBytes_inside _ m a i hs (by simpa using hi)
  have h0 := h 0 (by omega); have h1 := h 1 (by omega); have h2 := h 2 (by omega); have h3 := h 3 (by omega)
  have h4 := h 4 (by omega); have h5 := h 5 (by omega); have h6 := h 6 (by omega); have h7 := h 7 (by omega)
  cases big <;> simp only [Memory.read64, h0, h1, h2, h3, h4, h5, h6, h7] <;> exact joinBytes_bytesOf v

/-- `MemWrite` leaves every byte outside its eight alone. -/
theorem readByte_write64_outside (m : Memory) (big : Bool) (a b : Nat) (v : Word)
    (hs : m.Pairwise (fun c d => c.1 < d.1)) (hb : b < a ∨ a + 8 ≤ b) :
    (m.write64 big a v).readByte b = m.readByte b :=
  readByte_writeBytes_outside _ m a b hs (by simpa using hb)

/-- `MemWrite` of a slot that ends below 2^64 keeps the canonical form. -/
theorem write64_wf (m : Memory) (big : Bool) (a : Nat) (v : Word) (h : Memory.wf m) (ha : a + 8 ≤ 2 ^ 64) :
    Memory.wf (m.write64 big a v) :=
  writeBytes_wf _ m a h (by simpa using ha)

/-- Reset memory has the canonical form. -/
theorem reset_mem_wf : Memory.wf State.reset.mem := by decide

end Sys2Proof.Machine
end

