-- ==== Sys2Proof/Laws/PerInstr.lean ====
section
/-!
SUPPORT. The family LAWS.json names: where the encoder puts the fields that rule R111 fixes for every instruction.
-/

namespace Sys2Proof

/-- The operand field of an instruction word (rule R111). -/
theorem extract_rt (r : Bool) (n : SysTuple) (t : Nat) : (sysWord r n t).extractLsb' 0 5 = BitVec.ofNat 5 t := by
  apply BitVec.eq_of_getLsbD_eq
  intro i hi
  simp only [sysWord, BitVec.getLsbD_extractLsb', hi, decide_true, Bool.true_and, Nat.zero_add]
  rw [BitVec.getLsbD_append]
  simp [hi]

/-- The operand read back from an instruction word. -/
theorem rtOf_sysWord (r : Bool) (n : SysTuple) (t : Nat) (h : t < 32) : rtOf (sysWord r n t) = t := by
  rw [rtOf, extract_rt, BitVec.toNat_ofNat, Nat.mod_eq_of_lt h]

/-- The bits of an instruction word that do not hold the operand do not depend on it. -/
theorem sysWord_masked (r : Bool) (n : SysTuple) (t : Nat) : sysWord r n t &&& rowMask = sysWord r n 0 &&& rowMask := by
  apply BitVec.eq_of_getLsbD_eq
  intro i hi
  rw [BitVec.getLsbD_and, BitVec.getLsbD_and]
  by_cases h5 : i < 5
  · have : rowMask.getLsbD i = false := by
      have : ∀ j : Fin 5, rowMask.getLsbD j.val = false := by decide
      exact this ⟨i, h5⟩
    simp [this]
  · congr 1
    simp only [sysWord]
    simp only [BitVec.getLsbD_append]
    simp [h5]

namespace Laws.EncodeFields

/-- The operand field holds the operand, the other fields do not depend on it. -/
def Statement (i : Instr) : Prop :=
  i.WellFormed → rtOf (encode i) = i.operand ∧
    encode i &&& rowMask = sysWord i.isRead i.accessor.tuple 0 &&& rowMask

theorem of_wellFormed (i : Instr) : Statement i := fun h =>
  ⟨rtOf_sysWord _ _ _ (by simpa [Instr.WellFormed, Instr.wellFormed] using h), sysWord_masked _ _ _⟩

theorem mrsSctlr2El1 (t : Nat) : Statement (.mrsSctlr2El1 t) := of_wellFormed _
theorem msrSctlr2El1 (t : Nat) : Statement (.msrSctlr2El1 t) := of_wellFormed _
theorem mrsSctlr2El12 (t : Nat) : Statement (.mrsSctlr2El12 t) := of_wellFormed _
theorem msrSctlr2El12 (t : Nat) : Statement (.msrSctlr2El12 t) := of_wellFormed _
theorem mrsSctlr2AliasEl1 (t : Nat) : Statement (.mrsSctlr2AliasEl1 t) := of_wellFormed _
theorem msrSctlr2AliasEl1 (t : Nat) : Statement (.msrSctlr2AliasEl1 t) := of_wellFormed _
theorem mrsSctlr2El2 (t : Nat) : Statement (.mrsSctlr2El2 t) := of_wellFormed _
theorem msrSctlr2El2 (t : Nat) : Statement (.msrSctlr2El2 t) := of_wellFormed _
theorem mrsSctlr2MaskEl1 (t : Nat) : Statement (.mrsSctlr2MaskEl1 t) := of_wellFormed _
theorem msrSctlr2MaskEl1 (t : Nat) : Statement (.msrSctlr2MaskEl1 t) := of_wellFormed _
theorem mrsSctlr2MaskEl12 (t : Nat) : Statement (.mrsSctlr2MaskEl12 t) := of_wellFormed _
theorem msrSctlr2MaskEl12 (t : Nat) : Statement (.msrSctlr2MaskEl12 t) := of_wellFormed _

end Laws.EncodeFields

end Sys2Proof
end

