-- ==== Sys2Proof/Laws/Step.lean ====
section
/-!
SUPPORT. What a step can do: an outside event, or the decoded instruction. The invariant of every step, operation by
operation.
-/

namespace Sys2Proof.Machine

/-- A step that answers a next state is an outside event or a decoded instruction. -/
theorem step_next {s s' : State} (h : step s = .next s') :
    (∃ ev rest, s.inbox = ev :: rest ∧ ev ≠ .instruction ∧ s' = applyEvent ev { s with inbox := rest }) ∨
    (∃ rest i, (s.inbox = [] ∧ rest = [] ∨ s.inbox = .instruction :: rest) ∧
      s.fetch = .ok i ∧ exec i { s with inbox := rest } = .next s') := by
  unfold step at h
  split at h
  · rename_i hi
    unfold runInstruction at h
    split at h
    · rename_i i hf
      exact .inr ⟨[], i, .inl ⟨hi, rfl⟩, hf, by rw [← hi]; exact h⟩
    · cases h
  · rename_i rest hi
    unfold runInstruction at h
    split at h
    · rename_i i hf
      exact .inr ⟨rest, i, .inr hi, hf, h⟩
    · cases h
  · rename_i ev rest hne hi
    cases h
    exact .inl ⟨ev, rest, hi, hne, rfl⟩

/-- An instruction that completes leaves the configuration, the inputs, the inbox and the program text's place alone. -/
theorem exec_next_fixed {i : Instr} {s s' : State} (h : exec i s = .next s') :
    s'.cfg = s.cfg ∧ s'.env = s.env ∧ s'.inbox = s.inbox ∧ s'.text = s.text ∧ s'.pstate = s.pstate ∧
      s'.pc = s.nextPc := by
  cases hr : i.isRead
  · rcases exec_write_next i s s' hr h with ⟨off, -, -, rfl⟩ | ⟨-, m, d, rfl, -⟩
    · exact ⟨rfl, rfl, rfl, rfl, rfl, rfl⟩
    · exact ⟨by simp [State.afterMerge], by simp [State.afterMerge], by simp [State.afterMerge],
        by simp [State.afterMerge], by simp [State.afterMerge], rfl⟩
  · rcases exec_read_next i s s' hr h with ⟨off, -, -, rfl⟩ | ⟨-, rfl⟩ <;> exact ⟨rfl, rfl, rfl, rfl, rfl, rfl⟩

/-- Memory after an instruction that completes: as before, or one slot written. -/
theorem exec_next_mem {i : Instr} {s s' : State} (h : exec i s = .next s') :
    s'.mem = s.mem ∨ ∃ off, s.redirect i.accessor = some off ∧ i.isRead = false ∧ s.StoreReady off ∧
      s' = s.afterStore off i.operand := by
  cases hr : i.isRead
  · rcases exec_write_next i s s' hr h with ⟨off, h1, h2, rfl⟩ | ⟨-, m, d, rfl, -⟩
    · exact .inr ⟨off, h1, rfl, h2, rfl⟩
    · exact .inl (by simp [State.afterMerge])
  · rcases exec_read_next i s s' hr h with ⟨off, -, -, rfl⟩ | ⟨-, rfl⟩ <;> exact .inl rfl

/-- Every name writes only registers that list it among their writers. -/
theorem mem_writers_reaches (s : State) (n : AccName) : n ∈ (s.reaches n).writers := by
  cases n <;> simp only [State.reaches] <;> (try split) <;> simp [SysRegId.writers]

/-- The unsynchronised writes after an instruction that completes: as before, or one more by its own name. -/
theorem exec_next_pending {i : Instr} {s s' : State} (h : exec i s = .next s') (r : SysRegId) :
    s'.reg r = s.reg r ∨ (r = s.reaches i.accessor ∧
      ∃ w, w.name = i.accessor ∧ (s'.reg r).pending = (s.reg r).pending ++ [w]) := by
  cases hr : i.isRead
  · rcases exec_write_next i s s' hr h with ⟨off, -, -, rfl⟩ | ⟨-, m, d, rfl, -⟩
    · exact .inl (by cases r <;> rfl)
    · by_cases hq : r = s.reaches i.accessor
      · subst hq
        refine .inr ⟨rfl, ⟨i.accessor, s.readX i.operand, m⟩, rfl, ?_⟩
        have := pushWrite_reg_self s (s.reaches i.accessor) ⟨i.accessor, s.readX i.operand, m⟩
        simpa [State.afterMerge, State.reg] using congrArg SysReg.pending this
      · have := pushWrite_reg_ne s (s.reaches i.accessor) r ⟨i.accessor, s.readX i.operand, m⟩ hq
        exact .inl (by simpa [State.afterMerge, State.reg] using this)
  · rcases exec_read_next i s s' hr h with ⟨off, -, -, rfl⟩ | ⟨-, rfl⟩ <;> exact .inl (by cases r <;> rfl)

/-- The values of EMEC a TLB may hold after an instruction that completes: as before, or, for a write of `SCTLR2_EL2`, with
every value that may have governed. -/
theorem exec_next_tlbEmec {i : Instr} {s s' : State} (h : exec i s = .next s') :
    s'.tlbEmec = s.tlbEmec ∨ s'.tlbEmec = s.emecCopies := by
  cases hr : i.isRead
  · rcases exec_write_next i s s' hr h with ⟨off, -, -, rfl⟩ | ⟨-, m, d, rfl, -⟩
    · exact .inl rfl
    · cases hq : s.reaches i.accessor <;> first | exact .inl rfl | exact .inr rfl
  · rcases exec_read_next i s s' hr h with ⟨off, -, -, rfl⟩ | ⟨-, rfl⟩ <;> exact .inl rfl

/-- A run of one more step takes the step first. -/
theorem core_run_next {k : Nat} {s s' : State} (h : Host.Core.run Sys2Proof.core (k + 1) s = .next s') :
    ∃ s1, step s = .next s1 ∧ Host.Core.run Sys2Proof.core k s1 = .next s' := by
  have hs : ∀ (M : Host.Core) (k : Nat) (a b : M.State), M.run (k + 1) a = .next b →
      ∃ a1, M.step a = .next a1 ∧ M.run k a1 = .next b := by
    intro M k a b h
    rw [Host.Core.run] at h
    split at h
    · rename_i a1 h1; exact ⟨a1, h1, h⟩
    · cases h
    · cases h
  exact hs Sys2Proof.core k s s' h

end Sys2Proof.Machine
end

