-- ==== Sys2Proof/Tests/Slice0.lean ====
section
/-!
SUPPORT. Tests and witnesses, each on one small state. A test's expected result is a vector `T<n>` of
95_test_vectors.md or is worked out by hand from the rule named. A `witness_` theorem shows a state and operands that
meet the hypotheses of the statements it names.
-/

namespace Sys2Proof.Tests

open Sys2Proof Sys2Proof.Machine

/-! ### Small states -/

/-- Every control open: EL2 and EL3 implemented, EL2 enabled, no trap on. -/
def open' (el : EL) (nv : BitVec 3) (host : Bool) : Env :=
  { Env.reset with
    EL := el, EL2Enabled := true, EL2InHost := host, HCRXEnabled := true, NVx := nv,
    SCR_EL3_SCTLR2En := true, SCR_EL3_SRMASKEn := true, SCR_EL3_FGTEn := true, SCR_EL3_FGTEn2 := true,
    HCRX_EL2_SCTLR2En := true, HCRX_EL2_SRMASKEn := true,
    HFGRTR2_EL2_nSCTLR2ALIAS_EL1 := true, HFGWTR2_EL2_nSCTLR2ALIAS_EL1 := true,
    HFGRTR2_EL2_nSCTLR2MASK_EL1 := true, HFGWTR2_EL2_nSCTLR2MASK_EL1 := true, NVBase := 0x80000000#64 }

/-- A state with those inputs, `x[1] = 0x220`, `pc = 0x1000` and four registers that differ. -/
def lab (el : EL) (nv : BitVec 3) (host : Bool) : State :=
  { State.reset with
    env := open' el nv host, pc := 0x1000#64, text := ⟨0x1000, 4⟩,
    x := (Vector.replicate 31 0#64).set 1 0x220#64,
    sctlr2El1 := ⟨0x1FFC#64, []⟩, sctlr2El2 := ⟨0x2#64, []⟩,
    sctlr2MaskEl1 := ⟨0x24#64, []⟩, sctlr2MaskEl2 := ⟨0xDEAD#64, []⟩ }

/-- A state with the bytes of a word as its program text. -/
def labWord (w : InstrWord) : State :=
  { lab .el3 0#3 false with mem := Memory.writeBytes [] 0x1000 (bytesOfWord w) }

/-- The value of a register after an instruction that completes. -/
def xAfter (o : Out) (t : Nat) : Option Word :=
  match o with
  | .next s => some (s.readX t)
  | _ => none

/-- A stored System register after an instruction that completes. -/
def regAfter (o : Out) (r : SysRegId) : Option Word :=
  match o with
  | .next s => some (s.reg r).stored
  | _ => none

/-- The value of an NVMem slot after an instruction that completes. -/
def slotAfter (o : Out) (a : Nat) : Option Word :=
  match o with
  | .next s => some (Memory.read64 s.mem s.cfg.NVBigEndian a)
  | _ => none

/-- The fault of an outcome. -/
def faultOf (o : Out) : Option Fault :=
  match o with
  | .fault f => some f
  | _ => none

/-- The refusal of an outcome. -/
def refusalOf (o : Out) : Option Refusal :=
  match o with
  | .refused r => some r
  | _ => none

/-! ### Well-formedness (rule R114) -/

theorem test_wellFormed_bound : (Instr.mrsSctlr2El1 31).wellFormed = true ∧ (Instr.msrSctlr2MaskEl12 0).wellFormed = true := by
  decide

theorem test_illFormed_refused :
    ([.mrsSctlr2El1 32, .msrSctlr2El1 32, .mrsSctlr2El12 32, .msrSctlr2El12 32, .mrsSctlr2AliasEl1 32,
      .msrSctlr2AliasEl1 32, .mrsSctlr2El2 32, .msrSctlr2El2 32, .mrsSctlr2MaskEl1 32, .msrSctlr2MaskEl1 32,
      .mrsSctlr2MaskEl12 32, .msrSctlr2MaskEl12 32] : List Instr).all (fun i => !i.wellFormed) = true := by decide

/-! ### Decoding: words written out from rules R111 and R112, one for each constructor (T310) -/

theorem test_decode_mrsSctlr2El1 :
    decodeWord 0b1101010100_1_11_000_0001_0000_011_11111#32 = some (.mrsSctlr2El1 31) := by decide
theorem test_decode_msrSctlr2El1 :
    decodeWord 0b1101010100_0_11_000_0001_0000_011_00010#32 = some (.msrSctlr2El1 2) := by decide
theorem test_decode_mrsSctlr2El12 :
    decodeWord 0b1101010100_1_11_101_0001_0000_011_00001#32 = some (.mrsSctlr2El12 1) := by decide
theorem test_decode_msrSctlr2El12 :
    decodeWord 0b1101010100_0_11_101_0001_0000_011_11111#32 = some (.msrSctlr2El12 31) := by decide
theorem test_decode_mrsSctlr2AliasEl1 :
    decodeWord 0b1101010100_1_11_000_0001_0100_111_00000#32 = some (.mrsSctlr2AliasEl1 0) := by decide
theorem test_decode_msrSctlr2AliasEl1 :
    decodeWord 0b1101010100_0_11_000_0001_0100_111_00111#32 = some (.msrSctlr2AliasEl1 7) := by decide
theorem test_decode_mrsSctlr2El2 :
    decodeWord 0b1101010100_1_11_100_0001_0000_011_01001#32 = some (.mrsSctlr2El2 9) := by decide
theorem test_decode_msrSctlr2El2 :
    decodeWord 0b1101010100_0_11_100_0001_0000_011_00100#32 = some (.msrSctlr2El2 4) := by decide
theorem test_decode_mrsSctlr2MaskEl1 :
    decodeWord 0b1101010100_1_11_000_0001_0100_011_00101#32 = some (.mrsSctlr2MaskEl1 5) := by decide
theorem test_decode_msrSctlr2MaskEl1 :
    decodeWord 0b1101010100_0_11_000_0001_0100_011_00001#32 = some (.msrSctlr2MaskEl1 1) := by decide
theorem test_decode_mrsSctlr2MaskEl12 :
    decodeWord 0b1101010100_1_11_101_0001_0100_011_00010#32 = some (.mrsSctlr2MaskEl12 2) := by decide
theorem test_decode_msrSctlr2MaskEl12 :
    decodeWord 0b1101010100_0_11_101_0001_0100_011_00000#32 = some (.msrSctlr2MaskEl12 0) := by decide

/-- The neighbours that T310 lists are no instructions of the spec. -/
theorem test_decode_not_in_spec :
    ([0xD5381040#32, 0xD5381080#32, 0xD53810E0#32, 0xD53814C0#32, 0xD5381160#32, 0xD53C1460#32, 0xD53E1060#32,
      0xD5301060#32, 0xD5281060#32, 0x55381060#32, 0#32] : List InstrWord).all (fun w => decodeWord w == none) = true := by
  decide

/-- The assembly check of T310, and the bytes of rule R117. -/
theorem test_encode : encode (.mrsSctlr2AliasEl1 7) = 0xD53814E7#32 ∧
    encodeBytes (.mrsSctlr2AliasEl1 7) = [0xE7#8, 0x14#8, 0x38#8, 0xD5#8] := by decide

theorem test_decodeBytes_errors :
    decodeBytes [0xE7#8, 0x14#8, 0x38#8] = .error .truncated ∧
      decodeBytes [0#8, 0#8, 0#8, 0#8] = .error .notInThisSpec := ⟨rfl, by rfl⟩

theorem test_decodeTableWord : decodeTableWord 32 0xD51D107F = some (.msrSctlr2El12 31) := by decide

/-! ### One step of each instruction -/

/-- T311 A8: redirected at EL1 under `NVx = 0b111`. -/
theorem test_mrsSctlr2El1_slot :
    xAfter (exec (.mrsSctlr2El1 3) { lab .el1 7#3 false with mem := [(0x80000278, 0xAA#8), (0x80000279, 0xAA#8)] }) 3 =
      some 0xAAAA#64 := by decide +kernel

/-- T311 A14: in host the name reaches SCTLR2_EL2. -/
theorem test_mrsSctlr2El1_host : xAfter (exec (.mrsSctlr2El1 3) (lab .el2 0#3 true)) 3 = some 0x2#64 := by
  decide +kernel

/-- T312 B9: the slot at 0x80000278 takes the value, the register does not. -/
theorem test_msrSctlr2El1_slot :
    slotAfter (exec (.msrSctlr2El1 1) (lab .el1 7#3 false)) 0x80000278 = some 0x220#64 ∧
      regAfter (exec (.msrSctlr2El1 1) (lab .el1 7#3 false)) .sctlr2El1 = some 0x1FFC#64 := by decide +kernel

/-- T312 B10: the write trap is TVM; the word is 0xD5181061. -/
theorem test_msrSctlr2El1_tvm :
    faultOf (exec (.msrSctlr2El1 1) { lab .el1 0#3 false with env := { open' .el1 0#3 false with HCR_EL2_TVM := true } }) =
      some (.systemAccessTrap .el2 0x18 0xD5181061#32) := by decide +kernel

/-- T314 D-111: `NVx = 0b111` traps this name to EL2. -/
theorem test_mrsSctlr2El12_nv :
    faultOf (exec (.mrsSctlr2El12 1) (lab .el1 7#3 false)) = some (.systemAccessTrap .el2 0x18 0xD53D1061#32) := by
  decide +kernel

/-- T314 D11: in host the name reaches SCTLR2_EL1. -/
theorem test_mrsSctlr2El12_host : xAfter (exec (.mrsSctlr2El12 1) (lab .el2 0#3 true)) 1 = some 0x1FFC#64 := by
  decide +kernel

/-- T314 D17: never masked. -/
theorem test_msrSctlr2El12_host :
    regAfter (exec (.msrSctlr2El12 1) (lab .el2 0#3 true)) .sctlr2El1 = some 0x220#64 := by decide +kernel

/-- T314 D18: redirected at EL1 under `NVx = 0b101`. -/
theorem test_msrSctlr2El12_slot :
    slotAfter (exec (.msrSctlr2El12 1) (lab .el1 5#3 false)) 0x80000278 = some 0x220#64 := by decide +kernel

/-- T313 C2: a clear bit of the fine-grained register traps. -/
theorem test_mrsSctlr2AliasEl1_fgt :
    faultOf (exec (.mrsSctlr2AliasEl1 0)
      { lab .el1 0#3 false with env := { open' .el1 0#3 false with HFGRTR2_EL2_nSCTLR2ALIAS_EL1 := false } }) =
      some (.systemAccessTrap .el2 0x18 0xD53814E0#32) := by decide +kernel

/-- T313 C9: in host the alias reaches SCTLR2_EL2. -/
theorem test_mrsSctlr2AliasEl1_host : xAfter (exec (.mrsSctlr2AliasEl1 9) (lab .el2 0#3 true)) 9 = some 0x2#64 := by
  decide +kernel

/-- T313 C8: redirected at EL1. -/
theorem test_msrSctlr2AliasEl1_slot :
    slotAfter (exec (.msrSctlr2AliasEl1 1) (lab .el1 7#3 false)) 0x80000278 = some 0x220#64 := by decide +kernel

/-- Rule R135 branch 15: not in host, whole. -/
theorem test_msrSctlr2AliasEl1_el2 :
    regAfter (exec (.msrSctlr2AliasEl1 1) (lab .el2 0#3 false)) .sctlr2El1 = some 0x220#64 := by decide +kernel

/-- T315 E10: out of host, with `Res0Reads = zero`, bits 12, 10, 8 read as 0. -/
theorem test_mrsSctlr2El2_res0 :
    xAfter (exec (.mrsSctlr2El2 9)
      { lab .el2 0#3 false with
        cfg := { Cfg.reset with res0Reads := .zero }, sctlr2El2 := ⟨0xFFFFFFFFFFFFFFFF#64, []⟩ }) 9 =
      some 0xAFE#64 := by decide +kernel

/-- T315 E-010: an even `NVx` makes it UNDEFINED at EL1. -/
theorem test_mrsSctlr2El2_nv : faultOf (exec (.mrsSctlr2El2 9) (lab .el1 2#3 false)) = some .undefined := by
  decide +kernel

/-- T315 E15: at EL3 the write is never masked. -/
theorem test_msrSctlr2El2_el3 :
    regAfter (exec (.msrSctlr2El2 1) (lab .el3 0#3 false)) .sctlr2El2 = some 0x220#64 := by decide +kernel

/-- T315 E18: without FEAT_SRMASK the zero register clears all. -/
theorem test_msrSctlr2El2_xzr :
    regAfter (exec (.msrSctlr2El2 31)
      { lab .el2 0#3 false with cfg := { Cfg.reset with FEAT_SRMASK := false } }) .sctlr2El2 = some 0#64 := by
  decide +kernel

/-- T316 F11: in host the name reads SCTLR2MASK_EL2. -/
theorem test_mrsSctlr2MaskEl1_host : xAfter (exec (.mrsSctlr2MaskEl1 5) (lab .el2 0#3 true)) 5 = some 0xDEAD#64 := by
  decide +kernel

/-- T316 F6: reads are not locked. -/
theorem test_mrsSctlr2MaskEl1_el1 : xAfter (exec (.mrsSctlr2MaskEl1 5) (lab .el1 0#3 false)) 5 = some 0x24#64 := by
  decide +kernel

/-- T316 F7: EL3 opens the lock. -/
theorem test_msrSctlr2MaskEl1_el3 :
    regAfter (exec (.msrSctlr2MaskEl1 31) (lab .el3 0#3 false)) .sctlr2MaskEl1 = some 0#64 := by decide +kernel

/-- T316 F12: the slot before the lock. -/
theorem test_msrSctlr2MaskEl1_slot :
    slotAfter (exec (.msrSctlr2MaskEl1 1) (lab .el1 7#3 false)) 0x80000328 = some 0x220#64 := by decide +kernel

/-- T316 F-101: redirected under `NVx = 0b101`. -/
theorem test_mrsSctlr2MaskEl12_slot :
    xAfter (exec (.mrsSctlr2MaskEl12 2) { lab .el1 5#3 false with mem := [(0x80000328, 0x77#8)] }) 2 =
      some 0x77#64 := by decide +kernel

/-- T316 F33: not in host at EL3. -/
theorem test_mrsSctlr2MaskEl12_el3 : faultOf (exec (.mrsSctlr2MaskEl12 2) (lab .el3 0#3 false)) = some .undefined := by
  decide +kernel

/-- T316 F34. -/
theorem test_msrSctlr2MaskEl12_el3 :
    regAfter (exec (.msrSctlr2MaskEl12 1) (lab .el3 0#3 true)) .sctlr2MaskEl1 = some 0x220#64 := by decide +kernel

/-- T316 F32: the SCR_EL3 enable of the mask names. -/
theorem test_msrSctlr2MaskEl12_scr :
    faultOf (exec (.msrSctlr2MaskEl12 0)
      { lab .el2 0#3 true with env := { open' .el2 0#3 true with SCR_EL3_SRMASKEn := false } }) =
      some (.systemAccessTrap .el3 0x18 0xD51D1460#32) := by decide +kernel

/-! ### Operations -/

/-- T312 B4 and B5. -/
theorem test_maskedWrite : maskedWrite 0x4#64 0x220#64 0x24#64 = 0x204#64 ∧
    maskedWrite 0x200#64 0x1C00#64 0xA00#64 = 0x1600#64 := by decide

/-- T320. -/
theorem test_syndrome : trapISS 0xD5381063#32 = 0x360461#32 ∧ trapESR 0x18 0xD53814E0#32 = 0x623E0409#32 ∧
    trapESR 0x18 0xD53D1462#32 = 0x62374449#32 := by decide

/-- T317 H4: the bits of the Effective values, PACM ignored. -/
theorem test_eff1_h4 :
    fieldMask (eff1Of { Cfg.reset with HaveEL3 := false } (open' .el1 0#3 false) (fieldBit 0x1FFC#64)) = 0x1E7C#64 := by
  decide +kernel

/-- T317 H6 and H8: CPTM needs CPTA; EnANERR follows the stored EnADERR. -/
theorem test_eff1_h6_h8 :
    fieldMask (eff1Of Cfg.reset { open' .el1 0#3 false with EL2Enabled := false } (fieldBit 0x1800#64)) = 0#64 ∧
    fieldMask (eff1Of { Cfg.reset with ID_ANERR := 2#4 } { open' .el1 0#3 false with EL2Enabled := false }
      (fieldBit 0x8#64)) = 0x18#64 := by decide +kernel

/-- T318 J2 and J3: the unprivileged fields need TGE and host. -/
theorem test_eff2_j2_j3 :
    fieldMask (eff2Of Cfg.reset (open' .el2 0#3 false) (fieldBit 0x1FFE#64)) = 0xAFE#64 ∧
    fieldMask (eff2Of Cfg.reset { open' .el2 0#3 true with HCR_EL2_TGE := true } (fieldBit 0x1FFE#64)) = 0x1FFE#64 := by
  decide +kernel

/-- T319, EL1 the highest level: the present fields are 0. -/
theorem test_warmReset_el1 :
    (State.warmReset { State.reset with cfg := { Cfg.reset with HaveEL2 := false, HaveEL3 := false } }
      Env.reset).sctlr2El1 = ⟨Config.unknown 0 &&& ~~~0x1FFC#64, []⟩ := by rfl

/-- Rule R100: EMEC 0, then in host the unsynchronised writes 0 by SCTLR2_EL2 and 1 by SCTLR2_EL1; whatever the
synchronisation settles on, a TLB may hold both 0 and 1 after it. -/
theorem test_sync_keeps_emec :
    let s := { lab .el2 0#3 true with
      sctlr2El2 := ⟨0#64, [⟨.sctlr2El2, 0#64, 0#64⟩, ⟨.sctlr2El1, 2#64, 0#64⟩]⟩ }
    s.syncAll.tlbEmec.contains true = true ∧ s.syncAll.tlbEmec.contains false = true := by decide +kernel

/-- Rule R100: a write of SCTLR2_EL2 that clears EMEC leaves the 1 where a TLB may hold it. -/
theorem test_write_keeps_emec :
    (match exec (.msrSctlr2El2 1) (lab .el3 0#3 false) with
     | .next s => s.tlbEmec
     | _ => []) = [true] := by decide +kernel

/-! ### Witnesses: states and operands that meet the hypotheses of the statements -/

/-- DecodeOfEncode, both ends of the operand. -/
theorem witness_DecodeOfEncode : (Instr.mrsSctlr2El1 0).WellFormed ∧ (Instr.msrSctlr2MaskEl12 31).WellFormed := by decide

theorem witness_EncodeOfDecode : decodeWord 0xD51D147F#32 = some (.msrSctlr2MaskEl12 31) := by decide

/-- UnlistedWordRefused: the word one op2 below `MRS X0, SCTLR2_EL1`, with both forms of the inbox. -/
theorem witness_UnlistedWordRefused :
    (labWord 0xD5381040#32).inbox = [] ∧
    (∃ rest, ({ labWord 0xD5381040#32 with inbox := [.instruction, .sync] } : State).inbox = .instruction :: rest) ∧
    (labWord 0xD5381040#32).pcAligned = true ∧
    (labWord 0xD5381040#32).pcInText = true ∧
    (labWord 0xD5381040#32).fetchBytes = bytesOfWord 0xD5381040#32 ∧
    ∀ p ∈ [0xD5381060#32, 0xD5181060#32, 0xD53D1060#32, 0xD51D1060#32, 0xD53814E0#32, 0xD51814E0#32,
      0xD53C1060#32, 0xD51C1060#32, 0xD5381460#32, 0xD5181460#32, 0xD53D1460#32, 0xD51D1460#32],
      0xD5381040#32 &&& 0xFFFFFFE0#32 ≠ p := by
  refine ⟨by decide, ⟨_, rfl⟩, by decide +kernel, by decide +kernel, by decide +kernel, fun p hp => ?_⟩
  fin_cases hp <;> decide

/-- StepRunsDecodedInstruction, with an empty inbox and with one that says an instruction runs now. -/
theorem witness_StepRunsDecodedInstruction :
    (labWord 0xD5381063#32).inbox = [] ∧
    ({ labWord 0xD5381063#32 with inbox := [.instruction, .sync] } : State).inbox = .instruction :: [.sync] ∧
    (labWord 0xD5381063#32).pcAligned = true ∧ (labWord 0xD5381063#32).pcInText = true ∧
    decodeBytes (labWord 0xD5381063#32).fetchBytes = .ok (.mrsSctlr2El1 3, []) ∧ (Instr.mrsSctlr2El1 3).WellFormed :=
  ⟨rfl, rfl, by decide, by decide +kernel, by rfl, by decide⟩

/-- FetchStopsOutsidePremises: `pc = 0x1002`, and the first word past the program text, with both forms of the inbox. -/
theorem witness_FetchStopsOutsidePremises :
    (lab .el3 0#3 false).inbox = [] ∧
    ({ lab .el3 0#3 false with inbox := [.instruction] } : State).inbox = .instruction :: [] ∧
    ({ lab .el3 0#3 false with pc := 0x1002#64 } : State).pcAligned = false ∧
    ({ lab .el3 0#3 false with pc := 0x1004#64 } : State).pcAligned = true ∧
    ({ lab .el3 0#3 false with pc := 0x1004#64 } : State).pcInText = false := by decide +kernel

/-- PlacedWordRuns. -/
theorem witness_PlacedWordRuns :
    (Instr.msrSctlr2El2 31).WellFormed ∧ Memory.wf State.reset.mem ∧ Memory.wf [(0, 1#8), (2 ^ 64 - 1, 255#8)] := by
  decide +kernel

/-- OutsideEventsTakeEffect, each clause. -/
theorem witness_OutsideEventsTakeEffect :
    ({ State.reset with inbox := [.setEnv Env.reset] } : State).inbox = [.setEnv Env.reset] ∧
    ({ State.reset with inbox := [.tlbMaintenance] } : State).inbox = [.tlbMaintenance] ∧
    ({ State.reset with inbox := [.sync] } : State).inbox = [.sync] ∧
    ({ State.reset with inbox := [.warmReset Env.reset] } : State).inbox = [.warmReset Env.reset] :=
  ⟨rfl, rfl, rfl, rfl⟩

/-- The twelve `Outcome` statements: the operands 0 and 31, the launch premises, the heading features. -/
theorem witness_Outcomes :
    0 < 32 ∧ 31 < 32 ∧ (lab .el1 7#3 false).LaunchPremises ∧ (lab .el1 7#3 false).cfg.FEAT_VHE = true ∧
      (lab .el1 7#3 false).cfg.FEAT_SRMASK = true := by
  unfold State.LaunchPremises; decide +kernel

/-- The `Completes` statements whose names have the checks of EL1, at EL1, redirected (`NVx = 0b111`) and not (`NVx = 0b110`): the
premises of the six, in the order SCTLR2_EL1, SCTLR2ALIAS_EL1, SCTLR2MASK_EL1, the read before the write. -/
theorem witness_Completes_el1 (nv : BitVec 3) (h : nv = 7#3 ∨ nv = 6#3) :
    (lab .el1 nv false).env.EL = .el1 ∧
    El3Allows (lab .el1 nv false) (lab .el1 nv false).env.SCR_EL3_SCTLR2En ∧
    El3Allows (lab .el1 nv false) (lab .el1 nv false).env.SCR_EL3_SRMASKEn ∧
    El2Allows (lab .el1 nv false) (lab .el1 nv false).env.HCR_EL2_TRVM
      (FgtTraps (lab .el1 nv false) (lab .el1 nv false).env.HFGRTR_EL2_SCTLR_EL1)
      (lab .el1 nv false).env.HCRX_EL2_SCTLR2En ∧
    El2Allows (lab .el1 nv false) (lab .el1 nv false).env.HCR_EL2_TVM
      (FgtTraps (lab .el1 nv false) (lab .el1 nv false).env.HFGWTR_EL2_SCTLR_EL1)
      (lab .el1 nv false).env.HCRX_EL2_SCTLR2En ∧
    El2Allows (lab .el1 nv false) (lab .el1 nv false).env.HCR_EL2_TRVM
      (Fgt2Traps (lab .el1 nv false) (lab .el1 nv false).env.HFGRTR2_EL2_nSCTLR2ALIAS_EL1)
      (lab .el1 nv false).env.HCRX_EL2_SCTLR2En ∧
    El2Allows (lab .el1 nv false) (lab .el1 nv false).env.HCR_EL2_TVM
      (Fgt2Traps (lab .el1 nv false) (lab .el1 nv false).env.HFGWTR2_EL2_nSCTLR2ALIAS_EL1)
      (lab .el1 nv false).env.HCRX_EL2_SCTLR2En ∧
    El2Allows (lab .el1 nv false) false
      (Fgt2Traps (lab .el1 nv false) (lab .el1 nv false).env.HFGRTR2_EL2_nSCTLR2MASK_EL1)
      (lab .el1 nv false).env.HCRX_EL2_SRMASKEn ∧
    El2Allows (lab .el1 nv false) false
      (Fgt2Traps (lab .el1 nv false) (lab .el1 nv false).env.HFGWTR2_EL2_nSCTLR2MASK_EL1)
      (lab .el1 nv false).env.HCRX_EL2_SRMASKEn ∧
    (nv = 7#3 → (lab .el1 nv false).LoadReady ∧ (lab .el1 nv false).StoreReady 0x278#64 ∧
      (lab .el1 nv false).StoreReady 0x328#64) := by
  unfold State.StoreReady State.LoadReady El3Allows El2Allows FgtTraps Fgt2Traps
  rcases h with rfl | rfl <;>
    exact ⟨by decide, by decide, by decide, by decide, by decide, by decide, by decide, by decide, by decide,
      by decide +kernel⟩

/-- The `Completes` statements of the _EL12 names at EL1 (`NVx = 0b101`). -/
theorem witness_Completes_el12 :
    (lab .el1 5#3 false).env.EL = .el1 ∧ (lab .el1 5#3 false).env.NVx = 0b101#3 ∧ (lab .el1 5#3 false).LoadReady ∧
    (lab .el1 5#3 false).StoreReady 0x278#64 ∧ (lab .el1 5#3 false).StoreReady 0x328#64 := by
  unfold State.StoreReady State.LoadReady; decide +kernel

/-- The `Completes` statements at EL2 and EL3, in host and not. -/
theorem witness_Completes_el2_el3 (host : Bool) :
    (lab .el2 0#3 host).env.EL = .el2 ∧ (lab .el2 0#3 host).env.EL2InHost = host ∧
    El3Allows (lab .el2 0#3 host) (lab .el2 0#3 host).env.SCR_EL3_SCTLR2En ∧
    El3Allows (lab .el2 0#3 host) (lab .el2 0#3 host).env.SCR_EL3_SRMASKEn ∧
    (lab .el3 0#3 host).env.EL = .el3 ∧ (lab .el3 0#3 host).env.EL2InHost = host := by
  unfold El3Allows; cases host <;> decide

/-- AbsentNamesUndefined, each clause. -/
theorem witness_AbsentNamesUndefined :
    ¬({ Cfg.reset with FEAT_SCTLR2 := false }.FEAT_SCTLR2 = true ∧ Cfg.reset.FEAT_AA64 = true) ∧
    ¬({ Cfg.reset with FEAT_SRMASK := false }.FEAT_SRMASK = true ∧ Cfg.reset.FEAT_AA64 = true) ∧
    (lab .el0 0#3 false).env.EL = .el0 ∧ { Cfg.reset with FEAT_VHE := false }.FEAT_VHE = false ∧
    { Cfg.reset with FEAT_SRMASK := false }.FEAT_SRMASK = false := by decide

/-- TrapsGoUp, to EL2 and to EL3. -/
theorem witness_TrapsGoUp :
    exec (.mrsSctlr2El2 9) (lab .el1 1#3 false) = .fault (.systemAccessTrap .el2 0x18 0xD53C1069#32) ∧
    exec (.mrsSctlr2El1 3)
      { lab .el2 0#3 false with env := { open' .el2 0#3 false with SCR_EL3_SCTLR2En := false } } =
      .fault (.systemAccessTrap .el3 0x18 0xD5381063#32) := ⟨rfl, rfl⟩

/-- RefusedOnlyOutsidePremises: a base with bit 2 set, a slot that is program text, and a fault the environment chose. -/
theorem witness_RefusedOnlyOutsidePremises :
    refusalOf (exec (.mrsSctlr2El1 3) { lab .el1 7#3 false with env := { open' .el1 7#3 false with NVBase := 4#64 } }) =
      some .nvBaseMisaligned ∧
    refusalOf (exec (.msrSctlr2El1 3) { lab .el1 7#3 false with text := ⟨0x8000027C, 4⟩ }) =
      some .nvStoreOverlapsText ∧
    exec (.msrSctlr2MaskEl12 3)
      { lab .el1 5#3 false with env := { open' .el1 5#3 false with NVMemFault := true } } = .fault .nvMemFault :=
  ⟨by decide +kernel, by decide +kernel, by rfl⟩

/-- LockedExactlyByEffectiveMask: its clauses share the states of `witness_Completes_el1` and
`witness_Completes_el2_el3`. -/
theorem witness_LockedExactlyByEffectiveMask :
    El3Allows (lab .el3 0#3 true) (lab .el3 0#3 true).env.SCR_EL3_SRMASKEn ∧
    (lab .el3 0#3 true).env.EL2InHost = true ∧ (lab .el3 0#3 true).cfg.FEAT_VHE = true ∧
    (lab .el3 0#3 true).cfg.FEAT_SRMASK = true ∧ (lab .el3 0#3 true).cfg.FEAT_AA64 = true ∧
    (∀ w ∈ (⟨0x24#64, [⟨.sctlr2MaskEl1, 1#64, 0#64⟩]⟩ : SysReg).pending, w.name = .sctlr2MaskEl1) := by
  unfold El3Allows; decide

/-- StoredValueAfterMsr: merged at EL1, at EL2 in host, by SCTLR2_EL2 at EL2; whole at EL3; a read of operand 30. -/
theorem witness_StoredValueAfterMsr :
    (lab .el1 0#3 false).cfg.FEAT_SRMASK = true ∧
    ((lab .el1 0#3 false).redirect .sctlr2El1 = none ∧ ∃ s', exec (.msrSctlr2El1 1) (lab .el1 0#3 false) = .next s') ∧
    ((lab .el2 0#3 true).redirect .sctlr2AliasEl1 = none ∧
      ∃ s', exec (.msrSctlr2AliasEl1 1) (lab .el2 0#3 true) = .next s') ∧
    ((lab .el2 0#3 false).redirect .sctlr2El2 = none ∧ ∃ s', exec (.msrSctlr2El2 1) (lab .el2 0#3 false) = .next s') ∧
    ((lab .el3 0#3 true).redirect .sctlr2El12 = none ∧ ∃ s', exec (.msrSctlr2El12 1) (lab .el3 0#3 true) = .next s') ∧
    ((lab .el3 0#3 false).redirect .sctlr2El1 = none ∧ ∃ s', exec (.mrsSctlr2El1 30) (lab .el3 0#3 false) = .next s') :=
  ⟨rfl, ⟨by decide, _, rfl⟩, ⟨by decide, _, rfl⟩, ⟨by decide, _, rfl⟩, ⟨by decide, _, rfl⟩, by decide, _, rfl⟩

/-- WritesChangeOnlyTheirTarget (not redirected, below the top of the range), MaskedFieldsSurviveEl1 and
LockedMaskHoldsForAnEl1Run: a masked write at EL1. -/
theorem witness_WritesChangeOnlyTheirTarget_register :
    (lab .el1 0#3 false).env.EL = .el1 ∧ (lab .el1 0#3 false).cfg.FEAT_SRMASK = true ∧
    (lab .el1 0#3 false).redirect .sctlr2El1 = none ∧ (lab .el1 0#3 false).pc.toNat + 4 < 2 ^ 64 ∧
    Memory.wf (lab .el1 0#3 false).mem ∧ ∃ s', exec (.msrSctlr2El1 1) (lab .el1 0#3 false) = .next s' :=
  ⟨rfl, rfl, by decide, by decide, by decide, _, rfl⟩

/-- WritesChangeOnlyTheirTarget, redirected. -/
theorem witness_WritesChangeOnlyTheirTarget :
    (lab .el1 7#3 false).redirect .sctlr2El1 = some 0x278#64 ∧ Memory.wf (lab .el1 7#3 false).mem ∧
    (lab .el1 7#3 false).env.NVBase.toNat + (0x278#64).toNat < 2 ^ 64 ∧
    ∃ s', exec (.msrSctlr2El1 1) (lab .el1 7#3 false) = .next s' := ⟨by decide, by decide, by decide, _, rfl⟩

/-- ValueReadByMrs and ReadsChangeOnlyDestination, operand 30, redirected (the slot below the top of the range) and
not. -/
theorem witness_ValueReadByMrs :
    (Instr.mrsSctlr2El1 30).operand < 31 ∧ (lab .el1 7#3 false).redirect .sctlr2El1 = some 0x278#64 ∧
    (lab .el1 6#3 false).redirect .sctlr2El1 = none ∧
    (∀ w ∈ (lab .el1 6#3 false).sctlr2El1.pending, w.name = .sctlr2El1) ∧
    (∃ s', exec (.mrsSctlr2El1 30) (lab .el1 7#3 false) = .next s') ∧
    ∃ s', exec (.mrsSctlr2El1 30) (lab .el1 6#3 false) = .next s' :=
  ⟨by decide, by decide, by decide, by simp [lab], ⟨_, rfl⟩, _, rfl⟩

/-- DirectReadBits: the lowest and the highest field, and bit 0, which is no field. -/
theorem witness_DirectReadBits :
    present2 Cfg.reset false .EMEC = true ∧ present1 Cfg.reset .CPTM0 = true ∧
    (∀ f ∈ Field.all, present1 Cfg.reset f = true → f.bit ≠ 0) ∧
    Cfg.reset.res0Reads = .stored ∧ { Cfg.reset with res0Reads := .zero }.res0Reads = .zero := by decide

/-- FieldTables: the first and the last row, and the bits on either side of the fields. -/
theorem witness_FieldTables :
    Field.CPTM0.bit = 12 ∧ Field.NMEA.bit = 2 ∧ Field.EMEC.bit = 1 ∧ (1 < 2 ∨ 12 < 1) ∧ (13 < 2 ∨ 12 < 13) ∧
      (0 < 1 ∨ 12 < 0) := by decide

/-- SlotReadsBackAlone: both clauses. -/
theorem witness_SlotReadsBackAlone : Memory.wf [(0x80000278, 1#8)] := by decide

/-- ReadsBetweenSynchronisations and SynchronisationSettles: one unsynchronised write, and two names. -/
theorem witness_ReadsBetweenSynchronisations :
    (∀ w ∈ (⟨0#64, [⟨.sctlr2El1, 1#64, 0#64⟩]⟩ : SysReg).pending, w.name = .sctlr2El1) ∧
    AccName.sctlr2El12 ≠ AccName.sctlr2El1 := by decide

/-- EarlierEmecStaysUntilTlbMaintenance: a write of SCTLR2_EL2 in host by the name SCTLR2_EL1, and a step that is a
synchronisation with a copy held. -/
theorem witness_EarlierEmecStaysUntilTlbMaintenance :
    (lab .el2 0#3 true).redirect .sctlr2El1 = none ∧ (lab .el2 0#3 true).reaches .sctlr2El1 = .sctlr2El2 ∧
    (∃ s', exec (.msrSctlr2El1 1) (lab .el2 0#3 true) = .next s') ∧
    (∃ s', step { State.reset with inbox := [.sync], tlbEmec := [true] } = .next s') ∧
    (∀ rest, ({ State.reset with inbox := [.sync], tlbEmec := [true] } : State).inbox ≠ .tlbMaintenance :: rest) :=
  ⟨by decide, by decide, ⟨_, rfl⟩, ⟨_, rfl⟩, by simp⟩

/-- ValuesThatMayGovern: nothing unsynchronised, one unsynchronised write, and EMEC present, enabled and not zeroed. -/
theorem witness_ValuesThatMayGovern :
    (lab .el2 0#3 true).sctlr2El1.pending = [] ∧ (lab .el2 0#3 true).sctlr2El2.pending = [] ∧
    Field.NMEA ≠ .EMEC ∧
    ({ lab .el2 0#3 true with sctlr2El2 := ⟨0#64, [⟨.sctlr2El2, 2#64, 0#64⟩]⟩ } : State).sctlr2El2 =
      ⟨0#64, [⟨.sctlr2El2, 2#64, 0#64⟩]⟩ ∧
    (lab .el2 0#3 true).cfg.FEAT_SCTLR2 = true ∧ (lab .el2 0#3 true).cfg.FEAT_AA64 = true ∧
    (lab .el2 0#3 true).cfg.FEAT_MEC = true ∧ (lab .el2 0#3 true).env.EL2Enabled = true ∧
    ¬((lab .el2 0#3 true).cfg.HaveEL3 = true ∧ (lab .el2 0#3 true).env.SCR_EL3_SCTLR2En = false) := by decide

/-- ClosedEnablesZeroEveryField: the enable of EL3 closed, and that of EL2 while HCRX_EL2 is enabled and while it is
not. -/
theorem witness_ClosedEnablesZeroEveryField :
    (State.reset.cfg.HaveEL3 = true ∧ State.reset.env.SCR_EL3_SCTLR2En = false) ∧
    (∃ e : Env, e.EL2Enabled = true ∧ e.HCRXEnabled = true ∧ e.HCRX_EL2_SCTLR2En = false) ∧
    ∃ e : Env, e.EL2Enabled = true ∧ e.HCRXEnabled = false :=
  ⟨⟨rfl, rfl⟩, ⟨{ open' .el1 0#3 false with HCRX_EL2_SCTLR2En := false }, rfl, rfl, rfl⟩,
    { open' .el1 0#3 false with HCRXEnabled := false }, rfl, rfl⟩

/-- Eff1Formula: a state in the band of D12 and one outside it. -/
theorem witness_Eff1Formula :
    siblingBand { Cfg.reset with ID_ANERR := 2#4 } { open' .el1 0#3 false with HCRX_EL2_EnSDERR := true }
      (fieldBit 0x8#64) .EnANERR = true ∧
    siblingBand Cfg.reset (open' .el1 0#3 false) (fieldBit 0x8#64) .EnANERR = false := by decide

/-- LockedMaskHoldsForAnEl1Run: one step at EL1. -/
theorem witness_LockedMaskHoldsForAnEl1Run :
    ({ labWord 0xD5181061#32 with env := open' .el1 0#3 false } : State).inbox = [] ∧
    (∀ w ∈ ({ labWord 0xD5181061#32 with env := open' .el1 0#3 false } : State).sctlr2MaskEl1.pending,
      w.name = .sctlr2MaskEl1) ∧
    ∃ s', Host.Core.run Sys2Proof.core 1 { labWord 0xD5181061#32 with env := open' .el1 0#3 false } = .next s' :=
  ⟨rfl, by simp [labWord, lab], _, rfl⟩

/-- GoverningControls: EL0 under EL2 and not, each Exception level, PACM enabled and not, the EL3 enable closed. -/
theorem witness_GoverningControls :
    (∃ e : Env, e.HCR_EL2_E2H_eff = true ∧ e.HCR_EL2_TGE_eff = true ∧ e.EL2Enabled = true) ∧
    ¬((lab .el1 0#3 false).env.HCR_EL2_E2H_eff = true ∧ (lab .el1 0#3 false).env.HCR_EL2_TGE_eff = true) ∧
    (lab .el0 0#3 false).env.EL = .el0 ∧ (lab .el3 0#3 false).env.EL = .el3 ∧
    ({ lab .el1 0#3 false with env := { open' .el1 0#3 false with HCRX_EL2_PACMEn := true } } : State).pacmEnabled =
      some true ∧
    (lab .el1 0#3 false).pacmEnabled = some false ∧ (lab .el3 0#3 false).pacmEnabled = none ∧
    State.reset.cfg.HaveEL3 = true ∧ State.reset.env.SCR_EL3_SCTLR2En = false ∧
    State.reset.cfg.FEAT_SYSREG128 = true :=
  ⟨⟨{ Env.reset with HCR_EL2_E2H_eff := true, HCR_EL2_TGE_eff := true, EL2Enabled := true }, rfl, rfl, rfl⟩,
    by decide, rfl, rfl, rfl, rfl, rfl, rfl, rfl, rfl⟩

/-- ErrorReportingControls: each governing Effective value at 1 and at 0, with FEAT_SVE and without. -/
theorem witness_ErrorReportingControls :
    (lab .el1 0#3 false).eff1 .EnANERR = true ∧ (lab .el1 0#3 false).eff1 .EnADERR = true ∧
    (lab .el1 0#3 false).eff1 .NMEA = true ∧ State.reset.eff1 .EnANERR = false ∧
    State.reset.eff1 .EnADERR = false ∧ State.reset.eff1 .NMEA = false ∧
    ({ lab .el2 0#3 true with sctlr2El2 := ⟨0x1C#64, []⟩ } : State).eff2 .EnANERR = true ∧
    ({ lab .el2 0#3 true with sctlr2El2 := ⟨0x1C#64, []⟩ } : State).eff2 .EnADERR = true ∧
    ({ lab .el2 0#3 true with sctlr2El2 := ⟨0x1C#64, []⟩ } : State).eff2 .NMEA = true ∧
    (lab .el2 0#3 true).eff2 .EnANERR = false ∧ (lab .el2 0#3 true).eff2 .EnADERR = false ∧
    (lab .el2 0#3 true).eff2 .NMEA = false ∧ (lab .el2 0#3 true).cfg.FEAT_SVE = true ∧
    { Cfg.reset with FEAT_SVE := false }.FEAT_SVE = false :=
  ⟨rfl, rfl, rfl, rfl, rfl, rfl, rfl, rfl, rfl, rfl, rfl, rfl, rfl, rfl⟩

/-- WarmResetValues, EL1 and EL2 the highest level, a field at each end, each register present without the other. -/
theorem witness_WarmResetValues :
    { Cfg.reset with HaveEL2 := false, HaveEL3 := false }.highestEL = .el1 ∧
    { Cfg.reset with HaveEL3 := false }.highestEL = .el2 ∧
    present1 { Cfg.reset with HaveEL2 := false, HaveEL3 := false } .NMEA = true ∧
    present2 { Cfg.reset with HaveEL3 := false } true .CPTM0 = true ∧
    (let c := { Cfg.reset with FEAT_SRMASK := false }
     c.FEAT_SCTLR2 = true ∧ c.FEAT_AA64 = true ∧ c.FEAT_SRMASK = false) ∧
    (let c := { Cfg.reset with FEAT_SCTLR2 := false }
     c.FEAT_SRMASK = true ∧ c.FEAT_AA64 = true ∧ c.FEAT_SCTLR2 = false) := by decide

/-- ProgramTextNeverChanges and StepKeepsInvariant: a step that stores, and a step that is an outside event. -/
theorem witness_StepKeepsInvariant :
    Memory.wf (labWord 0xD5181061#32).mem ∧ State.reset.Inv ∧
    (∃ s', step { labWord 0xD5181061#32 with env := open' .el1 7#3 false } = .next s') ∧
    ∃ s', step { State.reset with inbox := [.warmReset Env.reset] } = .next s' := by
  refine ⟨by decide +kernel, ⟨by decide, by decide, ?_⟩, ⟨_, rfl⟩, _, rfl⟩
  intro r w hw
  cases r <;> simp [State.reg, State.reset] at hw

end Sys2Proof.Tests
end

section
/-!
PROOFS. The frame of a completed access: what a load, a store, a read and a merge leave in each register, and what an
instruction at EL1 can do to the System registers.
-/

namespace Sys2Proof.Machine

/-! ### The general registers after an access -/

/-- Whatever else an update does, a register file after `x[t] <- v` reads `v` at `t` (rule R70). -/
theorem readX_self_of_setX {s s' : State} {t : Nat} {v : Word} (hx : s'.x = setX s.x t v) (ht : t < 31) :
    s'.readX t = v := by
  simp [State.readX, hx, setX, ht]

/-- Whatever else an update does, a register file after `x[t] <- v` reads as before elsewhere (rule R70). -/
theorem readX_ne_of_setX {s s' : State} {t k : Nat} {v : Word} (hx : s'.x = setX s.x t v) (hk : k ≠ t) :
    s'.readX k = s.readX k := by
  have hw := readX_writeX_ne s t k v hk
  rw [writeX_eq] at hw
  rw [← hw, State.readX, State.readX, hx]

@[simp] theorem afterStore_readX (s : State) (off : Word) (t k : Nat) : (s.afterStore off t).readX k = s.readX k := rfl

@[simp] theorem afterMerge_readX (s : State) (n : AccName) (r : SysRegId) (v m : Word) (d k : Nat) :
    (s.afterMerge n r v m d).readX k = s.readX k := by
  cases r <;> rfl

/-! ### The System registers after an access -/

@[simp] theorem afterLoad_reg (s : State) (off : Word) (t : Nat) (r : SysRegId) :
    (s.afterLoad off t).reg r = s.reg r := by
  cases r <;> rfl

@[simp] theorem afterStore_reg (s : State) (off : Word) (t : Nat) (r : SysRegId) :
    (s.afterStore off t).reg r = s.reg r := by
  cases r <;> rfl

@[simp] theorem afterRead_reg (s : State) (n : AccName) (q : SysRegId) (t : Nat) (r : SysRegId) :
    (s.afterRead n q t).reg r = s.reg r := by
  cases r <;> rfl

@[simp] theorem afterMerge_mem (s : State) (n : AccName) (r : SysRegId) (v m : Word) (d : Nat) :
    (s.afterMerge n r v m d).mem = s.mem := by
  cases r <;> rfl

/-- A merge leaves the masked write of the stored value before (rules R22, R64). -/
theorem afterMerge_stored_self (s : State) (n : AccName) (r : SysRegId) (v m : Word) (d : Nat) :
    ((s.afterMerge n r v m d).reg r).stored = maskedWrite (s.reg r).stored v m := by
  rw [afterMerge_reg_self, stored_push]

/-- Every MRS that completes leaves the four System registers alone. -/
theorem exec_read_reg {i : Instr} {s s' : State} (hi : i.isRead = true) (h : exec i s = .next s') (r : SysRegId) :
    s'.reg r = s.reg r := by
  obtain ⟨off, -, -, rfl⟩ | ⟨-, rfl⟩ := exec_read_next i s s' hi h
  · exact afterLoad_reg s off i.operand r
  · exact afterRead_reg s i.accessor _ i.operand r

/-! ### Instructions at EL1 -/

/-- The three things an instruction that completes at EL1 under FEAT_SRMASK can do to the System registers: nothing; a
write of `SCTLR2_EL1` merged under the effective mask; a write of `SCTLR2MASK_EL1` while that mask is zero. -/
theorem exec_el1_regs {i : Instr} {s s' : State} (he : s.env.EL = .el1) (hf : s.cfg.FEAT_SRMASK = true)
    (h : exec i s = .next s') :
    (∀ r, s'.reg r = s.reg r) ∨
    (∃ n v d, s' = s.afterMerge n .sctlr2El1 v s.effectiveMask1.1 d) ∨
    (s.effectiveMask1.1 = 0#64 ∧ ∃ v d, s' = s.afterMerge .sctlr2MaskEl1 .sctlr2MaskEl1 v 0#64 d) := by
  cases hi : i.isRead
  case true => exact .inl (exec_read_reg hi h)
  case false =>
    cases hr : s.redirect i.accessor
    case none =>
      obtain ⟨-, hs⟩ | ⟨-, hz, hs⟩ := exec_write_el1 i s s' hi he hr h
      · rw [State.afterMasked, if_pos hf] at hs
        exact .inr (.inl ⟨_, _, _, hs⟩)
      · exact .inr (.inr ⟨hz, _, _, hs⟩)
    case some off =>
      obtain ⟨off', -, -, rfl⟩ | ⟨hn, -⟩ := exec_write_next i s s' hi h
      · exact .inl (afterStore_reg s off' i.operand)
      · rw [hn] at hr; cases hr

/-- An instruction that completes at EL1 keeps the stored bits of `SCTLR2_EL1` under the effective mask (rules R62, R64). -/
theorem exec_el1_keeps_masked {i : Instr} {s s' : State} (he : s.env.EL = .el1) (hf : s.cfg.FEAT_SRMASK = true)
    (h : exec i s = .next s') :
    s'.sctlr2El1.stored &&& s.effectiveMask1.1 = s.sctlr2El1.stored &&& s.effectiveMask1.1 := by
  obtain hall | ⟨n, v, d, rfl⟩ | ⟨hz, -⟩ := exec_el1_regs he hf h
  · have hreg : s'.sctlr2El1 = s.sctlr2El1 := hall .sctlr2El1
    rw [hreg]
  · have hst := afterMerge_stored_self s n .sctlr2El1 v s.effectiveMask1.1 d
    exact (congrArg (· &&& s.effectiveMask1.1) hst).trans (maskedWrite_and_mask _ _ _)
  · simp [hz]

/-- An instruction that completes at EL1 reaches neither register of EL2. -/
theorem exec_el1_keeps_el2 {i : Instr} {s s' : State} (he : s.env.EL = .el1) (hf : s.cfg.FEAT_SRMASK = true)
    (h : exec i s = .next s') : s'.sctlr2El2 = s.sctlr2El2 ∧ s'.sctlr2MaskEl2 = s.sctlr2MaskEl2 := by
  obtain hall | ⟨n, v, d, rfl⟩ | ⟨-, v, d, rfl⟩ := exec_el1_regs he hf h
  · exact ⟨hall .sctlr2El2, hall .sctlr2MaskEl2⟩
  · exact ⟨rfl, rfl⟩
  · exact ⟨rfl, rfl⟩

/-- The lock (rule R67): only a zero effective mask lets an instruction at EL1 write the mask, and then by the mask's own
name. -/
theorem exec_el1_mask {i : Instr} {s s' : State} (he : s.env.EL = .el1) (hf : s.cfg.FEAT_SRMASK = true)
    (h : exec i s = .next s') :
    s'.sctlr2MaskEl1 = s.sctlr2MaskEl1 ∨ (s.effectiveMask1.1 = 0#64 ∧
      ∃ w : PendingWrite, w.name = .sctlr2MaskEl1 ∧
        s'.sctlr2MaskEl1 = ⟨s.sctlr2MaskEl1.base, s.sctlr2MaskEl1.pending ++ [w]⟩) := by
  obtain hall | ⟨n, v, d, rfl⟩ | ⟨hz, v, d, rfl⟩ := exec_el1_regs he hf h
  · exact .inl (hall .sctlr2MaskEl1)
  · exact .inl rfl
  · exact .inr ⟨hz, ⟨.sctlr2MaskEl1, v, 0#64⟩, rfl, rfl⟩

/-- Settles O50, from the three things an instruction at EL1 can do. -/
theorem maskedFieldsSurviveEl1 : Obligations.MaskedFieldsSurviveEl1 := by
  intro i s s' he hf h
  obtain ⟨hel2, hmask2⟩ := exec_el1_keeps_el2 he hf h
  exact ⟨exec_el1_keeps_masked he hf h, hel2, hmask2, (exec_el1_mask he hf h).symm.imp_left And.left⟩

/-! ### Runs at EL1 -/

/-- A mask written by its own name only has an effective mask that depends on the register, the configuration and the
inputs, and on no draw (rule R98 (a)). -/
theorem effectiveMask1_of_own {s : State} (h : ∀ w ∈ s.sctlr2MaskEl1.pending, w.name = .sctlr2MaskEl1) :
    s.effectiveMask1 = (Config.effMask1 s.sctlr2MaskEl1.stored s.cfg s.env, s.draws) := by
  simp only [State.effectiveMask1, view_of_own _ _ _ h]

/-- The same for the mask register of EL2. -/
theorem effectiveMask2_of_own {s : State} (h : ∀ w ∈ s.sctlr2MaskEl2.pending, w.name = .sctlr2MaskEl1) :
    s.effectiveMask2 = (Config.effMask2 s.sctlr2MaskEl2.stored s.cfg s.env, s.draws) := by
  simp only [State.effectiveMask2, view_of_own _ _ _ h]

/-- With no outside event to come, a step that answers a next state is an instruction. -/
theorem step_next_of_inbox_nil {s s' : State} (hin : s.inbox = []) (h : step s = .next s') :
    ∃ i, s.fetch = .ok i ∧ exec i s = .next s' := by
  obtain ⟨ev, rest, hev, -⟩ | ⟨rest, i, hrest, hf, hx⟩ := step_next h
  · rw [hin] at hev; cases hev
  · obtain ⟨-, rfl⟩ | hr := hrest
    · refine ⟨i, hf, ?_⟩
      rw [← hin] at hx; exact hx
    · rw [hin] at hr; cases hr

/-- What the run of O51 starts from, and keeps. -/
structure State.MaskedEl1 (s : State) : Prop where
  level : s.env.EL = .el1
  srmask : s.cfg.FEAT_SRMASK = true
  alone : s.inbox = []
  own : ∀ w ∈ s.sctlr2MaskEl1.pending, w.name = .sctlr2MaskEl1

/-- One instruction keeps what the run starts from. -/
theorem exec_keeps_maskedEl1 {i : Instr} {s s' : State} (hs : s.MaskedEl1) (h : exec i s = .next s') :
    s'.MaskedEl1 := by
  obtain ⟨hcfg, henv, hin, -⟩ := exec_next_fixed h
  refine ⟨by rw [henv]; exact hs.level, by rw [hcfg]; exact hs.srmask, by rw [hin]; exact hs.alone, ?_⟩
  obtain hm | ⟨-, w, hw, hm⟩ := exec_el1_mask hs.level hs.srmask h
  · rw [hm]; exact hs.own
  · rw [hm]
    intro q hq
    obtain hq | hq := List.mem_append.1 hq
    · exact hs.own q hq
    · rw [List.mem_singleton.1 hq]; exact hw

/-- What the run of O51 keeps, from its first state to its last. -/
structure LockHolds (s s' : State) : Prop where
  mask : s.effectiveMask1.1 = 0#64 ∨ s'.sctlr2MaskEl1 = s.sctlr2MaskEl1
  env : s'.env = s.env
  cfg : s'.cfg = s.cfg
  fields : s'.sctlr2El1.stored &&& s.effectiveMask1.1 = s.sctlr2El1.stored &&& s.effectiveMask1.1

/-- One instruction at EL1 holds the lock. -/
theorem exec_lockHolds {i : Instr} {s s' : State} (hs : s.MaskedEl1) (h : exec i s = .next s') : LockHolds s s' := by
  obtain ⟨hcfg, henv, -⟩ := exec_next_fixed h
  exact ⟨(exec_el1_mask hs.level hs.srmask h).symm.imp_left And.left, henv, hcfg,
    exec_el1_keeps_masked hs.level hs.srmask h⟩

/-- A mask register that is as before gives the same effective mask. -/
theorem effectiveMask1_congr {s s1 : State} (hs : s.MaskedEl1) (hs1 : s1.MaskedEl1)
    (hm : s1.sctlr2MaskEl1 = s.sctlr2MaskEl1) (henv : s1.env = s.env) (hcfg : s1.cfg = s.cfg) :
    s1.effectiveMask1.1 = s.effectiveMask1.1 := by
  rw [effectiveMask1_of_own hs.own, effectiveMask1_of_own hs1.own, hm, henv, hcfg]

/-- The lock composes: while the effective mask is not zero, no stretch changes the mask, so every stretch has the same
effective mask. -/
theorem LockHolds.trans {s s1 s2 : State} (hs : s.MaskedEl1) (hs1 : s1.MaskedEl1) (h : LockHolds s s1)
    (h1 : LockHolds s1 s2) : LockHolds s s2 := by
  have henv := h1.env.trans h.env
  have hcfg := h1.cfg.trans h.cfg
  obtain hz | hm := h.mask
  · exact ⟨.inl hz, henv, hcfg, by simp [hz]⟩
  · have hem := effectiveMask1_congr hs hs1 hm h.env h.cfg
    have hmask := h1.mask
    have hfields := h1.fields
    rw [hem] at hmask hfields
    exact ⟨hmask.imp_right (·.trans hm), henv, hcfg, hfields.trans h.fields⟩

/-- Every run at EL1 holds the lock, by induction on the number of steps. -/
theorem run_lockHolds (k : Nat) : ∀ s s' : State, s.MaskedEl1 → Host.Core.run Sys2Proof.core k s = .next s' →
    LockHolds s s' := by
  induction k with
  | zero =>
    intro s s' _ h
    cases h
    exact ⟨.inr rfl, rfl, rfl, rfl⟩
  | succ k ih =>
    intro s s' hs h
    obtain ⟨s1, hstep, hrun⟩ := core_run_next h
    obtain ⟨i, -, hx⟩ := step_next_of_inbox_nil hs.alone hstep
    have hs1 := exec_keeps_maskedEl1 hs hx
    exact (exec_lockHolds hs hx).trans hs hs1 (ih s1 s' hs1 hrun)

/-- Settles O51: every run at EL1 holds the lock. -/
theorem lockedMaskHoldsForAnEl1Run : Obligations.LockedMaskHoldsForAnEl1Run := by
  intro k s s' he hf hin hown h
  have hl := run_lockHolds k s s' ⟨he, hf, hin, hown⟩ h
  exact ⟨hl.mask, hl.env, hl.cfg, hl.fields⟩

end Sys2Proof.Machine
end

section
/-!
PROOFS. The invariant of every step: memory, program counter and writers, first for an instruction, then for an outside
event.
-/

namespace Sys2Proof.Machine

/-! ### Memory -/

/-- Two offsets only occur (rule R91), so a redirected access is at a slot that is a multiple of 8 below 2^64. -/
theorem redirect_slot {s : State} {n : AccName} {off : Word} (hr : s.redirect n = some off)
    (ha : s.nvAligned = true) : (s.nvAddr off).toNat % 8 = 0 ∧ (s.nvAddr off).toNat + 8 ≤ 2 ^ 64 := by
  obtain ⟨nv, hs, -, -⟩ := redirect_some hr
  exact nvAddr_slot s off ha (slotOf_offset n nv off hs)

/-- An instruction that completes keeps memory canonical. -/
theorem exec_keeps_wf {i : Instr} {s s' : State} (hw : Memory.wf s.mem) (h : exec i s = .next s') :
    Memory.wf s'.mem := by
  obtain hm | ⟨off, hr, -, ⟨⟨ha, -⟩, -⟩, rfl⟩ := exec_next_mem h
  · rw [hm]; exact hw
  · exact write64_wf s.mem _ _ _ hw (redirect_slot hr ha).2

/-! ### The program counter -/

theorem pcAligned_iff (s : State) : s.pcAligned = true ↔ s.pc.extractLsb' 0 2 = 0#2 := by
  simp [State.pcAligned]

/-- An instruction that completes keeps the program counter aligned. -/
theorem exec_keeps_pcAligned {i : Instr} {s s' : State} (hp : s.pcAligned = true) (h : exec i s = .next s') :
    s'.pcAligned = true := by
  obtain ⟨-, -, -, -, -, hpc⟩ := exec_next_fixed h
  rw [pcAligned_iff, hpc]
  exact nextPc_aligned s hp

/-- An outside event keeps the program counter aligned: only a Warm reset changes it. -/
theorem applyEvent_keeps_pcAligned (ev : Event) {s : State} (hp : s.pcAligned = true) :
    (applyEvent ev s).pcAligned = true := by
  cases ev with
  | instruction | setEnv e | sync | tlbMaintenance => exact hp
  | warmReset e => exact (pcAligned_iff _).2 (warmReset_pc s e)

/-! ### The unsynchronised writes -/

/-- Every unsynchronised write is by a name that reaches its register (rules R137, R164). -/
def State.WritersReach (s : State) : Prop := ∀ r, ∀ w ∈ (s.reg r).pending, w.name ∈ r.writers

/-- The invariant in its three parts. -/
theorem inv_iff (s : State) : s.Inv ↔ Memory.wf s.mem ∧ s.pcAligned = true ∧ s.WritersReach := Iff.rfl

/-- An instruction that completes adds at most one write, by a name that reaches its register. -/
theorem exec_keeps_writersReach {i : Instr} {s s' : State} (hw : s.WritersReach) (h : exec i s = .next s') :
    s'.WritersReach := by
  intro r w hmem
  obtain heq | ⟨hr, q, hq, hpend⟩ := exec_next_pending h r
  · rw [heq] at hmem; exact hw r w hmem
  · rw [hpend, List.mem_append, List.mem_singleton] at hmem
    obtain hmem | rfl := hmem
    · exact hw r w hmem
    · rw [hq, hr]; exact mem_writers_reaches s i.accessor

/-- A Warm reset leaves a register alone or with nothing unsynchronised. -/
theorem warmReset_pending (s : State) (e : Env) (r : SysRegId) :
    (s.warmReset e).reg r = s.reg r ∨ ((s.warmReset e).reg r).pending = [] := by
  cases r <;> exact resetReg_pending _ _ _ _

/-- An outside event leaves a register alone or with nothing unsynchronised. -/
theorem applyEvent_pending (ev : Event) (s : State) (r : SysRegId) :
    (applyEvent ev s).reg r = s.reg r ∨ ((applyEvent ev s).reg r).pending = [] := by
  cases ev with
  | instruction | setEnv e | tlbMaintenance => exact .inl (by cases r <;> rfl)
  | sync => exact .inr (syncAll_pending s r)
  | warmReset e => exact warmReset_pending s e r

/-- An outside event adds no write. -/
theorem applyEvent_keeps_writersReach (ev : Event) {s : State} (hw : s.WritersReach) :
    (applyEvent ev s).WritersReach := by
  intro r w hmem
  obtain heq | hnil := applyEvent_pending ev s r
  · rw [heq] at hmem; exact hw r w hmem
  · rw [hnil] at hmem; cases hmem

/-! ### Every step -/

/-- An instruction that completes keeps the invariant. -/
theorem exec_keeps_inv {i : Instr} {s s' : State} (hs : s.Inv) (h : exec i s = .next s') : s'.Inv := by
  obtain ⟨hmem, hpc, hwr⟩ := (inv_iff s).1 hs
  exact ⟨exec_keeps_wf hmem h, exec_keeps_pcAligned hpc h, exec_keeps_writersReach hwr h⟩

/-- An outside event keeps the invariant. -/
theorem applyEvent_keeps_inv (ev : Event) {s : State} (hs : s.Inv) : (applyEvent ev s).Inv := by
  obtain ⟨hmem, hpc, hwr⟩ := (inv_iff s).1 hs
  refine ⟨?_, applyEvent_keeps_pcAligned ev hpc, applyEvent_keeps_writersReach ev hwr⟩
  rw [applyEvent_mem]; exact hmem

/-- The inbox is no System register. -/
theorem withInbox_reg (s : State) (rest : List Event) (r : SysRegId) :
    ({ s with inbox := rest } : State).reg r = s.reg r := by
  cases r <;> rfl

/-- The invariant does not speak of the inbox. -/
theorem inv_with_inbox {s : State} (rest : List Event) (hs : s.Inv) : ({ s with inbox := rest } : State).Inv := by
  obtain ⟨hmem, hpc, hwr⟩ := (inv_iff s).1 hs
  exact ⟨hmem, hpc, fun r w hw => hwr r w (by rwa [withInbox_reg] at hw)⟩

/-- Settles O59: a step is an outside event or an instruction, and each keeps the invariant. -/
theorem stepKeepsInvariant : Obligations.StepKeepsInvariant := by
  intro s s' hs h
  obtain ⟨ev, rest, -, -, rfl⟩ | ⟨rest, i, -, -, hx⟩ := step_next h
  · exact applyEvent_keeps_inv ev (inv_with_inbox rest hs)
  · exact exec_keeps_inv (inv_with_inbox rest hs) hx

end Sys2Proof.Machine
end

section
/-!
PROOFS. The decoder on the encoder's words, the fetch of a placed word, and what a step does for each head of the inbox.
-/

namespace Sys2Proof.Machine

/-! ### The decoder -/

/-- The masked bits of an instruction's word are those of its row (rules R111 to R113), and the first row that has them
is its own. -/
theorem find_row_of_encode (i : Instr) (h : i.WellFormed) :
    ∃ row, rows.find? (fun r => encode i &&& rowMask == r.pattern) = some row ∧ row.make i.operand = i := by
  obtain ⟨-, hmask⟩ := Laws.EncodeFields.of_wellFormed i h
  rw [hmask]
  cases i <;> simp [rows, rowMask, sysWord, Instr.isRead, Instr.accessor, AccName.tuple, Instr.operand]

/-- Decoding an instruction's word gives the instruction. -/
theorem decodeWord_encode (i : Instr) (h : i.WellFormed) : decodeWord (encode i) = some i := by
  obtain ⟨row, hfind, hmake⟩ := find_row_of_encode i h
  obtain ⟨hrt, -⟩ := Laws.EncodeFields.of_wellFormed i h
  rw [decodeWord, hfind, hrt, Option.map_some, hmake]

/-- The bytes of a word joined are the word (rule R117). -/
theorem wordOfBytes_bytesOfWord (w : InstrWord) :
    wordOfBytes (w.extractLsb' 0 8) (w.extractLsb' 8 8) (w.extractLsb' 16 8) (w.extractLsb' 24 8) = w := by
  unfold wordOfBytes
  ext i hi
  simp only [BitVec.getElem_append, BitVec.getElem_extractLsb']
  split
  · simp [BitVec.getLsbD_eq_getElem hi]
  split
  · rw [show 8 + (i - 8) = i by omega, BitVec.getLsbD_eq_getElem hi]
  split
  · rw [show 16 + (i - 8 - 8) = i by omega, BitVec.getLsbD_eq_getElem hi]
  · rw [show 24 + (i - 8 - 8 - 8) = i by omega, BitVec.getLsbD_eq_getElem hi]

/-- Decoding the bytes of an instruction gives the instruction. -/
theorem decodeBytes_encodeBytes (i : Instr) (h : i.WellFormed) : decodeBytes (encodeBytes i) = .ok (i, []) := by
  simp only [encodeBytes, bytesOfWord, decodeBytes, wordOfBytes_bytesOfWord, decodeWord_encode i h]

/-! ### One instruction -/

/-- The fetch answers what the four bytes at an aligned program counter in the program text decode to. -/
theorem fetch_of_decode {s : State} {i : Instr} {bs : List Byte} (ha : s.pcAligned = true)
    (ht : s.pcInText = true) (hd : decodeBytes s.fetchBytes = .ok (i, bs)) : s.fetch = .ok i := by
  simp [State.fetch, ha, ht, hd]

/-- When the inbox is empty or says so, a step is one instruction on the state with that entry taken. -/
theorem step_of_instruction {s : State} {rest : List Event}
    (h : s.inbox = [] ∧ rest = [] ∨ s.inbox = .instruction :: rest) :
    step s = runInstruction { s with inbox := rest } := by
  obtain ⟨hin, rfl⟩ | hin := h
  · rw [step, hin]
    exact congrArg runInstruction (by rw [← hin])
  · rw [step, hin]

/-- The step on a fetched instruction is `exec` of it: the fetch does not read the inbox. -/
theorem step_of_fetch {s : State} {i : Instr} {rest : List Event}
    (h : s.inbox = [] ∧ rest = [] ∨ s.inbox = .instruction :: rest) (hf : s.fetch = .ok i) :
    step s = exec i { s with inbox := rest } := by
  have hf' : ({ s with inbox := rest } : State).fetch = .ok i := hf
  rw [step_of_instruction h, runInstruction, hf']

/-- Settles O6: the fetch answers the decoded instruction, and the step runs it. -/
theorem stepRunsDecodedInstruction : Obligations.StepRunsDecodedInstruction := by
  intro s i rest hin ha ht hd _
  exact step_of_fetch hin (fetch_of_decode ha ht hd)

/-! ### A placed word -/

/-- A program counter rounded down to a multiple of 4 is aligned. -/
theorem placeWord_pcAligned (s : State) (n w : Nat) : (s.placeWord n w).pcAligned = true := by
  rw [pcAligned_iff]
  change (s.pc &&& ~~~3#64).extractLsb' 0 2 = 0#2
  have hlow : (~~~3#64 : Word).extractLsb' 0 2 = 0#2 := by decide
  rw [BitVec.extractLsb'_and, hlow, BitVec.and_zero]

/-- The four bytes of a placed word are program text: they were, or the text is now just them. -/
theorem placeWord_pcInText (s : State) (n w : Nat) : (s.placeWord n w).pcInText = true := by
  change (List.range 4).all (fun i => (if (List.range 4).all (fun i => s.text.contains
    ((s.pc &&& ~~~3#64).toNat + i)) then s.text else ⟨(s.pc &&& ~~~3#64).toNat, 4⟩ : TextRegion).contains
    ((s.pc &&& ~~~3#64).toNat + i)) = true
  split
  · assumption
  · simp [TextRegion.contains]

/-- The four bytes at the program counter of a placed word are the word's, least significant first. -/
theorem placeWord_fetchBytes (s : State) (w : InstrWord) (hm : Memory.wf s.mem) :
    (s.placeWord 32 w.toNat).fetchBytes = bytesOfWord w := by
  have hw : BitVec.ofNat 32 (w.toNat % 2 ^ 32) = w := by
    rw [Nat.mod_eq_of_lt w.isLt, BitVec.ofNat_toNat, BitVec.setWidth_eq]
  have hread : ∀ k (hk : k < 4), Memory.readByte (s.placeWord 32 w.toNat).mem
      ((s.placeWord 32 w.toNat).pc.toNat + k) = (bytesOfWord w)[k]'hk := by
    intro k hk
    have hin := readByte_writeBytes_inside (bytesOfWord w) s.mem (s.pc &&& ~~~3#64).toNat k hm.1 hk
    simpa only [State.placeWord, hw] using hin
  apply List.ext_getElem
  · rfl
  · intro k _ hk
    simp only [State.fetchBytes, List.getElem_map, List.getElem_range]
    exact hread k hk

/-- Placing a word leaves the inbox saying that an instruction runs now. -/
theorem placeWord_inbox (s : State) (n w : Nat) :
    (s.placeWord n w).inbox = [] ∧ s.inbox = [] ∨ (s.placeWord n w).inbox = .instruction :: s.inbox := by
  cases h : s.inbox <;> simp [State.placeWord, h]

/-- Settles O8: a placed word is fetched, decodes to its instruction, and the step runs it. -/
theorem placedWordRuns : Obligations.PlacedWordRuns := by
  intro i s hi hm
  have hd := decodeBytes_encodeBytes i hi
  rw [encodeBytes, ← placeWord_fetchBytes s (encode i) hm] at hd
  exact step_of_fetch (placeWord_inbox s 32 _)
    (fetch_of_decode (placeWord_pcAligned s 32 _) (placeWord_pcInText s 32 _) hd)

/-! ### Outside events -/

/-- An outside event at the head of the inbox is a step of its own (log entry 2). -/
theorem step_of_event {s : State} {ev : Event} {rest : List Event} (h : s.inbox = ev :: rest)
    (hne : ev ≠ .instruction) : step s = .next (applyEvent ev { s with inbox := rest }) := by
  rw [step, h]
  cases ev with
  | instruction => exact absurd rfl hne
  | setEnv e | sync | tlbMaintenance | warmReset e => rfl

/-- Settles O9: the step applies the event at the head, and each event is the update the statement writes. -/
theorem outsideEventsTakeEffect : Obligations.OutsideEventsTakeEffect := by
  intro s rest e
  exact ⟨fun h => step_of_event h (by simp), fun h => step_of_event h (by simp),
    fun h => step_of_event h (by simp), fun h => step_of_event h (by simp)⟩

end Sys2Proof.Machine
end

section
/-!
PROOFS. The frame and the value of every completed MRS and MSR, and the lock of the mask register.
-/

namespace Sys2Proof.Machine

/-! ### The address of a slot and the masked write -/

/-- Below the top of the address range a slot lies at base plus offset (rule R90). -/
theorem nvAddr_of_lt {s : State} {off : Word} (h : s.env.NVBase.toNat + off.toNat < 2 ^ 64) :
    s.nvAddr off = s.env.NVBase + off :=
  if_pos h

/-- Of two masked writes under one mask the last wins, since the masked bits of both results are the old ones. -/
theorem maskedWrite_maskedWrite (old a b m : Word) :
    maskedWrite (maskedWrite old a m) b m = maskedWrite old b m := by
  apply BitVec.eq_of_getLsbD_eq
  intro i hi
  simp only [getLsbD_maskedWrite _ _ _ i hi]
  split <;> rfl

/-! ### A completed MRS -/

/-- A completed MRS changes the destination, the program counter and the count of draws, and nothing else (rules R70, R72,
R97). -/
theorem exec_read_frame {i : Instr} {s s' : State} (hi : i.isRead = true) (h : exec i s = .next s') :
    (∃ v, s'.x = setX s.x i.operand v) ∧ s'.tlbEmec = s.tlbEmec ∧ s'.mem = s.mem := by
  obtain ⟨off, -, -, rfl⟩ | ⟨-, rfl⟩ := exec_read_next i s s' hi h
  · exact ⟨⟨_, rfl⟩, rfl, rfl⟩
  · exact ⟨⟨_, rfl⟩, rfl, rfl⟩

/-- A completed MRS that is redirected reads its slot (rules R90, R91). -/
theorem exec_read_slot {i : Instr} {s s' : State} {off : Word} (hi : i.isRead = true) (ht : i.operand < 31)
    (hr : s.redirect i.accessor = some off) (h : exec i s = .next s') :
    s'.readX i.operand = Memory.read64 s.mem s.cfg.NVBigEndian (s.nvAddr off).toNat := by
  obtain ⟨off', hr', -, rfl⟩ | ⟨hn, -⟩ := exec_read_next i s s' hi h
  · rw [hr] at hr'
    cases hr'
    exact readX_self_of_setX rfl ht
  · rw [hr] at hn; cases hn

/-- A completed MRS that is not redirected reads what its name finds in the register it reaches (rules R22, R95). -/
theorem exec_read_view {i : Instr} {s s' : State} (hi : i.isRead = true) (ht : i.operand < 31)
    (hr : s.redirect i.accessor = none) (h : exec i s = .next s') :
    s'.readX i.operand = directRead s.cfg s.env (s.reaches i.accessor)
      ((s.reg (s.reaches i.accessor)).view i.accessor s.draws).1 := by
  obtain ⟨off, hr', -⟩ | ⟨-, rfl⟩ := exec_read_next i s s' hi h
  · rw [hr] at hr'; cases hr'
  · exact readX_self_of_setX rfl ht

/-- Settles O39, from what a redirected and what a direct read put in `x[t]`. -/
theorem valueReadByMrs : Obligations.ValueReadByMrs := by
  intro i s s' hi ht h
  refine ⟨fun off hr => ⟨exec_read_slot hi ht hr h, nvAddr_of_lt⟩, fun hr hown => ?_⟩
  rw [exec_read_view hi ht hr h, view_of_own _ _ _ hown]

/-- The six MRS forms of operand `t`. -/
theorem isRead_of_mem_reads {t : Nat} {i : Instr} (hi : i ∈ [Instr.mrsSctlr2El1 t, .mrsSctlr2El12 t,
    .mrsSctlr2AliasEl1 t, .mrsSctlr2El2 t, .mrsSctlr2MaskEl1 t, .mrsSctlr2MaskEl12 t]) :
    i.isRead = true ∧ i.operand = t := by
  simp only [List.mem_cons, List.not_mem_nil, or_false] at hi
  obtain rfl | rfl | rfl | rfl | rfl | rfl := hi <;> exact ⟨rfl, rfl⟩

/-- Settles O48, from the frame of a completed MRS. -/
theorem readsChangeOnlyDestination : Obligations.ReadsChangeOnlyDestination := by
  intro t s s' i hmem h
  obtain ⟨hi, rfl⟩ := isRead_of_mem_reads hmem
  obtain ⟨hcfg, henv, hin, htext, hps, hpc⟩ := exec_next_fixed h
  obtain ⟨⟨v, hx⟩, htlb, hm⟩ := exec_read_frame hi h
  exact ⟨fun k hk => readX_ne_of_setX hx hk, hpc, fun hlt => hpc.trans (nextPc_of_lt s hlt), hps,
    exec_read_reg hi h, htlb, hm, fun a => by rw [hm], htext, hcfg, henv, hin⟩

/-! ### A completed MSR -/

/-- The six MSR forms of operand `t`. -/
theorem isWrite_of_mem_writes {t : Nat} {i : Instr} (hi : i ∈ [Instr.msrSctlr2El1 t, .msrSctlr2El12 t,
    .msrSctlr2AliasEl1 t, .msrSctlr2El2 t, .msrSctlr2MaskEl1 t, .msrSctlr2MaskEl12 t]) : i.isRead = false := by
  simp only [List.mem_cons, List.not_mem_nil, or_false] at hi
  obtain rfl | rfl | rfl | rfl | rfl | rfl := hi <;> rfl

/-- A completed MSR leaves every general register alone. -/
theorem exec_write_readX {i : Instr} {s s' : State} (hi : i.isRead = false) (h : exec i s = .next s') (k : Nat) :
    s'.readX k = s.readX k := by
  obtain ⟨off, -, -, rfl⟩ | ⟨-, m, d, rfl, -⟩ := exec_write_next i s s' hi h
  · exact afterStore_readX s off i.operand k
  · exact afterMerge_readX s _ _ _ m d k

/-- A completed MSR that is redirected stores to its slot (rules R90, R91). -/
theorem exec_write_slot {i : Instr} {s s' : State} {off : Word} (hi : i.isRead = false)
    (hr : s.redirect i.accessor = some off) (h : exec i s = .next s') : s' = s.afterStore off i.operand := by
  obtain ⟨off', hr', -, hs⟩ | ⟨hn, -⟩ := exec_write_next i s s' hi h
  · rw [hr] at hr'
    cases hr'
    exact hs
  · rw [hr] at hn; cases hn

/-- A completed MSR that is not redirected writes the register its name reaches: whole where the name does not merge, else
under the effective mask of that register (rules R64, R137). -/
theorem exec_write_merge {i : Instr} {s s' : State} (hi : i.isRead = false) (hr : s.redirect i.accessor = none)
    (h : exec i s = .next s') : ∃ m d,
    s' = s.afterMerge i.accessor (s.reaches i.accessor) (s.readX i.operand) m d ∧
    (s.merges i.accessor = false → m = 0#64) ∧
    (s.merges i.accessor = true → s.reaches i.accessor = .sctlr2El1 → m = s.effectiveMask1.1) ∧
    (s.merges i.accessor = true → s.reaches i.accessor = .sctlr2El2 → m = s.effectiveMask2.1) := by
  obtain ⟨off, hr', -⟩ | ⟨-, m, d, hs, hwhole, h1, h2⟩ := exec_write_next i s s' hi h
  · rw [hr] at hr'; cases hr'
  · exact ⟨m, d, hs, hwhole, fun hm hq => congrArg Prod.fst (h1 hm hq), fun hm hq => congrArg Prod.fst (h2 hm hq)⟩

/-- What an NVMem store leaves alone: the System registers, the earlier EMEC values, and every byte outside the eight. -/
theorem afterStore_frame (s : State) (off : Word) (t : Nat) (hm : Memory.wf s.mem) :
    (∀ r, (s.afterStore off t).reg r = s.reg r) ∧ (s.afterStore off t).tlbEmec = s.tlbEmec ∧
    ∀ a, a < (s.nvAddr off).toNat ∨ (s.nvAddr off).toNat + 8 ≤ a →
      Memory.readByte (s.afterStore off t).mem a = Memory.readByte s.mem a :=
  ⟨afterStore_reg s off t, rfl, fun _ ha => readByte_write64_outside _ _ _ _ _ hm.1 ha⟩

/-- A merge into a register other than `SCTLR2_EL2` leaves the earlier EMEC values alone. -/
theorem afterMerge_tlbEmec_ne (s : State) (n : AccName) (r : SysRegId) (v m : Word) (d : Nat) (h : r ≠ .sctlr2El2) :
    (s.afterMerge n r v m d).tlbEmec = s.tlbEmec :=
  pushWrite_tlbEmec_ne s r _ h

/-- Settles O49, from the frame of a store and the frame of a merge. -/
theorem writesChangeOnlyTheirTarget : Obligations.WritesChangeOnlyTheirTarget := by
  intro t s s' i hmem h hw
  have hi := isWrite_of_mem_writes hmem
  obtain ⟨hcfg, henv, hin, htext, hps, hpc⟩ := exec_next_fixed h
  refine ⟨exec_write_readX hi h, hpc, fun hlt => hpc.trans (nextPc_of_lt s hlt), hps, htext, hcfg, henv, hin,
    fun off hr => ⟨nvAddr_of_lt, ?_⟩, fun hr => ?_⟩
  · rw [exec_write_slot hi hr h]
    exact afterStore_frame s off i.operand hw
  · obtain ⟨m, d, rfl, -⟩ := exec_write_merge hi hr h
    exact ⟨fun a => by rw [afterMerge_mem], afterMerge_mem s _ _ _ m d,
      fun r hne => afterMerge_reg_ne s _ _ r _ m d hne, afterMerge_tlbEmec_ne s _ _ _ m d⟩

/-! ### The stored value after an MSR -/

/-- The places an MSR merges: at EL1 and at EL2 in host by the names `SCTLR2_EL1` and `SCTLR2ALIAS_EL1`, at EL2 by the name
`SCTLR2_EL2` (rule R137). -/
theorem merges_iff (s : State) (n : AccName) : s.merges n = true ↔ s.cfg.FEAT_SRMASK = true ∧
    ((n = .sctlr2El1 ∨ n = .sctlr2AliasEl1) ∧ (s.env.EL = .el1 ∨ s.env.EL = .el2 ∧ s.env.EL2InHost = true) ∨
      n = .sctlr2El2 ∧ s.env.EL = .el2) := by
  cases n <;> simp [State.merges]

/-- At EL1 the two names reach `SCTLR2_EL1`. -/
theorem reaches_el1 {s : State} {n : AccName} (hn : n = .sctlr2El1 ∨ n = .sctlr2AliasEl1) (he : s.env.EL = .el1) :
    s.reaches n = .sctlr2El1 := by
  obtain rfl | rfl := hn <;> simp [State.reaches, he]

/-- At EL2 in host the two names reach `SCTLR2_EL2`. -/
theorem reaches_el2_inHost {s : State} {n : AccName} (hn : n = .sctlr2El1 ∨ n = .sctlr2AliasEl1)
    (he : s.env.EL = .el2) (hh : s.env.EL2InHost = true) : s.reaches n = .sctlr2El2 := by
  obtain rfl | rfl := hn <;> simp [State.reaches, he, hh]

/-- The five masked places, as the chain the statement writes; every other MSR stores `x[t]` whole. -/
theorem exec_write_stored {i : Instr} {s s' : State} (hi : i.isRead = false) (hr : s.redirect i.accessor = none)
    (h : exec i s = .next s') :
    (s'.reg (s.reaches i.accessor)).stored =
      if s.cfg.FEAT_SRMASK = true ∧ (i.accessor = .sctlr2El1 ∨ i.accessor = .sctlr2AliasEl1) ∧
          s.env.EL = .el1 then
        maskedWrite s.sctlr2El1.stored (s.readX i.operand) s.effectiveMask1.1
      else if s.cfg.FEAT_SRMASK = true ∧ (i.accessor = .sctlr2El1 ∨ i.accessor = .sctlr2AliasEl1) ∧
          s.env.EL = .el2 ∧ s.env.EL2InHost = true then
        maskedWrite s.sctlr2El2.stored (s.readX i.operand) s.effectiveMask2.1
      else if s.cfg.FEAT_SRMASK = true ∧ i.accessor = .sctlr2El2 ∧ s.env.EL = .el2 then
        maskedWrite s.sctlr2El2.stored (s.readX i.operand) s.effectiveMask2.1
      else s.readX i.operand := by
  obtain ⟨m, d, rfl, hwhole, hmask1, hmask2⟩ := exec_write_merge hi hr h
  have hm := merges_iff s i.accessor
  rw [afterMerge_stored_self]
  split_ifs with hA hB hC
  · obtain ⟨hf, hn, he⟩ := hA
    have hq := reaches_el1 hn he
    rw [hmask1 (hm.2 ⟨hf, .inl ⟨hn, .inl he⟩⟩) hq, hq]; rfl
  · obtain ⟨hf, hn, he, hh⟩ := hB
    have hq := reaches_el2_inHost hn he hh
    rw [hmask2 (hm.2 ⟨hf, .inl ⟨hn, .inr ⟨he, hh⟩⟩⟩) hq, hq]; rfl
  · obtain ⟨hf, hn, he⟩ := hC
    have hq : s.reaches i.accessor = .sctlr2El2 := by rw [hn]; rfl
    rw [hmask2 (hm.2 ⟨hf, .inr ⟨hn, he⟩⟩) hq, hq]; rfl
  · have hnot : s.merges i.accessor = false := by
      rw [Bool.eq_false_iff, ne_eq, hm]
      rintro ⟨hf, ⟨hn, he | ⟨he, hh⟩⟩ | ⟨hn, he⟩⟩
      · exact hA ⟨hf, hn, he⟩
      · exact hB ⟨hf, hn, he, hh⟩
      · exact hC ⟨hf, hn, he⟩
    rw [hwhole hnot, maskedWrite_zero]

/-- Settles O38, from the masked write bit by bit and the value each access leaves. -/
theorem storedValueAfterMsr : Obligations.StoredValueAfterMsr := by
  refine ⟨fun old a b m => ⟨rfl, getLsbD_maskedWrite old a m, maskedWrite_maskedWrite old a b m⟩, ?_⟩
  intro i s s' h hr
  exact ⟨fun hi => exec_write_stored hi hr h, fun hi ht => exec_read_view hi ht hr h⟩

/-! ### The lock -/

/-- The branch an accessor whose name exists takes at EL1. -/
theorem byLevel_el1 {p : Bool} {s : State} (hp : p = true) (he : s.env.EL = .el1) (a b c : Out) :
    byLevel p s a b c = a := by
  simp [byLevel, hp, he]

/-- The branch an accessor whose name exists takes at EL2. -/
theorem byLevel_el2 {p : Bool} {s : State} (hp : p = true) (he : s.env.EL = .el2) (a b c : Out) :
    byLevel p s a b c = b := by
  simp [byLevel, hp, he]

/-- The branch an accessor whose name exists takes at EL3. -/
theorem byLevel_el3 {p : Bool} {s : State} (hp : p = true) (he : s.env.EL = .el3) (a b c : Out) :
    byLevel p s a b c = c := by
  simp [byLevel, hp, he]

/-- A locked write is UNDEFINED exactly when the effective mask is not zero (rules R67, R165). -/
theorem regWriteLocked_undefined_iff (n : AccName) (r : SysRegId) (em : Word × Nat) (t : Nat) (s : State) :
    regWriteLocked n r em t s = .fault .undefined ↔ em.1 ≠ 0#64 := by
  rw [regWriteLocked_eq]
  split <;> simp_all

/-- A whole register write answers a next state. -/
theorem regWrite_next (n : AccName) (r : SysRegId) (t : Nat) (s : State) : ∃ s', regWrite n r t s = .next s' :=
  ⟨_, regWrite_eq n r t s⟩

section
variable {s : State} (t : Nat) (hp : sctlr2MaskPresent s = true)
include hp

/-- `MSR SCTLR2MASK_EL1` at EL1, not redirected and past every check, is a locked write (rule R161 branches 9, 10). -/
theorem exec_msrMask_el1 (he : s.env.EL = .el1) (hnv : s.env.NVx ≠ 0b111#3)
    (h3 : El3Allows s s.env.SCR_EL3_SRMASKEn)
    (h2 : El2Allows s false (Fgt2Traps s s.env.HFGWTR2_EL2_nSCTLR2MASK_EL1) s.env.HCRX_EL2_SRMASKEn) :
    exec (.msrSctlr2MaskEl1 t) s = regWriteLocked .sctlr2MaskEl1 .sctlr2MaskEl1 s.effectiveMask1 t s := by
  rw [← fgt2Clause_iff] at h2
  rw [exec, execMsrSctlr2MaskEl1, byLevel_el1 hp he, el1Gate_open _ _ _ _ _ _ _ h3 h2, if_neg hnv]

/-- At EL2 in host it is a locked write of the mask register of EL2 (branches 14, 15). -/
theorem exec_msrMask_el2_inHost (he : s.env.EL = .el2) (hh : s.env.EL2InHost = true)
    (h3 : El3Allows s s.env.SCR_EL3_SRMASKEn) :
    exec (.msrSctlr2MaskEl1 t) s = regWriteLocked .sctlr2MaskEl1 .sctlr2MaskEl2 s.effectiveMask2 t s := by
  rw [exec, execMsrSctlr2MaskEl1, byLevel_el2 hp he, el2Gate_open _ _ _ _ h3, if_pos hh]

/-- At EL2 not in host it is a whole write (branch 16). -/
theorem exec_msrMask_el2 (he : s.env.EL = .el2) (hh : s.env.EL2InHost = false)
    (h3 : El3Allows s s.env.SCR_EL3_SRMASKEn) :
    exec (.msrSctlr2MaskEl1 t) s = regWrite .sctlr2MaskEl1 .sctlr2MaskEl1 t s := by
  rw [exec, execMsrSctlr2MaskEl1, byLevel_el2 hp he, el2Gate_open _ _ _ _ h3, if_neg (by simp [hh])]

/-- At EL3 it is a whole write (branch 17). -/
theorem exec_msrMask_el3 (he : s.env.EL = .el3) :
    exec (.msrSctlr2MaskEl1 t) s = regWrite .sctlr2MaskEl1 .sctlr2MaskEl1 t s := by
  rw [exec, execMsrSctlr2MaskEl1, byLevel_el3 hp he]

/-- `MSR SCTLR2MASK_EL12` in host at EL2 or EL3 is a whole write (rule R163 branches 9, 11). -/
theorem exec_msrMaskEl12_inHost (hv : s.cfg.FEAT_VHE = true) (he : s.env.EL = .el2 ∨ s.env.EL = .el3)
    (hh : s.env.EL2InHost = true) (h3 : El3Allows s s.env.SCR_EL3_SRMASKEn) :
    exec (.msrSctlr2MaskEl12 t) s = regWrite .sctlr2MaskEl12 .sctlr2MaskEl1 t s := by
  have hp' : sctlr2MaskEl12Present s = true := by simp [sctlr2MaskEl12Present, hp, hv]
  obtain he | he := he
  · rw [exec, execMsrSctlr2MaskEl12, byLevel_el2 hp' he, if_pos hh, el2Gate_open _ _ _ _ h3]
  · rw [exec, execMsrSctlr2MaskEl12, byLevel_el3 hp' he, if_pos hh]

end

/-- The effective mask of EL1 is that of a value a read by the mask's own name may return (rule R95). -/
theorem effectiveMask1_of_candidate (s : State) : ∃ m ∈ s.sctlr2MaskEl1.readCandidates .sctlr2MaskEl1,
    s.effectiveMask1.1 = Config.effMask1 m s.cfg s.env :=
  ⟨_, view_mem_readCandidates _ _ s.draws, rfl⟩

/-- The same for the effective mask of EL2. -/
theorem effectiveMask2_of_candidate (s : State) : ∃ m ∈ s.sctlr2MaskEl2.readCandidates .sctlr2MaskEl1,
    s.effectiveMask2.1 = Config.effMask2 m s.cfg s.env :=
  ⟨_, view_mem_readCandidates _ _ s.draws, rfl⟩

/-- Settles O37: two places are locked writes, the others whole writes. -/
theorem lockedExactlyByEffectiveMask : Obligations.LockedExactlyByEffectiveMask := by
  refine ⟨fun s => ⟨effectiveMask1_of_own, effectiveMask2_of_own, effectiveMask1_of_candidate s,
    effectiveMask2_of_candidate s⟩, ?_⟩
  intro t s hf ha h3
  have hp : sctlr2MaskPresent s = true := by simp [sctlr2MaskPresent, hf, ha]
  refine ⟨fun he hnv h2 => ?_, fun he hh => ?_, fun he hh => ?_, fun he => ?_, fun he hh hv => ?_⟩
  · rw [exec_msrMask_el1 t hp he hnv h3 h2, regWriteLocked_undefined_iff]
  · rw [exec_msrMask_el2_inHost t hp he hh h3, regWriteLocked_undefined_iff]
  · rw [exec_msrMask_el2 t hp he hh h3]; exact regWrite_next _ _ t s
  · rw [exec_msrMask_el3 t hp he]; exact regWrite_next _ _ t s
  · rw [exec_msrMaskEl12_inHost t hp hv he hh h3]; exact regWrite_next _ _ t s

end Sys2Proof.Machine
end

section
/-!
PROOFS. The general registers, the layout of the System registers, the direct read, the slot of an NVMem store, and reads
between synchronisations.
-/

namespace Sys2Proof.Machine

/-- Settles O40, from the rules of `writeX` and `readX`. -/
theorem generalRegisters : Obligations.GeneralRegisters := by
  intro s v
  exact ⟨fun t ht => readX_writeX_self s t v ht, fun t k hk => readX_writeX_ne s t k v hk, readX_zero s,
    writeX_zero s v⟩

/-! ### The layouts -/

/-- A bit of no present field is not in the mask of the present fields. -/
theorem getLsbD_fieldMask_of_absent {p : Field → Bool} {i : Nat} (h : ∀ f, p f = true → f.bit ≠ i) :
    (fieldMask p).getLsbD i = false := by
  by_cases hi : i < 64
  · rw [getLsbD_fieldMask p i hi, List.any_eq_false]
    intro f _ hf
    rw [Bool.and_eq_true, beq_iff_eq] at hf
    exact h f hf.1 hf.2
  · exact BitVec.getLsbD_of_ge _ _ (by omega)

/-- The named fields lie in bits 12 to 1, and in bits 12 to 2 but for EMEC. -/
theorem fieldBit_range (f : Field) : f.bit ≤ 12 ∧ 1 ≤ f.bit ∧ (f ≠ .EMEC → 2 ≤ f.bit) := by
  cases f <;> decide

/-- A register of the layout of `SCTLR2_EL1` has no field outside bits 12 to 2. -/
theorem getLsbD_fieldMask_present1 (c : Cfg) {i : Nat} (hi : i < 2 ∨ 12 < i) :
    (fieldMask (present1 c)).getLsbD i = false := by
  refine getLsbD_fieldMask_of_absent fun f hf => ?_
  have hne : f ≠ .EMEC := by rintro rfl; cases hf
  obtain ⟨hle, -, hge⟩ := fieldBit_range f
  have := hge hne
  omega

/-- `SCTLR2_EL2` has no field outside bits 12 to 1. -/
theorem getLsbD_fieldMask_present2 (c : Cfg) (inHost : Bool) {i : Nat} (hi : i < 1 ∨ 12 < i) :
    (fieldMask (present2 c inHost)).getLsbD i = false := by
  refine getLsbD_fieldMask_of_absent fun f _ => ?_
  obtain ⟨hle, hge, -⟩ := fieldBit_range f
  omega

/-- Settles O41: each row is a field at its bit with its presence, and the mask of the present fields has just those
bits. -/
theorem fieldTables : Obligations.FieldTables := by
  intro c e
  refine ⟨fun row hrow => ?_, fun i hi => ⟨getLsbD_fieldMask_present1 c hi, getLsbD_fieldMask_present1 c hi⟩, rfl,
    fun row hrow => ?_, fun i hi => getLsbD_fieldMask_present2 c _ hi, by decide, by decide⟩
  · have hrow' : row.2.1 = row.1.bit ∧ row.2.2 = present1 c row.1 := by
      simp only [List.mem_cons, List.not_mem_nil, or_false] at hrow
      obtain rfl | rfl | rfl | rfl | rfl | rfl | rfl | rfl | rfl | rfl | rfl := hrow <;> exact ⟨rfl, rfl⟩
    obtain ⟨hbit, hpres⟩ := hrow'
    rw [hbit, hpres]
    exact ⟨fun _ => rfl, rfl, fieldBit_fieldMask _ _, fieldBit_fieldMask _ _⟩
  · have hrow' : row.2.1 = row.1.bit ∧ row.2.2 = present2 c e.EL2InHost row.1 := by
      simp only [List.mem_cons, List.not_mem_nil, or_false] at hrow
      obtain rfl | rfl | rfl | rfl | rfl | rfl | rfl | rfl | rfl | rfl | rfl | rfl := hrow <;> exact ⟨rfl, rfl⟩
    obtain ⟨hbit, hpres⟩ := hrow'
    rw [hbit, hpres]
    exact ⟨fun _ => rfl, rfl, fieldBit_fieldMask _ _⟩

/-! ### The direct read -/

/-- With Res0Reads = stored a direct read is the stored value. -/
theorem directRead_stored {c : Cfg} (h : c.res0Reads = .stored) (e : Env) (r : SysRegId) (v : Word) :
    directRead c e r v = v := by
  simp [directRead, h]

/-- With Res0Reads = zero a direct read is the stored value less the RES0 bits. -/
theorem directRead_zero {c : Cfg} (h : c.res0Reads = .zero) (e : Env) (r : SysRegId) (v : Word) :
    directRead c e r v = v &&& notRes0 c e r := by
  simp [directRead, h]

/-- `SCTLR2MASK_EL2` reads as stored: none of its bits is taken as RES0. -/
theorem directRead_maskEl2 (c : Cfg) (e : Env) (v : Word) : directRead c e .sctlr2MaskEl2 v = v := by
  cases h : c.res0Reads
  · rw [directRead_zero h, notRes0, BitVec.and_allOnes]
  · exact directRead_stored h e _ v

/-- A present field reads as its stored bit, whatever RES0 bits read as. -/
theorem fieldBit_directRead {c : Cfg} {e : Env} {r : SysRegId} {p : Field → Bool} (hr : notRes0 c e r = fieldMask p)
    (v : Word) {f : Field} (hf : p f = true) : fieldBit (directRead c e r v) f = fieldBit v f := by
  cases h : c.res0Reads
  · rw [directRead_zero h, hr, fieldBit, BitVec.getLsbD_and, fieldBit_fieldMask, hf, Bool.and_true, fieldBit]
  · rw [directRead_stored h]

/-- With Res0Reads = zero a bit of no present field reads as 0. -/
theorem directRead_res0 {c : Cfg} {e : Env} {r : SysRegId} {p : Field → Bool} (hr : notRes0 c e r = fieldMask p)
    (v : Word) (h : c.res0Reads = .zero) {i : Nat} (hi : ∀ f, p f = true → f.bit ≠ i) :
    (directRead c e r v).getLsbD i = false := by
  rw [directRead_zero h, hr, BitVec.getLsbD_and, getLsbD_fieldMask_of_absent hi, Bool.and_false]

/-- Settles O42, for the three registers whose mask is that of their present fields. -/
theorem directReadBits : Obligations.DirectReadBits := by
  intro c e v
  refine ⟨directRead_maskEl2 c e v, fun r p hrp => ?_⟩
  have hr : notRes0 c e r = fieldMask p := by
    simp only [List.mem_cons, List.not_mem_nil, or_false, Prod.mk.injEq] at hrp
    obtain ⟨rfl, rfl⟩ | ⟨rfl, rfl⟩ | ⟨rfl, rfl⟩ := hrp <;> rfl
  exact ⟨fun f hf => fieldBit_directRead hr v hf, fun h => directRead_stored h e r v,
    fun h i hi => directRead_res0 hr v h hi⟩

/-! ### Memory -/

/-- The bytes of a value, least significant first. -/
theorem bytesOf_getElem (v : Word) (k : Nat) (hk : k < 8) : (bytesOf v)[k]'hk = v.extractLsb' (8 * k) 8 := by
  have hl : bytesOf v = List.ofFn (fun k : Fin 8 => v.extractLsb' (8 * k.val) 8) := rfl
  simp only [hl, List.getElem_ofFn]

/-- `MemWrite` leaves its eight bytes at ascending addresses. -/
theorem readByte_write64_inside (m : Memory) (big : Bool) (a : Nat) (v : Word) (k : Nat) (hk : k < 8)
    (hs : m.Pairwise (fun c d => c.1 < d.1)) :
    (m.write64 big a v).readByte (a + k) = (slotBytes big v)[k]'(by simpa using hk) :=
  readByte_writeBytes_inside _ m a k hs _

/-- Little-endian, the byte at `a + k` is bits `[8k+7:8k]` (rule R93). -/
theorem readByte_write64_little (m : Memory) (a : Nat) (v : Word) (k : Nat) (hk : k < 8)
    (hs : m.Pairwise (fun c d => c.1 < d.1)) :
    (m.write64 false a v).readByte (a + k) = v.extractLsb' (8 * k) 8 := by
  rw [readByte_write64_inside m false a v k hk hs]
  exact bytesOf_getElem v k hk

/-- Big-endian, the byte at `a + 7 - k` is bits `[8k+7:8k]` (rule R93, log entry 15). -/
theorem readByte_write64_big (m : Memory) (a : Nat) (v : Word) (k : Nat) (hk : k < 8)
    (hs : m.Pairwise (fun c d => c.1 < d.1)) :
    (m.write64 true a v).readByte (a + (7 - k)) = v.extractLsb' (8 * k) 8 := by
  rw [readByte_write64_inside m true a v (7 - k) (by omega) hs]
  have hidx : (bytesOf v).length - 1 - (7 - k) = k := by
    change 7 - (7 - k) = k
    omega
  simp only [slotBytes, if_true, List.getElem_reverse, hidx]
  exact bytesOf_getElem v k hk

/-- An address with no entry reads as unlisted; an address with an entry reads as one of its entries. -/
theorem readByte_eq_unlisted_or_mem (m : Memory) (a : Nat) :
    m.readByte a = Memory.unlisted ∨ (a, m.readByte a) ∈ m := by
  induction m with
  | nil => exact .inl rfl
  | cons c m ih =>
    obtain ⟨k, v⟩ := c
    rw [Memory.readByte]
    split
    · rename_i hk
      subst hk
      exact .inr List.mem_cons_self
    · exact ih.imp_right (List.mem_cons_of_mem _)

/-- Where addresses strictly rise, an entry is what its address reads as. -/
theorem readByte_of_mem {m : Memory} (hs : m.Pairwise (fun c d => c.1 < d.1)) {c : Host.Cell} (hc : c ∈ m) :
    m.readByte c.1 = c.2 := by
  induction m with
  | nil => cases hc
  | cons d m ih =>
    obtain ⟨hlt, hs'⟩ := List.pairwise_cons.1 hs
    rw [Memory.readByte]
    obtain rfl | hc := List.mem_cons.1 hc
    · exact if_pos rfl
    · rw [if_neg (hlt c hc).ne]
      exact ih hs' hc

/-- The entries of a canonical memory are the addresses that do not read as unlisted, with what they read as. -/
theorem mem_iff_readByte {m : Memory} (hm : Memory.wf m) (c : Host.Cell) :
    c ∈ m ↔ m.readByte c.1 = c.2 ∧ c.2 ≠ Memory.unlisted := by
  refine ⟨fun hc => ⟨readByte_of_mem hm.1 hc, (hm.2 c hc).2⟩, fun ⟨hr, hne⟩ => ?_⟩
  obtain hu | hmem := readByte_eq_unlisted_or_mem m c.1
  · exact absurd (hr.symm.trans hu) hne
  · rw [hr] at hmem; exact hmem

/-- Two canonical memories that read the same have the same entries in the same order, so they are equal. -/
theorem eq_of_readByte_eq {m n : Memory} (hm : Memory.wf m) (hn : Memory.wf n)
    (h : ∀ a, m.readByte a = n.readByte a) : m = n := by
  have hperm : List.Perm m n := by
    rw [List.perm_ext_iff_of_nodup (hm.1.imp fun hlt heq => absurd (heq ▸ hlt) (lt_irrefl _))
      (hn.1.imp fun hlt heq => absurd (heq ▸ hlt) (lt_irrefl _))]
    intro c
    rw [mem_iff_readByte hm, mem_iff_readByte hn, h]
  exact hperm.eq_of_pairwise (fun _ _ _ _ hab hba => absurd hab hba.asymm) hm.1 hn.1

/-- Settles O43: the read back, each byte in both orders, and equal reads. -/
theorem slotReadsBackAlone : Obligations.SlotReadsBackAlone := by
  refine ⟨fun m a v hm => ⟨fun big => ⟨read64_write64 m big a v hm.1, fun b hb =>
    readByte_write64_outside m big a b v hm.1 hb⟩, fun k hk => ⟨readByte_write64_little m a v k hk hm.1,
    readByte_write64_big m a v k hk hm.1⟩⟩, fun m n hm hn h => eq_of_readByte_eq hm hn h⟩

/-! ### Reads between synchronisations -/

/-- One more write by the only name that has unsynchronised writes is found by that name (rule R98 (a)). -/
theorem view_push_own (r : SysReg) (n : AccName) (v m : Word) (d : Nat) (h : ∀ w ∈ r.pending, w.name = n) :
    SysReg.view ⟨r.base, r.pending ++ [⟨n, v, m⟩]⟩ n d = (maskedWrite r.stored v m, d) := by
  rw [view_of_own, stored_push]
  intro w hw
  obtain hw | hw := List.mem_append.1 hw
  · exact h w hw
  · rw [List.mem_singleton.1 hw]

/-- Another name may find the value before the one unsynchronised write, or after it (rule R95). -/
theorem readCandidates_one {w : PendingWrite} {n : AccName} (b : Word) (hn : n ≠ w.name) :
    SysReg.readCandidates ⟨b, [w]⟩ n = [b, maskedWrite b w.value w.mask] := by
  have horders : orders [w] = [[w]] := rfl
  have hcuts : cuts n [w] = [[], [w]] := by simp [cuts, hn.symm]
  simp [SysReg.readCandidates, horders, hcuts, replay, PendingWrite.apply]

/-- Which of the two another name finds is the next draw (log entry 6). -/
theorem view_one {w : PendingWrite} {n : AccName} (b : Word) (d : Nat) (hn : n ≠ w.name) :
    SysReg.view ⟨b, [w]⟩ n d =
      (if Config.draw d % 2 = 0 then b else maskedWrite b w.value w.mask, d + 1) := by
  have hall : [w].all (fun w => w.name == n) = false := by simp [hn.symm]
  rw [SysReg.view, readCandidates_one b hn, hall, if_neg Bool.false_ne_true]
  obtain h0 | h1 := Nat.mod_two_eq_zero_or_one (Config.draw d)
  · simp [choose, h0]
  · simp [choose, h1]

/-- Settles O44, from what the writing name and what another name finds. -/
theorem readsBetweenSynchronisations : Obligations.ReadsBetweenSynchronisations :=
  ⟨view_push_own, fun b _ _ d hn => ⟨readCandidates_one b hn, view_one b d hn⟩⟩

end Sys2Proof.Machine
end

section
/-!
PROOFS. The Effective values: the conditions in the terms of the statements, the chains of rules R39 and R58, and what the
fields control.
-/

namespace Sys2Proof.Machine

/-! ### The conditions -/

/-- The registers exist by both features (rules R21, R42). -/
theorem sctlr2Exists_iff (c : Cfg) : sctlr2Exists c = true ↔ c.FEAT_SCTLR2 = true ∧ c.FEAT_AA64 = true := by
  simp [sctlr2Exists]

/-- An Effective bit of HCRX_EL2 (rule R74). -/
theorem effHCRX_iff (e : Env) (b : Bool) : effHCRX e b = true ↔ e.HCRXEnabled = true ∧ b = true := by
  simp [effHCRX]

/-- `Z1`, as the statements write it (rule R37). -/
theorem z1_iff (c : Cfg) (e : Env) : z1 c e = true ↔ (c.HaveEL3 = true ∧ e.SCR_EL3_SCTLR2En = false) ∨
    (e.EL2Enabled = true ∧ ¬(e.HCRXEnabled = true ∧ e.HCRX_EL2_SCTLR2En = true)) := by
  rw [← effHCRX_iff]
  simp [z1]

/-- `Z2`, as the statements write it (rule R55). -/
theorem z2_iff (c : Cfg) (e : Env) : z2 c e = true ↔ c.HaveEL3 = true ∧ e.SCR_EL3_SCTLR2En = false := by
  simp [z2]

/-- The condition of rule R57, as the statements write it. -/
theorem el0UnderEl2_iff (e : Env) :
    el0UnderEl2 e = true ↔ e.HCR_EL2_E2H_eff = true ∧ e.HCR_EL2_TGE_eff = true := by
  simp [el0UnderEl2]

/-! ### `Eff1` -/

/-- The first three conditions of rule R39. -/
def Eff1Closed (c : Cfg) (e : Env) (f : Field) : Prop :=
  sctlr2Exists c = false ∨ present1 c f = false ∨ z1 c e = true

theorem eff1Plain_of_closed {c : Cfg} {e : Env} {f : Field} (h : Eff1Closed c e f) (S : Field → Bool) :
    eff1Plain c e S f = false := by
  unfold eff1Plain
  obtain h | h | h := h <;> simp [h]

/-- An absent register, an absent field or `Z1` makes the Effective value 0. -/
theorem eff1Of_of_closed {c : Cfg} {e : Env} {f : Field} (h : Eff1Closed c e f) (S : Field → Bool) :
    eff1Of c e S f = false := by
  have hp := eff1Plain_of_closed h S
  cases f <;> simp [eff1Of, hp]

/-- The band of decision D12, condition by condition. -/
theorem siblingBand_iff (c : Cfg) (e : Env) (S : Field → Bool) (f : Field) :
    siblingBand c e S f = true ↔ c.FEAT_SCTLR2 = true ∧ c.FEAT_AA64 = true ∧ c.FEAT_ANERR = true ∧
      c.FEAT_ADERR = true ∧ ¬((c.HaveEL3 = true ∧ e.SCR_EL3_SCTLR2En = false) ∨
        (e.EL2Enabled = true ∧ ¬(e.HCRXEnabled = true ∧ e.HCRX_EL2_SCTLR2En = true))) ∧
      e.EL2Enabled = true ∧ e.HCRXEnabled = true ∧
      ((f = .EnANERR ∧ c.ID_ANERR = 0b0010#4 ∧ S .EnADERR = true ∧ S .EnANERR = false ∧
          e.HCRX_EL2_EnSDERR = true ∧ e.HCRX_EL2_EnSNERR = false) ∨
       (f = .EnADERR ∧ c.ID_ADERR = 0b0010#4 ∧ S .EnANERR = true ∧ S .EnADERR = false ∧
          e.HCRX_EL2_EnSNERR = true ∧ e.HCRX_EL2_EnSDERR = false)) := by
  rw [← z1_iff]
  cases f
  case EnANERR =>
    simp only [siblingBand, Bool.and_eq_true, Bool.not_eq_true', beq_iff_eq, sctlr2Exists_iff, effHCRX_iff,
      Bool.and_eq_false_iff, reduceCtorEq, false_and, or_false, true_and]
    constructor
    · rintro ⟨⟨⟨⟨⟨⟨⟨⟨⟨hs, ha⟩, hn⟩, hz⟩, ho⟩, hd⟩, hid⟩, hS⟩, he, hx, hd'⟩, hS'⟩
      simp_all [effHCRX]
    · rintro ⟨hs, ha, hn, hd, hz, he, hx, hid, hS, hS', hd', hn'⟩
      simp_all [effHCRX]
  case EnADERR =>
    simp only [siblingBand, Bool.and_eq_true, Bool.not_eq_true', beq_iff_eq, sctlr2Exists_iff, effHCRX_iff,
      Bool.and_eq_false_iff, reduceCtorEq, false_and, false_or, true_and]
    constructor
    · rintro ⟨⟨⟨⟨⟨⟨⟨⟨⟨hs, ha⟩, hd⟩, hz⟩, ho⟩, hn⟩, hid⟩, hS⟩, he, hx, hn'⟩, hS'⟩
      simp_all [effHCRX]
    · rintro ⟨hs, ha, hn, hd, hz, he, hx, hid, hS, hS', hd', hn'⟩
      simp_all [effHCRX]
  all_goals simp [siblingBand]

/-- A closed field is never in the band. -/
theorem siblingBand_of_closed {c : Cfg} {e : Env} {f : Field} (h : Eff1Closed c e f) (S : Field → Bool) :
    siblingBand c e S f = false := by
  rw [Bool.eq_false_iff, ne_eq, siblingBand_iff, ← z1_iff]
  rintro ⟨hs, ha, hn, hd, hz, -, -, hf⟩
  obtain h | h | h := h
  · exact absurd ((sctlr2Exists_iff c).2 ⟨hs, ha⟩) (by simp [h])
  · obtain ⟨rfl, -⟩ | ⟨rfl, -⟩ := hf
    · exact absurd (hn.symm.trans h) (by simp)
    · exact absurd (hd.symm.trans h) (by simp)
  · exact hz h

/-- A field that is not closed: its register exists, it is present and `Z1` is false. -/
theorem not_eff1Closed_iff (c : Cfg) (e : Env) (f : Field) :
    ¬Eff1Closed c e f ↔ sctlr2Exists c = true ∧ present1 c f = true ∧ z1 c e = false := by
  simp [Eff1Closed]

/-- In the band rule R39 gives the field in question 1, and its sibling, which its own condition treats as zero, 0. -/
theorem eff1Of_of_band {c : Cfg} {e : Env} {S : Field → Bool} {f : Field} (h : siblingBand c e S f = true) :
    eff1Of c e S f = true ∧ (f = .EnANERR → eff1Of c e S .EnADERR = false) ∧
      (f = .EnADERR → eff1Of c e S .EnANERR = false) := by
  have hopen : ¬Eff1Closed c e f := fun hc => by simp [siblingBand_of_closed hc S] at h
  obtain ⟨hx, -, hz⟩ := (not_eff1Closed_iff c e f).1 hopen
  obtain ⟨-, -, hn, hd, -, he, hh, hf⟩ := (siblingBand_iff c e S f).1 h
  obtain ⟨rfl, hid, hS, -, hsd, hsn⟩ | ⟨rfl, hid, hS, -, hsn, hsd⟩ := hf <;>
    simp [eff1Of, eff1Plain, present1, effHCRX, hx, hz, hn, hd, he, hh, hid, hS, hsn, hsd]

/-- Rule R39 as one chain: past the first three conditions, field by field. -/
theorem eff1Of_chain (c : Cfg) (e : Env) (S : Field → Bool) (f : Field) : eff1Of c e S f =
    (if ¬(c.FEAT_SCTLR2 = true ∧ c.FEAT_AA64 = true) then false
    else if present1 c f = false then false
    else if (c.HaveEL3 = true ∧ e.SCR_EL3_SCTLR2En = false) ∨
        (e.EL2Enabled = true ∧ ¬(e.HCRXEnabled = true ∧ e.HCRX_EL2_SCTLR2En = true)) then false
    else if (f = .EnPACM0 ∨ f = .EnPACM) ∧ e.EL2Enabled = true ∧
        ¬(e.HCRXEnabled = true ∧ e.HCRX_EL2_PACMEn = true) then false
    else if f = .EnANERR then
      (if e.EL2Enabled = true ∧ e.HCRXEnabled = true ∧ e.HCRX_EL2_EnSNERR = true then false
       else if c.FEAT_ADERR = true ∧ c.ID_ANERR = 0b0010#4 ∧ S .EnADERR = true then true
       else S .EnANERR)
    else if f = .EnADERR then
      (if e.EL2Enabled = true ∧ e.HCRXEnabled = true ∧ e.HCRX_EL2_EnSDERR = true then false
       else if c.FEAT_ANERR = true ∧ c.ID_ADERR = 0b0010#4 ∧ S .EnANERR = true then true
       else S .EnADERR)
    else if f = .CPTM ∧ eff1Of c e S .CPTA = false then false
    else if f = .CPTM0 ∧ eff1Of c e S .CPTA0 = false then false
    else S f) := by
  by_cases hc : Eff1Closed c e f
  · rw [eff1Of_of_closed hc]
    obtain h | h | h := hc
    · rw [if_pos (by rw [← sctlr2Exists_iff, h]; exact Bool.false_ne_true)]
    · rw [if_pos h, ite_self]
    · rw [if_pos ((z1_iff c e).1 h), ite_self, ite_self]
  · obtain ⟨hx, hp, hz⟩ := (not_eff1Closed_iff c e f).1 hc
    rw [if_neg (not_not.2 ((sctlr2Exists_iff c).1 hx)), if_neg (by simp [hp]),
      if_neg (by rw [← z1_iff, hz]; exact Bool.false_ne_true)]
    cases f <;> simp only [present1, Bool.false_eq_true] at hp <;>
      simp [eff1Of, eff1Plain, present1, effHCRX, hx, hp, hz, and_assoc]

/-- Settles O52: the state's value outside and inside the band, the band, and the chain. -/
theorem eff1Formula : Obligations.Eff1Formula := by
  refine ⟨fun s f => ⟨fun h => ?_, fun h => ?_⟩, fun c e S f => ⟨siblingBand_iff c e S f, eff1Of_of_band⟩,
    fun c e v f => eff1Of_chain c e (fieldBit v) f⟩
  · rw [State.eff1, if_neg (by simp [h])]
  · rw [State.eff1, if_pos h]

/-! ### `Eff2` -/

/-- The first four conditions of rule R58. -/
def Eff2Closed (c : Cfg) (e : Env) (f : Field) : Prop :=
  sctlr2Exists c = false ∨ e.EL2Enabled = false ∨ present2 c e.EL2InHost f = false ∨ z2 c e = true

theorem eff2Plain_of_closed {c : Cfg} {e : Env} {f : Field} (h : Eff2Closed c e f) (S : Field → Bool) :
    eff2Plain c e S f = false := by
  unfold eff2Plain
  obtain h | h | h | h := h <;> simp [h]

/-- An absent register, EL2 not enabled, an absent field or `Z2` makes the Effective value 0. -/
theorem eff2Of_of_closed {c : Cfg} {e : Env} {f : Field} (h : Eff2Closed c e f) (S : Field → Bool) :
    eff2Of c e S f = false := by
  have hp := eff2Plain_of_closed h S
  cases f <;> simp [eff2Of, hp]

/-- A field that is not closed: its register exists, EL2 is enabled, it is present and `Z2` is false. -/
theorem not_eff2Closed_iff (c : Cfg) (e : Env) (f : Field) : ¬Eff2Closed c e f ↔
    sctlr2Exists c = true ∧ e.EL2Enabled = true ∧ present2 c e.EL2InHost f = true ∧ z2 c e = false := by
  simp [Eff2Closed]

/-- Rule R58 as one chain: past the first four conditions, field by field. -/
theorem eff2Of_chain (c : Cfg) (e : Env) (S : Field → Bool) (f : Field) : eff2Of c e S f =
    (if ¬(c.FEAT_SCTLR2 = true ∧ c.FEAT_AA64 = true) then false
    else if e.EL2Enabled = false then false
    else if present2 c e.EL2InHost f = false then false
    else if c.HaveEL3 = true ∧ e.SCR_EL3_SCTLR2En = false then false
    else if (f = .CPTM0 ∨ f = .CPTA0 ∨ f = .EnPACM0) ∧ e.HCR_EL2_TGE = false then false
    else if f = .EnANERR then
      (if c.FEAT_ADERR = true ∧ c.ID_ANERR = 0b0010#4 ∧ S .EnADERR = true then true
       else S .EnANERR)
    else if f = .EnADERR then
      (if c.FEAT_ANERR = true ∧ c.ID_ADERR = 0b0010#4 ∧ S .EnANERR = true then true
       else S .EnADERR)
    else if f = .CPTM ∧ eff2Of c e S .CPTA = false then false
    else if f = .CPTM0 ∧ eff2Of c e S .CPTA0 = false then false
    else S f) := by
  by_cases hc : Eff2Closed c e f
  · rw [eff2Of_of_closed hc]
    obtain h | h | h | h := hc
    · rw [if_pos (by rw [← sctlr2Exists_iff, h]; exact Bool.false_ne_true)]
    · rw [if_pos h, ite_self]
    · rw [if_pos h, ite_self, ite_self]
    · rw [if_pos ((z2_iff c e).1 h), ite_self, ite_self, ite_self]
  · obtain ⟨hx, he, hp, hz⟩ := (not_eff2Closed_iff c e f).1 hc
    rw [if_neg (not_not.2 ((sctlr2Exists_iff c).1 hx)), if_neg (by simp [he]), if_neg (by simp [hp]),
      if_neg (by rw [← z2_iff, hz]; exact Bool.false_ne_true)]
    cases f <;> simp only [present2, present1] at hp
    case CPTM0 =>
      cases ht : e.HCR_EL2_TGE <;> simp [eff2Of, eff2Plain, present2, hx, he, hp, hz, ht]
    all_goals simp [eff2Of, eff2Plain, present2, present1, hx, he, hp, hz, and_assoc]

/-! ### What the fields control -/

/-- An absent register or field traps nothing (rule R24). -/
theorem impDef128Trap_of_absent {s : State} (h : (sctlr2Exists s.cfg && s.cfg.FEAT_SYSREG128) = false) :
    s.impDef128Trap = none := by
  rw [State.impDef128Trap, h]; rfl

/-- A present field traps as its governing Effective value says (rules R32, R49, R57). -/
theorem impDef128Trap_of_present {s : State} (h : (sctlr2Exists s.cfg && s.cfg.FEAT_SYSREG128) = true) :
    s.impDef128Trap =
      if el0UnderEl2 s.env then
        (if s.env.EL2Enabled && !s.eff2 .EnIDCP128 then some (.el2, 0x14) else none)
      else (if !s.eff1 .EnIDCP128 then some (.el1, 0x14) else none) := by
  rw [State.impDef128Trap, h]; rfl

/-- The field is present in the terms of the statements. -/
theorem idcp128Present_iff (c : Cfg) : (sctlr2Exists c && c.FEAT_SYSREG128) = true ↔
    c.FEAT_SCTLR2 = true ∧ c.FEAT_AA64 = true ∧ c.FEAT_SYSREG128 = true := by
  rw [Bool.and_eq_true, sctlr2Exists_iff, and_assoc]

/-- The trap of the 128-bit registers that is taken to EL1 (rules R32, R190). -/
theorem impDef128Trap_el1_iff (s : State) : s.impDef128Trap = some (.el1, 0x14) ↔
    s.cfg.FEAT_SCTLR2 = true ∧ s.cfg.FEAT_AA64 = true ∧ s.cfg.FEAT_SYSREG128 = true ∧
      ¬(s.env.HCR_EL2_E2H_eff = true ∧ s.env.HCR_EL2_TGE_eff = true) ∧ s.eff1 .EnIDCP128 = false := by
  rw [← el0UnderEl2_iff]
  cases hp : sctlr2Exists s.cfg && s.cfg.FEAT_SYSREG128
  case false =>
    rw [impDef128Trap_of_absent hp]
    refine iff_of_false (by simp) fun ⟨hs, ha, h128, _⟩ => ?_
    rw [(idcp128Present_iff s.cfg).2 ⟨hs, ha, h128⟩] at hp; cases hp
  case true =>
    obtain ⟨hs, ha, h128⟩ := (idcp128Present_iff s.cfg).1 hp
    rw [impDef128Trap_of_present hp]
    split_ifs <;> simp_all

/-- The trap of the 128-bit registers that is taken to EL2 (rules R49, R190). -/
theorem impDef128Trap_el2_iff (s : State) : s.impDef128Trap = some (.el2, 0x14) ↔
    s.cfg.FEAT_SCTLR2 = true ∧ s.cfg.FEAT_AA64 = true ∧ s.cfg.FEAT_SYSREG128 = true ∧
      (s.env.HCR_EL2_E2H_eff = true ∧ s.env.HCR_EL2_TGE_eff = true) ∧ s.env.EL2Enabled = true ∧
      s.eff2 .EnIDCP128 = false := by
  rw [← el0UnderEl2_iff]
  cases hp : sctlr2Exists s.cfg && s.cfg.FEAT_SYSREG128
  case false =>
    rw [impDef128Trap_of_absent hp]
    refine iff_of_false (by simp) fun ⟨hs, ha, h128, _⟩ => ?_
    rw [(idcp128Present_iff s.cfg).2 ⟨hs, ha, h128⟩] at hp; cases hp
  case true =>
    obtain ⟨hs, ha, h128⟩ := (idcp128Present_iff s.cfg).1 hp
    rw [impDef128Trap_of_present hp]
    split_ifs <;> simp_all

/-- There is no other trap of the 128-bit registers. -/
theorem impDef128Trap_cases (s : State) : s.impDef128Trap = none ∨ s.impDef128Trap = some (.el1, 0x14) ∨
    s.impDef128Trap = some (.el2, 0x14) := by
  rw [State.impDef128Trap]
  split_ifs <;> simp

/-- Settles O53: the chain, and the 0 of EnIDCP128 that is no trap. -/
theorem eff2Formula : Obligations.Eff2Formula := by
  refine ⟨fun s f => ⟨rfl, fun he htrap => ?_⟩, fun c e v f => eff2Of_chain c e (fieldBit v) f⟩
  obtain ⟨-, -, -, -, hen, -⟩ := (impDef128Trap_el2_iff s).1 htrap
  rw [he] at hen; cases hen

/-- While `Z1` holds every Effective value of `SCTLR2_EL1` is 0 (rule R37), in the band too. -/
theorem eff1_of_z1 {s : State} (h : z1 s.cfg s.env = true) (f : Field) : s.eff1 f = false := by
  have hc : Eff1Closed s.cfg s.env f := .inr (.inr h)
  rw [State.eff1, siblingBand_of_closed hc, if_neg Bool.false_ne_true, eff1Of_of_closed hc]

/-- While `Z2` holds every Effective value of `SCTLR2_EL2` is 0 (rule R55). -/
theorem eff2_of_z2 {s : State} (h : z2 s.cfg s.env = true) (f : Field) : s.eff2 f = false :=
  eff2Of_of_closed (.inr (.inr (.inr h))) _

/-- A closed EL3 enable is a part of `Z1`. -/
theorem z1_of_z2 {c : Cfg} {e : Env} (h : z2 c e = true) : z1 c e = true :=
  (z1_iff c e).2 (.inl ((z2_iff c e).1 h))

/-- Settles O54, from `Z1` and `Z2`. -/
theorem closedEnablesZeroEveryField : Obligations.ClosedEnablesZeroEveryField := by
  intro s f
  refine ⟨fun h => eff1_of_z1 ((z1_iff _ _).2 (h.imp_right fun ⟨he, hx⟩ => ⟨he, fun ⟨hon, hen⟩ => ?_⟩)) f,
    fun h => eff2_of_z2 ((z2_iff _ _).2 h) f, fun _ _ _ _ _ _ => rfl, fun _ => ⟨rfl, rfl⟩⟩
  obtain hx | hx := hx
  · rw [hon] at hx; cases hx
  · rw [hen] at hx; cases hx

/-- EL0 is governed by `SCTLR2_EL2` exactly when the Effective E2H and TGE are both 1 (rule R57). -/
theorem unprivileged_under_el2 {s : State} (f : Field)
    (h : s.env.HCR_EL2_E2H_eff = true ∧ s.env.HCR_EL2_TGE_eff = true) : s.unprivileged f = s.eff2 f :=
  if_pos ((el0UnderEl2_iff _).2 h)

theorem unprivileged_under_el1 {s : State} (f : Field)
    (h : ¬(s.env.HCR_EL2_E2H_eff = true ∧ s.env.HCR_EL2_TGE_eff = true)) : s.unprivileged f = s.eff1 f :=
  if_neg (h ∘ (el0UnderEl2_iff _).1)

/-- A PACM instruction that is enabled sets PSTATE.PACM, one that is not leaves it (rules R30, R31). -/
theorem pacmAfter_of_enabled {s : State} {on : Bool} (h : s.pacmEnabled = some on) :
    s.pacmAfter = some (on || s.pstate.PACM) := by
  rw [State.pacmAfter, h, Option.map_some]

/-- The 128-bit registers are disabled at EL1 by a governing 0 of a present field (rule R32). -/
theorem impDef128Disabled_el1_iff (s : State) : s.impDef128Disabled .el1 = some true ↔
    s.cfg.FEAT_SCTLR2 = true ∧ s.cfg.FEAT_AA64 = true ∧ s.cfg.FEAT_SYSREG128 = true ∧
      s.eff1 .EnIDCP128 = false := by
  simp [State.impDef128Disabled, sctlr2Exists_iff, and_assoc]

/-- The 128-bit registers are disabled at EL2 by a governing 0 of a present field while EL2 is enabled (rule R49). -/
theorem impDef128Disabled_el2_iff (s : State) : s.impDef128Disabled .el2 = some true ↔
    s.cfg.FEAT_SCTLR2 = true ∧ s.cfg.FEAT_AA64 = true ∧ s.cfg.FEAT_SYSREG128 = true ∧
      s.env.EL2Enabled = true ∧ s.eff2 .EnIDCP128 = false := by
  simp [State.impDef128Disabled, sctlr2Exists_iff, and_assoc]

/-- Pointer Arithmetic at each level that has a control reads the governing Effective value (rules R26, R28, R57). -/
theorem pointerArithChecked_rows (s : State) : ∀ p ∈ [(EL.el0, s.unprivileged .CPTA0, s.unprivileged .CPTM0),
    (.el1, s.eff1 .CPTA, s.eff1 .CPTM), (.el2, s.eff2 .CPTA, s.eff2 .CPTM)],
    s.pointerArithChecked p.1 .addition = some p.2.1 ∧
      s.pointerArithChecked p.1 .multiplication = some p.2.2 := by
  intro p hp
  simp only [List.mem_cons, List.not_mem_nil, or_false] at hp
  obtain rfl | rfl | rfl := hp <;> exact ⟨rfl, rfl⟩

/-- PACM at each level reads the governing Effective value (rules R30, R47, R57). -/
theorem pacmEnabled_rows (s : State) : ∀ p ∈ [(EL.el0, some (s.unprivileged .EnPACM0)), (.el1, some (s.eff1 .EnPACM)),
    (.el2, some (s.eff2 .EnPACM)), (.el3, none)], s.env.EL = p.1 → s.pacmEnabled = p.2 := by
  intro p hp he
  simp only [List.mem_cons, List.not_mem_nil, or_false] at hp
  obtain rfl | rfl | rfl | rfl := hp <;> simp only [State.pacmEnabled, he]

/-- Settles O55, observable by observable; with a closed EL3 enable the governing 0 is that of `Z1` or of `Z2`. -/
theorem governingControls : Obligations.GoverningControls := by
  intro s f
  refine ⟨unprivileged_under_el2 f, unprivileged_under_el1 f, pointerArithChecked_rows s,
    fun op => by cases op <;> rfl, pacmEnabled_rows s, fun h => pacmAfter_of_enabled h,
    fun h => pacmAfter_of_enabled h, fun h => by rw [State.pacmAfter, h, Option.map_none],
    impDef128Trap_el1_iff s, impDef128Trap_el2_iff s, impDef128Trap_cases s, impDef128Disabled_el1_iff s,
    impDef128Disabled_el2_iff s, fun hs ha h128 h3 hen => ?_⟩
  have hz2 : z2 s.cfg s.env = true := (z2_iff _ _).2 ⟨h3, hen⟩
  exact ⟨fun hng => (impDef128Trap_el1_iff s).2 ⟨hs, ha, h128, hng, eff1_of_z1 (z1_of_z2 hz2) _⟩,
    fun hg he2 => (impDef128Trap_el2_iff s).2 ⟨hs, ha, h128, hg, he2, eff2_of_z2 hz2 _⟩⟩

/-- The report of an External abort follows the governing value, then the SVE part (rules R192 to R194). -/
theorem abortReport_cases {s : State} {g : Regime} {m : MemType} {b : Bool} (h : s.abortGoverned g m = b) (sve : Bool) :
    (b = true → s.abortReport g m sve = .syncDataAbortOrSError) ∧
    (b = false → s.cfg.FEAT_SVE = true → sve = true → s.abortReport g m sve = .inFFR) ∧
    (b = false → s.cfg.FEAT_SVE = false ∨ sve = false →
      s.abortReport g m sve = .syncDataAbortUnlessImplSpecific) := by
  refine ⟨fun hb => ?_, fun hb hf hs => ?_, fun hb hfs => ?_⟩
  · simp [State.abortReport, h, hb]
  · simp [State.abortReport, h, hb, hf, hs]
  · obtain hf | hs := hfs
    · simp [State.abortReport, h, hb, hf]
    · simp [State.abortReport, h, hb, hs]

/-- A governing NMEA of 1 takes the masking away, a 0 leaves it (rules R36, R53, R195). -/
theorem sErrorMasked_el1_of_nmea {s : State} {b : Bool} (h : s.eff1 .NMEA = b) :
    s.sErrorMasked .el1 = some (s.pstate.A && !b) := by
  rw [← h, State.sErrorMasked]

theorem sErrorMasked_el2_of_nmea {s : State} {b : Bool} (h : s.eff2 .NMEA = b) : s.sErrorMasked .el2 =
    some ((s.pstate.A || (!s.env.HCR_EL2_AMO && !s.env.HCR_EL2_TGE)) && !b) := by
  rw [← h, State.sErrorMasked]

/-- Settles O56, observable by observable. -/
theorem errorReportingControls : Obligations.ErrorReportingControls := by
  intro s
  refine ⟨rfl, rfl, fun p hp sve => ?_, fun h => ?_, fun h => ?_, fun h => ?_, fun h => ?_, rfl⟩
  · have hgov : s.abortGoverned p.1 p.2.1 = p.2.2 := by
      simp only [List.mem_cons, List.not_mem_nil, or_false] at hp
      obtain rfl | rfl | rfl | rfl := hp <;> rfl
    exact abortReport_cases hgov sve
  · rw [sErrorMasked_el1_of_nmea h, Bool.not_true, Bool.and_false]
  · rw [sErrorMasked_el1_of_nmea h, Bool.not_false, Bool.and_true]
  · rw [sErrorMasked_el2_of_nmea h, Bool.not_true, Bool.and_false]
  · rw [sErrorMasked_el2_of_nmea h, Bool.not_false, Bool.and_true]

end Sys2Proof.Machine
end

section
/-!
PROOFS. The hidden values of EMEC, what may govern between synchronisations, and the values after a Warm reset.
-/

namespace Sys2Proof.Machine

/-! ### The values of EMEC a TLB may hold -/

/-- A merge into `SCTLR2_EL2` leaves every EMEC that may have governed where a TLB may hold it (rules R76, R100). -/
theorem afterMerge_tlbEmec_self (s : State) (n : AccName) (v m : Word) (d : Nat) :
    (s.afterMerge n .sctlr2El2 v m d).tlbEmec = s.emecCopies := rfl

/-- What a TLB held it may still hold. -/
theorem tlbEmec_subset_emecCopies {s : State} {b : Bool} (h : b ∈ s.tlbEmec) : b ∈ s.emecCopies :=
  (mem_emecCopies s b).2 (.inl h)

/-- Every EMEC that may govern is one a TLB may copy. -/
theorem visible_mem_emecCopies {s : State} {v : Word} (h : v ∈ s.sctlr2El2.visible) :
    fieldBit v .EMEC ∈ s.emecCopies :=
  (mem_emecCopies s _).2 (.inr ⟨v, h, rfl⟩)

/-- A completed MSR that reaches `SCTLR2_EL2` leaves every EMEC that may have governed. -/
theorem exec_write_el2_tlbEmec {i : Instr} {s s' : State} (hi : i.isRead = false) (h : exec i s = .next s')
    (hr : s.redirect i.accessor = none) (hq : s.reaches i.accessor = .sctlr2El2) : s'.tlbEmec = s.emecCopies := by
  obtain ⟨m, d, rfl, -⟩ := exec_write_merge hi hr h
  rw [hq, afterMerge_tlbEmec_self]

/-- No outside event but TLB maintenance takes an earlier EMEC away. -/
theorem applyEvent_keeps_tlbEmec {ev : Event} {s : State} {b : Bool} (hne : ev ≠ .tlbMaintenance)
    (hb : b ∈ s.tlbEmec) : b ∈ (applyEvent ev s).tlbEmec := by
  cases ev with
  | instruction | setEnv e => exact hb
  | sync | warmReset e => exact tlbEmec_subset_emecCopies hb
  | tlbMaintenance => exact absurd rfl hne

/-- No instruction takes an earlier EMEC away. -/
theorem exec_keeps_tlbEmec {i : Instr} {s s' : State} {b : Bool} (h : exec i s = .next s') (hb : b ∈ s.tlbEmec) :
    b ∈ s'.tlbEmec := by
  obtain heq | heq := exec_next_tlbEmec h
  · rw [heq]; exact hb
  · rw [heq]; exact tlbEmec_subset_emecCopies hb

/-- Settles O46: each write and each event adds what may have governed, and only TLB maintenance takes away. -/
theorem earlierEmecStaysUntilTlbMaintenance : Obligations.EarlierEmecStaysUntilTlbMaintenance := by
  refine ⟨fun i s s' hi h hr hq => ?_, fun s b e => ⟨mem_emecCopies s b, mem_emecCopies s b, rfl⟩, ?_⟩
  · rw [exec_write_el2_tlbEmec hi h hr hq]
    exact ⟨visible_mem_emecCopies (stored_mem_visible _), fun v hv => visible_mem_emecCopies hv⟩
  · intro s s' h hnot b hb
    obtain ⟨ev, rest, hin, -, rfl⟩ | ⟨rest, i, -, -, hx⟩ := step_next h
    · refine applyEvent_keeps_tlbEmec (fun hev => hnot rest ?_) hb
      rw [hin, hev]
    · exact exec_keeps_tlbEmec hx hb

/-! ### What may govern -/

/-- With nothing unsynchronised a mechanism finds the stored value only. -/
theorem visible_of_settled {r : SysReg} (h : r.pending = []) : r.visible = [r.stored] := by
  obtain ⟨base, pending⟩ := r
  subst h
  exact visible_settled base

/-- Stored bits found in one value are the bits of that value. -/
theorem exists_fieldBits_single (v : Word) (P : (Field → Bool) → Prop) :
    (∃ S : Field → Bool, (∀ g, ∃ w ∈ [v], S g = fieldBit w g) ∧ P S) ↔ P (fieldBit v) := by
  simp only [List.mem_singleton, exists_eq_left]
  refine ⟨fun ⟨S, hS, hP⟩ => ?_, fun hP => ⟨_, fun _ => rfl, hP⟩⟩
  rwa [show S = fieldBit v from funext hS] at hP

/-- Stored bits found, field by field, in one of two values. -/
theorem exists_fieldBits_pair (v w : Word) (P : (Field → Bool) → Prop) :
    (∃ S : Field → Bool, (∀ g, ∃ u ∈ [v, w], S g = fieldBit u g) ∧ P S) ↔
      ∃ S : Field → Bool, (∀ g, S g = fieldBit v g ∨ S g = fieldBit w g) ∧ P S := by
  simp

/-- `Eff2` of a field other than EMEC does not read the stored EMEC. -/
theorem eff2Of_congr (c : Cfg) (e : Env) {S T : Field → Bool} (h : ∀ g, g ≠ .EMEC → S g = T g) {f : Field}
    (hf : f ≠ .EMEC) : eff2Of c e S f = eff2Of c e T f := by
  have hplain : ∀ g, g ≠ .EMEC → eff2Plain c e S g = eff2Plain c e T g := by
    intro g hg
    cases g
    case EMEC => exact absurd rfl hg
    all_goals simp [eff2Plain, h]
  cases f
  case EMEC => exact absurd rfl hf
  all_goals simp [eff2Of, hplain]

/-- For a field other than EMEC what a TLB may hold has no part in what may govern. -/
theorem eff2May_iff_of_ne (s : State) {f : Field} (hf : f ≠ .EMEC) (b : Bool) : s.Eff2May f b ↔
    ∃ S : Field → Bool, (∀ g, ∃ w ∈ s.sctlr2El2.visible, S g = fieldBit w g) ∧ eff2Of s.cfg s.env S f = b := by
  refine ⟨fun ⟨S, hS, hb⟩ => ?_, fun ⟨S, hS, hb⟩ => ⟨S, fun g => .inl (hS g), hb⟩⟩
  refine ⟨Function.update S .EMEC (fieldBit s.sctlr2El2.stored .EMEC), fun g => ?_, ?_⟩
  · by_cases hg : g = .EMEC
    · subst hg
      exact ⟨_, stored_mem_visible _, Function.update_self ..⟩
    · rw [Function.update_of_ne hg]
      exact (hS g).resolve_right fun hE => hg hE.1
  · rw [← hb]
    exact eff2Of_congr _ _ (fun g hg => Function.update_of_ne hg _ _) hf

/-- Where EMEC is present, EL2 enabled and `Z2` false, its Effective value is the stored bit. -/
theorem eff2Of_emec {c : Cfg} {e : Env} (hx : sctlr2Exists c = true) (hm : c.FEAT_MEC = true)
    (he : e.EL2Enabled = true) (hz : z2 c e = false) (S : Field → Bool) : eff2Of c e S .EMEC = S .EMEC := by
  simp [eff2Of, eff2Plain, present2, hx, hm, he, hz]

/-- There EMEC may govern as `b` exactly when a TLB may hold `b` or it is that of a value that may be found. -/
theorem eff2May_emec_iff {s : State} (hx : sctlr2Exists s.cfg = true) (hm : s.cfg.FEAT_MEC = true)
    (he : s.env.EL2Enabled = true) (hz : z2 s.cfg s.env = false) (b : Bool) :
    s.Eff2May .EMEC b ↔ b ∈ s.emecCopies := by
  rw [mem_emecCopies]
  constructor
  · rintro ⟨S, hS, hb⟩
    rw [eff2Of_emec hx hm he hz] at hb
    subst hb
    obtain ⟨w, hw, hSw⟩ | ⟨-, hmem⟩ := hS .EMEC
    · exact .inr ⟨w, hw, hSw.symm⟩
    · exact .inl hmem
  · intro hb
    refine ⟨Function.update (fieldBit s.sctlr2El2.stored) .EMEC b, fun g => ?_, ?_⟩
    · by_cases hg : g = .EMEC
      · subst hg
        rw [Function.update_self]
        obtain hmem | ⟨v, hv, hvb⟩ := hb
        · exact .inr ⟨rfl, hmem⟩
        · exact .inl ⟨v, hv, hvb.symm⟩
      · rw [Function.update_of_ne hg]
        exact .inl ⟨_, stored_mem_visible _, rfl⟩
    · rw [eff2Of_emec hx hm he hz, Function.update_self]

/-- Settles O47: the values a mechanism may find, then the field in question. -/
theorem valuesThatMayGovern : Obligations.ValuesThatMayGovern := by
  intro s f b
  refine ⟨fun hp => ?_, fun hp hf => ?_, fun v w hr => ?_, fun v w hr hf => ?_, fun hs ha hm he hnz => ?_⟩
  · rw [State.Eff1May, visible_of_settled hp, exists_fieldBits_single]
  · rw [eff2May_iff_of_ne s hf, visible_of_settled hp, exists_fieldBits_single, State.eff2]
  · rw [State.Eff1May, hr, visible_one, exists_fieldBits_pair]
  · rw [eff2May_iff_of_ne s hf, hr, visible_one, exists_fieldBits_pair]
  · have hx : sctlr2Exists s.cfg = true := (sctlr2Exists_iff _).2 ⟨hs, ha⟩
    have hz : z2 s.cfg s.env = false := by rwa [Bool.eq_false_iff, ne_eq, z2_iff]
    refine ⟨(eff2May_emec_iff hx hm he hz b).trans (mem_emecCopies s b), fun hb => ?_⟩
    have hcopy : b ∈ s.syncAll.tlbEmec := (eff2May_emec_iff hx hm he hz b).1 hb
    exact (eff2May_emec_iff (s := s.syncAll) hx hm he hz b).2 (tlbEmec_subset_emecCopies hcopy)

/-! ### The Warm reset -/

/-- With every present bit 0 the Effective value is 0: a present sibling is 0 too. -/
theorem eff1Of_of_zero {c : Cfg} {e : Env} {S : Field → Bool} (h : ∀ g, present1 c g = true → S g = false)
    (f : Field) : eff1Of c e S f = false := by
  by_cases hc : Eff1Closed c e f
  · exact eff1Of_of_closed hc S
  · obtain ⟨-, hp, -⟩ := (not_eff1Closed_iff c e f).1 hc
    have hf : S f = false := h f hp
    have hn : c.FEAT_ANERR = true → S .EnANERR = false := h .EnANERR
    have hd : c.FEAT_ADERR = true → S .EnADERR = false := h .EnADERR
    cases f <;> simp +contextual [eff1Of, eff1Plain, hf, hn, hd]

/-- With every present bit 0 the band is left: the sibling it asks for is 0. -/
theorem siblingBand_of_zero {c : Cfg} {e : Env} {S : Field → Bool} (h : ∀ g, present1 c g = true → S g = false)
    (f : Field) : siblingBand c e S f = false := by
  rw [Bool.eq_false_iff, ne_eq, siblingBand_iff]
  rintro ⟨-, -, hn, hd, -, -, -, ⟨-, -, hS, -⟩ | ⟨-, -, hS, -⟩⟩
  · rw [h .EnADERR hd] at hS; cases hS
  · rw [h .EnANERR hn] at hS; cases hS

/-- The highest level without EL2 and EL3 is EL1, with EL2 and without EL3 it is EL2 (rule R5). -/
theorem highestEL_el1 {c : Cfg} (h3 : c.HaveEL3 = false) (h2 : c.HaveEL2 = false) : c.highestEL = .el1 := by
  simp [Cfg.highestEL, h3, h2]

theorem highestEL_el2 {c : Cfg} (h3 : c.HaveEL3 = false) (h2 : c.HaveEL2 = true) : c.highestEL = .el2 := by
  simp [Cfg.highestEL, h3, h2]

/-- A register that exists has nothing unsynchronised after a Warm reset. -/
theorem resetReg_pending_of_present {p : Bool} (hp : p = true) (z v : Word) (r : SysReg) :
    (resetReg p z v r).pending = [] := by
  rw [hp]; rfl

/-- A register that exists and is zeroed holds 0 in every present field after a Warm reset (rules R80, R81, R83). -/
theorem fieldBit_resetReg_of_present {p z : Bool} (hp : p = true) (hz : z = true) {present : Field → Bool} {f : Field}
    (hf : present f = true) (v : Word) (r : SysReg) :
    fieldBit (resetReg p (resetZeros z present) v r).stored f = false := by
  rw [hp, hz]
  exact fieldBit_resetReg present v r f hf

/-- With EL1 the highest level a Warm reset zeroes the present fields of `SCTLR2_EL1` (rule R80). -/
theorem warmReset_sctlr2El1 (s : State) (e : Env) (hx : sctlr2Exists s.cfg = true) (h3 : s.cfg.HaveEL3 = false)
    (h2 : s.cfg.HaveEL2 = false) (f : Field) (hf : present1 s.cfg f = true) :
    fieldBit (s.warmReset e).sctlr2El1.stored f = false :=
  fieldBit_resetReg_of_present hx (by rw [highestEL_el1 h3 h2]; rfl) hf _ _

/-- With EL2 the highest level it zeroes those of `SCTLR2_EL2`, present by their feature (rule R81). -/
theorem warmReset_sctlr2El2 (s : State) (e : Env) (hx : sctlr2Exists s.cfg = true) (h3 : s.cfg.HaveEL3 = false)
    (h2 : s.cfg.HaveEL2 = true) (f : Field) (hf : present2 s.cfg true f = true) :
    fieldBit (s.warmReset e).sctlr2El2.stored f = false :=
  fieldBit_resetReg_of_present hx (by rw [highestEL_el2 h3 h2]; rfl) hf _ _

/-- With EL1 the highest level it zeroes those of `SCTLR2MASK_EL1` (rule R83, log entry 29). -/
theorem warmReset_sctlr2MaskEl1 (s : State) (e : Env) (hm : (s.cfg.FEAT_SRMASK && s.cfg.FEAT_AA64) = true)
    (h3 : s.cfg.HaveEL3 = false) (h2 : s.cfg.HaveEL2 = false) (f : Field) (hf : present1 s.cfg f = true) :
    fieldBit (s.warmReset e).sctlr2MaskEl1.stored f = false :=
  fieldBit_resetReg_of_present hm (by rw [highestEL_el1 h3 h2]; rfl) hf _ _

/-- With EL1 the highest level every Effective value of `SCTLR2_EL1` is 0 after a Warm reset: the register does not exist,
or its present fields are 0. -/
theorem warmReset_eff1 (s : State) (e : Env) (h3 : s.cfg.HaveEL3 = false) (h2 : s.cfg.HaveEL2 = false) (f : Field) :
    (s.warmReset e).eff1 f = false := by
  have hcfg : (s.warmReset e).cfg = s.cfg := rfl
  rw [State.eff1, hcfg]
  cases hx : sctlr2Exists s.cfg
  case false =>
    have hc : Eff1Closed s.cfg (s.warmReset e).env f := .inl hx
    rw [siblingBand_of_closed hc, if_neg Bool.false_ne_true, eff1Of_of_closed hc]
  case true =>
    have hzero := warmReset_sctlr2El1 s e hx h3 h2
    rw [siblingBand_of_zero hzero, if_neg Bool.false_ne_true, eff1Of_of_zero hzero]

/-- Settles O57, register by register. -/
theorem warmResetValues : Obligations.WarmResetValues := by
  intro s e
  refine ⟨fun hs ha => ?_, fun hf ha => ?_, fun h3 h2 f => warmReset_eff1 s e h3 h2 f, rfl, rfl, rfl, rfl,
    (pcAligned_iff _).2 (warmReset_pc s e)⟩
  · have hx : sctlr2Exists s.cfg = true := (sctlr2Exists_iff _).2 ⟨hs, ha⟩
    exact ⟨warmReset_sctlr2El1 s e hx, warmReset_sctlr2El2 s e hx, resetReg_pending_of_present hx _ _ _,
      resetReg_pending_of_present hx _ _ _⟩
  · have hm : (s.cfg.FEAT_SRMASK && s.cfg.FEAT_AA64) = true := by rw [hf, ha]; rfl
    exact ⟨warmReset_sctlr2MaskEl1 s e hm, resetReg_pending_of_present hm _ _ _,
      resetReg_pending_of_present hm _ _ _⟩

end Sys2Proof.Machine
end

section
/-!
PROOFS. The program text under every step, where an instruction or a fetch is refused, and what a synchronisation leaves.
-/

namespace Sys2Proof.Machine

/-! ### The program text -/

/-- A slot clear of the program text has none of its bytes among its eight (rule R104). -/
theorem outside_slot_of_text {s : State} {off : Word} {a : Nat} (hclear : s.nvHitsText off = false)
    (ha : s.text.contains a = true) : a < (s.nvAddr off).toNat ∨ (s.nvAddr off).toNat + 8 ≤ a := by
  by_contra hin
  obtain ⟨k, hk, rfl⟩ : ∃ k < 8, a = (s.nvAddr off).toNat + k := ⟨a - (s.nvAddr off).toNat, by omega, by omega⟩
  exact List.any_eq_false.1 hclear k (List.mem_range.2 hk) ha

/-- An instruction that completes keeps every byte of the program text: a store is clear of it, and nothing else writes
memory. -/
theorem exec_keeps_text {i : Instr} {s s' : State} {a : Nat} (hw : Memory.wf s.mem) (h : exec i s = .next s')
    (ha : s.text.contains a = true) : Memory.readByte s'.mem a = Memory.readByte s.mem a := by
  obtain hm | ⟨off, -, -, ⟨-, hclear⟩, rfl⟩ := exec_next_mem h
  · rw [hm]
  · obtain ⟨-, -, hout⟩ := afterStore_frame s off i.operand hw
    exact hout a (outside_slot_of_text hclear ha)

/-- Settles O58: no outside event writes memory, and no instruction writes the program text. -/
theorem programTextNeverChanges : Obligations.ProgramTextNeverChanges := by
  intro s s' hw h
  obtain ⟨ev, rest, -, -, rfl⟩ | ⟨rest, i, -, -, hx⟩ := step_next h
  · exact ⟨applyEvent_cfg _ _, applyEvent_text _ _, fun a _ => by rw [applyEvent_mem]⟩
  · obtain ⟨hcfg, -, -, htext, -, -⟩ := exec_next_fixed hx
    exact ⟨hcfg, htext, fun a ha => exec_keeps_text (s := { s with inbox := rest }) hw hx ha⟩

/-! ### Refusals and NVMemFault -/

/-- A load is refused only over a misaligned base (rule R94). -/
theorem loadOutcome_refused {s : State} {off : Word} {t : Nat} {r : Refusal} (h : s.loadOutcome off t = .refused r) :
    r = .nvBaseMisaligned ∧ s.nvAligned = false := by
  unfold State.loadOutcome at h
  split at h
  · rename_i hal; cases h; exact ⟨rfl, hal⟩
  split at h <;> cases h

/-- A store is refused over a misaligned base and, over an aligned one, on the program text (rules R94, R104). -/
theorem storeOutcome_refused {s : State} {off : Word} {t : Nat} {r : Refusal} (h : s.storeOutcome off t = .refused r) :
    (r = .nvBaseMisaligned ∧ s.nvAligned = false) ∨
    (r = .nvStoreOverlapsText ∧ s.nvAligned = true ∧ s.nvHitsText off = true) := by
  unfold State.storeOutcome at h
  split at h
  · rename_i hal; cases h; exact .inl ⟨rfl, hal⟩
  split at h
  · rename_i hal hhit; cases h; exact .inr ⟨rfl, by simpa using hal, hhit⟩
  split at h <;> cases h

/-- A load faults only over an aligned base and at the environment's choice (rules R99, R182). -/
theorem loadOutcome_fault {s : State} {off : Word} {t : Nat} {f : Fault} (h : s.loadOutcome off t = .fault f) :
    s.env.NVMemFault = true ∧ s.nvAligned = true := by
  unfold State.loadOutcome at h
  split at h
  · cases h
  split at h
  · rename_i hal hf; exact ⟨hf, by simpa using hal⟩
  · cases h

/-- A store faults only over an aligned base and at the environment's choice (rules R99, R182). -/
theorem storeOutcome_fault {s : State} {off : Word} {t : Nat} {f : Fault} (h : s.storeOutcome off t = .fault f) :
    s.env.NVMemFault = true ∧ s.nvAligned = true := by
  unfold State.storeOutcome at h
  split at h
  · cases h
  split at h
  · cases h
  split at h
  · rename_i hal _ hf; exact ⟨hf, by simpa using hal⟩
  · cases h

/-- An instruction that neither completes nor is UNDEFINED nor traps is a redirected access, and its outcome that of the
NVMem transfer. -/
theorem exec_transfer {i : Instr} {s : State} {o : Out} (h : exec i s = o) (hnext : ∀ s', o ≠ .next s')
    (hundef : o ≠ .fault .undefined) (htrap : ∀ el, o ≠ .fault (.systemAccessTrap el 0x18 (encode i))) :
    s.env.EL = .el1 ∧ ∃ off, s.redirect i.accessor = some off ∧
      ((i.isRead = true ∧ s.loadOutcome off i.operand = o) ∨
       (i.isRead = false ∧ s.storeOutcome off i.operand = o)) := by
  have hout : ExecOutcome i s o := h ▸ exec_outcome i s
  obtain hu | ⟨-, ht⟩ | ⟨-, -, ht⟩ | ⟨off, he, hr, ho⟩ | ⟨s', hs⟩ := hout
  · exact absurd hu hundef
  · exact absurd ht (htrap _)
  · exact absurd ht (htrap _)
  · exact ⟨he, off, hr, ho.imp (fun ⟨hi, ho⟩ => ⟨hi, ho.symm⟩) (fun ⟨hi, ho⟩ => ⟨hi, ho.symm⟩)⟩
  · exact absurd hs (hnext s')

/-- A refused instruction is at EL1, over a misaligned base or, as a redirected store, on the program text. -/
theorem exec_refused {i : Instr} {s : State} {r : Refusal} (h : exec i s = .refused r) :
    s.env.EL = .el1 ∧
      ((r = .nvBaseMisaligned ∧ s.nvAligned = false) ∨
       (r = .nvStoreOverlapsText ∧ i.isRead = false ∧ s.nvAligned = true ∧
         ∃ off, s.redirect i.accessor = some off ∧ s.nvHitsText off = true)) := by
  obtain ⟨he, off, hr, ⟨-, ho⟩ | ⟨hi, ho⟩⟩ := exec_transfer h (by simp) (by simp) (by simp)
  · exact ⟨he, .inl (loadOutcome_refused ho)⟩
  · obtain hal | ⟨hrt, hal, hhit⟩ := storeOutcome_refused ho
    · exact ⟨he, .inl hal⟩
    · exact ⟨he, .inr ⟨hrt, hi, hal, off, hr, hhit⟩⟩

/-- An instruction that ends in NVMemFault is a redirected access over an aligned base, at the environment's choice. -/
theorem exec_nvMemFault {i : Instr} {s : State} (h : exec i s = .fault .nvMemFault) :
    s.env.NVMemFault = true ∧ s.nvAligned = true ∧ ∃ off, s.redirect i.accessor = some off := by
  obtain ⟨-, off, hr, ho⟩ := exec_transfer h (by simp) (by simp) (by simp)
  obtain ⟨hf, hal⟩ := ho.elim (fun ⟨_, ho⟩ => loadOutcome_fault ho) (fun ⟨_, ho⟩ => storeOutcome_fault ho)
  exact ⟨hf, hal, off, hr⟩

/-- The two slots (rule R91). -/
theorem redirect_offset {s : State} {n : AccName} {off : Word} (h : s.redirect n = some off) :
    off = 0x278#64 ∨ off = 0x328#64 := by
  obtain ⟨nv, hs, -, -⟩ := redirect_some h
  cases n <;> simp_all [slotOf]

/-- Under the launch premises no slot an access is redirected to overlaps the program text (rule R231). -/
theorem nvHitsText_of_launchPremises {s : State} {n : AccName} {off : Word} (hl : s.LaunchPremises)
    (hr : s.redirect n = some off) : s.nvHitsText off = false := by
  obtain ⟨-, -, h278, h328⟩ := hl
  obtain rfl | rfl := redirect_offset hr
  · exact h278
  · exact h328

/-- Under the launch premises no instruction is refused (rules R94, R104, R231). -/
theorem exec_not_refused_of_launchPremises {i : Instr} {s : State} (hl : s.LaunchPremises) (r : Refusal) :
    exec i s ≠ .refused r := by
  intro h
  obtain ⟨-, ⟨-, hal⟩ | ⟨-, -, -, off, hr, hhit⟩⟩ := exec_refused h
  · obtain ⟨-, hbase, -, -⟩ := hl
    rw [hbase] at hal; cases hal
  · rw [nvHitsText_of_launchPremises hl hr] at hhit; cases hhit

/-- Settles O36, from the causes of a refusal and of NVMemFault. -/
theorem refusedOnlyOutsidePremises : Obligations.RefusedOnlyOutsidePremises := fun _ _ =>
  ⟨fun r h => ⟨fun hl => exec_not_refused_of_launchPremises hl r h, exec_refused h⟩, exec_nvMemFault⟩

/-! ### Synchronisation -/

/-- A synchronisation settles every register, each with the draws left by the ones before it. -/
theorem syncAll_reg (s : State) (r : SysRegId) : ∃ d, s.syncAll.reg r = ((s.reg r).settle d).1 := by
  cases r <;> exact ⟨_, rfl⟩

/-- Writes that are all by one name are so by that of the first. -/
theorem oneName_of_forall {ws : List PendingWrite} {k : AccName} (h : ∀ w ∈ ws, w.name = k) : oneName ws = true := by
  cases ws with
  | nil => rfl
  | cons p ps =>
    obtain ⟨hp, hps⟩ := List.forall_mem_cons.1 h
    rw [oneName, List.all_eq_true]
    intro w hw
    rw [hps w hw, hp, beq_self_eq_true]

/-- Where only one name had written, a synchronisation leaves the value stored before it (rule R98 (a)). -/
theorem settle_of_oneName {r : SysReg} (h : oneName r.pending = true) (d : Nat) : r.settle d = (⟨r.stored, []⟩, d) :=
  if_pos h

/-- Two writes by two names have both orders (rules R95, R98 (b)). -/
theorem orders_two {u w : PendingWrite} (h : u.name ≠ w.name) : orders [u, w] = [[w, u], [u, w]] := by
  simp [orders, insertions, h]

/-- Two writes by two names may end either way, each merged under its own mask (rules R64, R95). -/
theorem settleCandidates_two {u w : PendingWrite} (b : Word) (h : u.name ≠ w.name) :
    SysReg.settleCandidates ⟨b, [u, w]⟩ =
      [maskedWrite (maskedWrite b w.value w.mask) u.value u.mask,
       maskedWrite (maskedWrite b u.value u.mask) w.value w.mask] := by
  rw [SysReg.settleCandidates, orders_two h]
  rfl

/-- Of two candidates the parity of the draw chooses. -/
theorem choose_two (a b d : Word) (n : Nat) : choose [a, b] d n = if Config.draw n % 2 = 0 then a else b := by
  obtain h0 | h1 := Nat.mod_two_eq_zero_or_one (Config.draw n)
  · simp [choose, h0]
  · simp [choose, h1]

/-- Which of the two it is is the next draw (log entry 6). -/
theorem settle_two {u w : PendingWrite} (b : Word) (d : Nat) (h : u.name ≠ w.name) :
    SysReg.settle ⟨b, [u, w]⟩ d =
      (⟨if Config.draw d % 2 = 0 then maskedWrite (maskedWrite b w.value w.mask) u.value u.mask
        else maskedWrite (maskedWrite b u.value u.mask) w.value w.mask, []⟩, d + 1) := by
  have hone : oneName [u, w] = false := by simp [oneName, h.symm]
  rw [SysReg.settle, hone, if_neg Bool.false_ne_true, settleCandidates_two b h, choose_two]

/-- A synchronisation keeps the stored value of a register that only one name had written. -/
theorem syncAll_stored_of_one {s : State} {r : SysRegId} {k : AccName} (h : ∀ w ∈ (s.reg r).pending, w.name = k) :
    (s.syncAll.reg r).stored = (s.reg r).stored := by
  obtain ⟨d, hd⟩ := syncAll_reg s r
  rw [hd, settle_of_oneName (oneName_of_forall h), stored_settled]

/-- Settles O45: every register settled, and the two orders of two writes. -/
theorem synchronisationSettles : Obligations.SynchronisationSettles := by
  refine ⟨fun s r n d => ?_, fun b u w d hn => ⟨settleCandidates_two b hn, settle_two b d hn⟩⟩
  have hnil := syncAll_pending s r
  exact ⟨hnil, view_of_own _ n d (by simp [hnil]), fun ⟨_, hk⟩ => syncAll_stored_of_one hk⟩

/-! ### The fetch -/

/-- A misaligned program counter stops the fetch (rule R94, log entry 9). -/
theorem fetch_of_misaligned {s : State} (ha : s.pcAligned = false) : s.fetch = .error .fetchMisaligned := by
  simp [State.fetch, ha]

/-- An aligned program counter outside the program text stops the fetch (rule R104, log entry 9). -/
theorem fetch_of_outside_text {s : State} (ha : s.pcAligned = true) (ht : s.pcInText = false) :
    s.fetch = .error .fetchOutsideText := by
  simp [State.fetch, ha, ht]

/-- A step whose fetch stops is refused for the fetch's reason: the fetch does not read the inbox. -/
theorem step_of_fetch_error {s : State} {r : Refusal} (hin : s.inbox = [] ∨ ∃ rest, s.inbox = .instruction :: rest)
    (hf : s.fetch = .error r) : step s = .refused r := by
  obtain ⟨rest, hin⟩ : ∃ rest, s.inbox = [] ∧ rest = [] ∨ s.inbox = .instruction :: rest :=
    hin.elim (fun h => ⟨[], .inl ⟨h, rfl⟩⟩) (fun ⟨rest, h⟩ => ⟨rest, .inr h⟩)
  have hf' : ({ s with inbox := rest } : State).fetch = .error r := hf
  rw [step_of_instruction hin, runInstruction, hf']

/-- Settles O7: each of the two premises stops the fetch, and with it the step. -/
theorem fetchStopsOutsidePremises : Obligations.FetchStopsOutsidePremises := fun _ hin =>
  ⟨fun ha => step_of_fetch_error hin (fetch_of_misaligned ha),
   fun ha ht => step_of_fetch_error hin (fetch_of_outside_text ha ht)⟩

end Sys2Proof.Machine
end

section
/-!
PROOFS. The encoding: which row a word decodes by, that the decoder and the encoder are inverse to each other, the words
of no row, and the names that do not exist.
-/

namespace Sys2Proof.Machine

/-! ### The rows -/

/-- The match words of the table tell its rows apart (rule R113). -/
theorem row_eq_of_pattern_eq {r q : Row} (hr : r ∈ rows) (hq : q ∈ rows) (h : r.pattern = q.pattern) : r = q :=
  List.inj_on_of_nodup_map (f := Row.pattern) (by decide) hr hq h

/-- The instructions of the table tell its rows apart, whatever the operand. -/
theorem row_eq_of_make_eq {r q : Row} {t : Nat} (hr : r ∈ rows) (hq : q ∈ rows) (h : r.make t = q.make t) : r = q :=
  List.inj_on_of_nodup_map (f := fun p : Row => p.make t) (by simp [rows]) hr hq h

/-- The search of the decoder finds a row exactly when the masked bits are the row's: no second row has them. -/
theorem find_row_eq_some_iff (m : InstrWord) (row : Row) :
    rows.find? (fun r => m == r.pattern) = some row ↔ row ∈ rows ∧ m = row.pattern := by
  constructor
  · intro h
    exact ⟨List.mem_of_find?_eq_some h, by simpa using List.find?_some h⟩
  · rintro ⟨hrow, hm⟩
    cases hfind : rows.find? (fun r => m == r.pattern) with
    | none => exact absurd hm (by simpa using List.find?_eq_none.mp hfind row hrow)
    | some q =>
      have hq : m = q.pattern := by simpa using List.find?_some hfind
      rw [row_eq_of_pattern_eq (List.mem_of_find?_eq_some hfind) hrow (hq.symm.trans hm)]

/-- What the decoder answers: the instruction of the row whose match the masked bits are, with operand `w[4:0]`. -/
theorem decodeWord_eq_some_iff (w : InstrWord) (i : Instr) :
    decodeWord w = some i ↔ ∃ row ∈ rows, w &&& rowMask = row.pattern ∧ row.make (rtOf w) = i := by
  simp [decodeWord, find_row_eq_some_iff, and_assoc]

/-- The decoder answers the instruction of one given row exactly when the masked bits are that row's. -/
theorem decodeWord_eq_make_iff {row : Row} (hrow : row ∈ rows) (w : InstrWord) :
    decodeWord w = some (row.make (rtOf w)) ↔ w &&& rowMask = row.pattern := by
  rw [decodeWord_eq_some_iff]
  constructor
  · rintro ⟨q, hq, hm, hmake⟩
    rw [← row_eq_of_make_eq hq hrow hmake, hm]
  · exact fun hm => ⟨row, hrow, hm, rfl⟩

/-- The decoder answers nothing exactly for the words of no row (rule R116). -/
theorem decodeWord_eq_none_iff (w : InstrWord) : decodeWord w = none ↔ ∀ row ∈ rows, w &&& rowMask ≠ row.pattern := by
  simp [decodeWord]

/-! ### The operand field -/

/-- The operand field holds a number of 5 bits. -/
theorem rtOf_lt (w : InstrWord) : rtOf w < 32 := (w.extractLsb' 0 5).isLt

/-- The operand field, as the statements write it: the bits under `0x1F`. -/
theorem rtOf_eq_and (w : InstrWord) : rtOf w = (w &&& 0x1F#32).toNat := by
  rw [rtOf, BitVec.extractLsb'_toNat, BitVec.toNat_and, Nat.shiftRight_zero]
  exact (Nat.and_two_pow_sub_one_eq_mod w.toNat 5).symm

/-- The mask of the rows is the complement of the operand field, so the masked bits and the operand are the whole word. -/
theorem eq_of_masked_of_rtOf {w v : InstrWord} (hmask : w &&& rowMask = v &&& rowMask) (hrt : rtOf w = rtOf v) :
    w = v := by
  have hsplit : ∀ u : InstrWord, u = u &&& rowMask ||| u &&& 0x1F#32 := by
    intro u
    have hall : rowMask ||| 0x1F#32 = BitVec.allOnes 32 := by decide
    rw [← BitVec.and_or_distrib_left, hall, BitVec.and_allOnes]
  have hlow : w &&& 0x1F#32 = v &&& 0x1F#32 := by
    rw [rtOf_eq_and, rtOf_eq_and] at hrt
    exact BitVec.eq_of_toNat_eq hrt
  rw [hsplit w, hsplit v, hmask, hlow]

/-! ### Decoder and encoder -/

/-- Each row's instruction carries the operand it is made with. -/
theorem row_make_operand {row : Row} (hrow : row ∈ rows) (t : Nat) : (row.make t).operand = t := by
  simp only [rows, List.mem_cons, List.not_mem_nil, or_false] at hrow
  obtain rfl | rfl | rfl | rfl | rfl | rfl | rfl | rfl | rfl | rfl | rfl | rfl := hrow <;> rfl

/-- The instruction of a row, made with an operand of 5 bits, is well formed. -/
theorem row_make_wellFormed {row : Row} (hrow : row ∈ rows) {t : Nat} (ht : t < 32) : (row.make t).WellFormed := by
  simpa [Instr.WellFormed, Instr.wellFormed, row_make_operand hrow] using ht

/-- A word with a row's masked bits is the encoding of the row's instruction with operand `w[4:0]`: the encoding decodes
to that instruction, so its masked bits are the row's too. -/
theorem encode_row_make {row : Row} (hrow : row ∈ rows) {w : InstrWord} (hm : w &&& rowMask = row.pattern) :
    encode (row.make (rtOf w)) = w := by
  have hwf := row_make_wellFormed hrow (rtOf_lt w)
  have hrt : rtOf (encode (row.make (rtOf w))) = rtOf w :=
    (Laws.EncodeFields.of_wellFormed _ hwf).1.trans (row_make_operand hrow _)
  have hmask : encode (row.make (rtOf w)) &&& rowMask = row.pattern := by
    rw [← decodeWord_eq_make_iff hrow, hrt]
    exact decodeWord_encode _ hwf
  exact eq_of_masked_of_rtOf (hmask.trans hm.symm) hrt

/-- A word that decodes: the first four bytes make the instruction, the others are left. -/
theorem decodeBytes_of_some {w : InstrWord} {i : Instr} (h : decodeWord w = some i) (rest : List Byte) :
    decodeBytes (bytesOfWord w ++ rest) = .ok (i, rest) := by
  simp only [bytesOfWord, List.cons_append, List.nil_append, decodeBytes, wordOfBytes_bytesOfWord, h]

/-- A word that does not decode is rejected by name (rule R116). -/
theorem decodeBytes_of_none {w : InstrWord} (h : decodeWord w = none) (rest : List Byte) :
    decodeBytes (bytesOfWord w ++ rest) = .error .notInThisSpec := by
  simp only [bytesOfWord, List.cons_append, List.nil_append, decodeBytes, wordOfBytes_bytesOfWord, h]

/-- Settles O1: the four bytes make the instruction's word again, and the word decodes to it. -/
theorem decodeOfEncode : Obligations.DecodeOfEncode := fun i rest hi =>
  decodeBytes_of_some (decodeWord_encode i hi) rest

/-- Settles O2: the row the decoder found gives the masked bits, the operand field the others. -/
theorem encodeOfDecode : Obligations.EncodeOfDecode := by
  intro w i h
  obtain ⟨row, hrow, hm, rfl⟩ := (decodeWord_eq_some_iff w i).mp h
  exact ⟨row_make_wellFormed hrow (rtOf_lt w), encode_row_make hrow hm⟩

/-- Settles O3, row by row. -/
theorem rowsDecideDecoding : Obligations.RowsDecideDecoding := by
  intro w
  have hrows : ∀ row ∈ rows, w &&& 0xFFFFFFE0#32 = row.pattern ↔
      decodeWord w = some (row.make (w &&& 0x1F#32).toNat) := by
    intro row hrow
    rw [← rtOf_eq_and]
    exact (decodeWord_eq_make_iff hrow w).symm
  simpa only [rows, List.forall_mem_cons, List.not_mem_nil, IsEmpty.forall_iff, implies_true,
    and_true] using hrows

/-- Settles O4: each of the seven words is the encoding of its instruction. -/
theorem writtenWordsDecode : Obligations.WrittenWordsDecode := by
  have hdecode : ∀ {w : InstrWord} {i : Instr}, encode i = w → i.WellFormed → decodeWord w = some i :=
    fun he hi => he ▸ decodeWord_encode _ hi
  refine ⟨?_, ?_, ?_, ?_, ?_, ?_, ?_⟩ <;> exact hdecode (by decide) (by decide)

/-! ### Words of no row -/

/-- The fetch rejects a word that does not decode (rule R116). -/
theorem fetch_of_decodeWord_none {s : State} {w : InstrWord} (ha : s.pcAligned = true) (ht : s.pcInText = true)
    (hb : s.fetchBytes = bytesOfWord w) (hw : decodeWord w = none) : s.fetch = .error .notInThisSpec := by
  have hd : decodeBytes s.fetchBytes = .error .notInThisSpec := by
    rw [hb, ← List.append_nil (bytesOfWord w)]
    exact decodeBytes_of_none hw []
  simp [State.fetch, ha, ht, hd]

/-- Settles O5: a word of no row does not decode, so the fetch stops and the step with it. -/
theorem unlistedWordRefused : Obligations.UnlistedWordRefused := by
  intro s w hin ha ht hb hne
  have hw : decodeWord w = none := (decodeWord_eq_none_iff w).mpr fun row hrow =>
    hne row.pattern (List.mem_map_of_mem (f := Row.pattern) hrow)
  exact step_of_fetch_error hin (fetch_of_decodeWord_none ha ht hb hw)

/-! ### Names that do not exist -/

/-- Whether an accessor name exists: its register's features, and the feature that heads its accessor page (rule R115). -/
def accessorPresent : AccName → State → Bool
  | .sctlr2El1 | .sctlr2El2 => sctlr2Present
  | .sctlr2El12 => sctlr2El12Present
  | .sctlr2AliasEl1 => sctlr2AliasPresent
  | .sctlr2MaskEl1 => sctlr2MaskPresent
  | .sctlr2MaskEl12 => sctlr2MaskEl12Present

/-- Every instruction begins with the test of its name and the split by Exception level (rule R186). -/
theorem exec_eq_byLevel (i : Instr) (s : State) :
    ∃ el1 el2 el3, exec i s = byLevel (accessorPresent i.accessor s) s el1 el2 el3 := by
  cases i <;> exact ⟨_, _, _, rfl⟩

/-- An instruction whose name does not exist is UNDEFINED at every Exception level (rule R115). -/
theorem exec_undefined_of_absent {i : Instr} {s : State} (h : ¬accessorPresent i.accessor s = true) :
    exec i s = .fault .undefined := by
  obtain ⟨el1, el2, el3, hexec⟩ := exec_eq_byLevel i s
  simp [hexec, byLevel, h, raiseUndefined]

/-- Every instruction is UNDEFINED at EL0 (rule R115). -/
theorem exec_undefined_of_el0 {s : State} (he : s.env.EL = .el0) (i : Instr) : exec i s = .fault .undefined := by
  obtain ⟨el1, el2, el3, hexec⟩ := exec_eq_byLevel i s
  simp [hexec, byLevel, he, raiseUndefined]

/-- The features a name needs: FEAT_AA64 each, and the others the names listed before them (rule R115). -/
theorem accessorPresent_iff (n : AccName) (s : State) : accessorPresent n s = true ↔
    s.cfg.FEAT_AA64 = true ∧
    (n ∈ [.sctlr2El1, .sctlr2El12, .sctlr2AliasEl1, .sctlr2El2] → s.cfg.FEAT_SCTLR2 = true) ∧
    (n ∈ [.sctlr2AliasEl1, .sctlr2MaskEl1, .sctlr2MaskEl12] → s.cfg.FEAT_SRMASK = true) ∧
    (n ∈ [.sctlr2El12, .sctlr2MaskEl12] → s.cfg.FEAT_VHE = true) := by
  cases n <;>
    simp [accessorPresent, sctlr2Present, sctlr2El12Present, sctlr2AliasPresent, sctlr2MaskPresent,
      sctlr2MaskEl12Present, and_comm, and_assoc, and_left_comm]

/-- Settles O34: EL0 by the split of every instruction, the other clauses by the features its name needs. -/
theorem absentNamesUndefined : Obligations.AbsentNamesUndefined := by
  intro t s
  refine ⟨fun h i hi => ?_, fun h i hi => ?_, exec_undefined_of_el0, fun h i hi => ?_, fun h i hi => ?_⟩ <;>
    refine exec_undefined_of_absent fun hp => ?_ <;>
    obtain ⟨haa64, hsctlr2, hsrmask, hvhe⟩ := (accessorPresent_iff _ _).mp hp
  · exact h ⟨hsctlr2 (by revert i; simp [Instr.accessor]), haa64⟩
  · exact h ⟨hsrmask (by revert i; simp [Instr.accessor]), haa64⟩
  · exact Bool.false_ne_true (h.symm.trans (hvhe (by revert i; simp [Instr.accessor])))
  · exact Bool.false_ne_true (h.symm.trans (hsrmask (by revert i; simp [Instr.accessor])))

end Sys2Proof.Machine
end

section
/-!
PROOFS. The outcomes of the accessors: each check as the if-chain of the pseudocode, the two shapes the accessors have, and
for each form of the SCTLR2 names its outcome branch by branch and its result where no check fires.
-/

namespace Sys2Proof.Machine

/-! ### The trapped word -/

/-- A match word has its bits where the row mask has its own. -/
theorem row_pattern_and_rowMask {row : Row} (hrow : row ∈ rows) : row.pattern &&& rowMask = row.pattern := by
  simp only [rows, List.mem_cons, List.not_mem_nil, or_false] at hrow
  obtain rfl | rfl | rfl | rfl | rfl | rfl | rfl | rfl | rfl | rfl | rfl | rfl := hrow <;> rfl

/-- An operand of 5 bits lies outside the row mask. -/
theorem operand_and_rowMask {t : Nat} (ht : t < 32) : BitVec.ofNat 32 t &&& rowMask = 0#32 := by
  revert t; decide

/-- The match word of a row with an operand put in has the row's masked bits. -/
theorem row_word_and_rowMask {row : Row} (hrow : row ∈ rows) {t : Nat} (ht : t < 32) :
    (row.pattern ||| BitVec.ofNat 32 t) &&& rowMask = row.pattern := by
  rw [BitVec.and_or_distrib_right, row_pattern_and_rowMask hrow, operand_and_rowMask ht, BitVec.or_zero]

/-- The match word of a row with an operand put in has that operand. -/
theorem rtOf_row_word {row : Row} (hrow : row ∈ rows) {t : Nat} (ht : t < 32) :
    rtOf (row.pattern ||| BitVec.ofNat 32 t) = t := by
  have hlow : ∀ u < 32, BitVec.ofNat 32 u &&& 0x1F#32 = BitVec.ofNat 32 u := by decide
  have hpat : row.pattern &&& 0x1F#32 = 0#32 := by
    have hmask : rowMask &&& 0x1F#32 = 0#32 := by decide
    rw [← row_pattern_and_rowMask hrow, BitVec.and_assoc, hmask, BitVec.and_zero]
  rw [rtOf_eq_and, BitVec.and_or_distrib_right, hpat, BitVec.zero_or, hlow t ht, BitVec.toNat_ofNat]
  omega

/-- The word of an instruction, as the statements write it: its row's match word with the operand put in (rule R113). -/
theorem encode_row_make_eq {row : Row} (hrow : row ∈ rows) {t : Nat} (ht : t < 32) :
    encode (row.make t) = row.pattern ||| BitVec.ofNat 32 t := by
  have henc := encode_row_make hrow (row_word_and_rowMask hrow ht)
  rwa [rtOf_row_word hrow ht] at henc

/-! ### The checks, as the statements write them -/

section
variable {i : Instr} {s : State} {w : InstrWord} (hw : encode i = w)

/-- The outer chain: the name's features, EL0, and the branch of each other level (rule R186 classes 1 and 2). -/
theorem byLevel_eq {p : Bool} {P : Prop} [Decidable P] (hp : p = true ↔ P) (el1 el2 el3 : Out) :
    byLevel p s el1 el2 el3 =
      (if ¬P then .fault .undefined
       else if s.env.EL = .el0 then .fault .undefined
       else if s.env.EL = .el1 then el1
       else if s.env.EL = .el2 then el2
       else el3) := by
  by_cases hP : P
  · have hp' : p = true := hp.mpr hP
    cases he : s.env.EL <;> simp [byLevel, raiseUndefined, hP, hp', he]
  · have hp' : p = false := Bool.eq_false_iff.mpr fun h => hP (hp.mp h)
    simp [byLevel, raiseUndefined, hP, hp']

include hw

/-- Class 7 (rule R186). -/
theorem el3Gate_eq (en : Bool) (k : Out) :
    el3Gate i s en k =
      (if s.cfg.HaveEL3 = true ∧ en = false then
        (if s.env.SDDUndef = true then .fault .undefined else .fault (.systemAccessTrap .el3 0x18 w))
       else k) := by
  simp [el3Gate, raiseUndefined, raiseSystemAccessTrap, hw]

/-- Classes 3 and 7 (rule R186). -/
theorem el2Gate_eq (en : Bool) (k : Out) :
    el2Gate i s en k =
      (if s.cfg.HaveEL3 = true ∧ s.env.SDDUndefPriority = true ∧ en = false then .fault .undefined
       else if s.cfg.HaveEL3 = true ∧ en = false then
        (if s.env.SDDUndef = true then .fault .undefined else .fault (.systemAccessTrap .el3 0x18 w))
       else k) := by
  simp [el2Gate, raiseUndefined, el3Gate_eq hw, and_assoc]

/-- Classes 3 to 7 (rule R186). -/
theorem el1Gate_eq {fg : Bool} {F : Prop} [Decidable F] (hf : fg = true ↔ F) (en tv hc : Bool) (k : Out) :
    el1Gate i s en tv fg hc k =
      (if s.cfg.HaveEL3 = true ∧ s.env.SDDUndefPriority = true ∧ en = false then .fault .undefined
       else if s.env.EL2Enabled = true ∧ tv = true then .fault (.systemAccessTrap .el2 0x18 w)
       else if s.env.EL2Enabled = true ∧ F then .fault (.systemAccessTrap .el2 0x18 w)
       else if s.env.EL2Enabled = true ∧ (s.env.HCRXEnabled = false ∨ hc = false) then
        .fault (.systemAccessTrap .el2 0x18 w)
       else if s.cfg.HaveEL3 = true ∧ en = false then
        (if s.env.SDDUndef = true then .fault .undefined else .fault (.systemAccessTrap .el3 0x18 w))
       else k) := by
  simp [el1Gate, raiseUndefined, raiseSystemAccessTrap, el3Gate_eq hw, hw, hf, and_assoc]

/-- Class 8' (rule R186). -/
theorem nvTrap_eq :
    nvTrap i s =
      (if s.env.NVx.getLsbD 0 = true then .fault (.systemAccessTrap .el2 0x18 w) else .fault .undefined) := by
  simp [nvTrap, raiseUndefined, raiseSystemAccessTrap, hw]

end

/-! ### NVMem transfers and masked writes under a premise -/

/-- Over an aligned base a load ends in NVMemFault or completes (rules R94, R99). -/
theorem loadOutcome_of_aligned {s : State} (hal : s.nvAligned = true) (off : Word) (t : Nat) :
    s.loadOutcome off t = if s.env.NVMemFault = true then .fault .nvMemFault else .next (s.afterLoad off t) := by
  simp [State.loadOutcome, hal]

/-- Over an aligned base and clear of the program text a store ends in NVMemFault or completes (rules R94, R99, R104). -/
theorem storeOutcome_of_clear {s : State} {off : Word} (hal : s.nvAligned = true) (hclear : s.nvHitsText off = false)
    (t : Nat) :
    s.storeOutcome off t = if s.env.NVMemFault = true then .fault .nvMemFault else .next (s.afterStore off t) := by
  simp [State.storeOutcome, hal, hclear]

/-- A load that can complete does. -/
theorem loadOutcome_of_ready {s : State} {off : Word} {t : Nat} (h : s.LoadReady) :
    s.loadOutcome off t = .next (s.afterLoad off t) := by
  obtain ⟨hal, hfault⟩ := h
  simp [loadOutcome_of_aligned hal, hfault]

/-- A store that can complete does. -/
theorem storeOutcome_of_ready {s : State} {off : Word} {t : Nat} (h : s.StoreReady off) :
    s.storeOutcome off t = .next (s.afterStore off t) := by
  obtain ⟨⟨hal, hfault⟩, hclear⟩ := h
  simp [storeOutcome_of_clear hal hclear, hfault]

/-- With FEAT_SRMASK a masked write is a merge (rule R64). -/
theorem afterMasked_of_srmask {s : State} (h : s.cfg.FEAT_SRMASK = true) (n : AccName) (r : SysRegId) (em : Word × Nat)
    (t : Nat) : s.afterMasked n r em t = s.afterMerge n r (s.readX t) em.1 em.2 :=
  if_pos h

/-! ### The shape of a form by an `_EL1` name -/

/-- A form by an `_EL1` name, in the answers it gives past the checks: redirected at EL1 (`slot`), at EL1 (`el1`), at EL2 in
host (`host`), and at EL2 out of host and at EL3 (`own`). -/
def el1Form (i : Instr) (s : State) (p en tv fg hc : Bool) (slot el1 host own : Out) : Out :=
  byLevel p s (el1Gate i s en tv fg hc (if s.env.NVx = 0b111#3 then slot else el1))
    (el2Gate i s en (if s.env.EL2InHost = true then host else own)) own

section
variable {i : Instr} {s : State} {p en tv fg hc : Bool} {slot el1 host own : Out} {F : Prop}

/-- The whole if-chain of a form by an `_EL1` name (rules R130, R131, R134, R135). -/
theorem el1Form_eq {w : InstrWord} {P : Prop} [Decidable P] [Decidable F] (hp : p = true ↔ P) (hf : fg = true ↔ F)
    (hw : encode i = w) :
    el1Form i s p en tv fg hc slot el1 host own =
      (if ¬P then .fault .undefined
       else if s.env.EL = .el0 then .fault .undefined
       else if s.env.EL = .el1 then
        (if s.cfg.HaveEL3 = true ∧ s.env.SDDUndefPriority = true ∧ en = false then .fault .undefined
         else if s.env.EL2Enabled = true ∧ tv = true then .fault (.systemAccessTrap .el2 0x18 w)
         else if s.env.EL2Enabled = true ∧ F then .fault (.systemAccessTrap .el2 0x18 w)
         else if s.env.EL2Enabled = true ∧ (s.env.HCRXEnabled = false ∨ hc = false) then
          .fault (.systemAccessTrap .el2 0x18 w)
         else if s.cfg.HaveEL3 = true ∧ en = false then
          (if s.env.SDDUndef = true then .fault .undefined else .fault (.systemAccessTrap .el3 0x18 w))
         else if s.env.NVx = 0b111#3 then slot
         else el1)
       else if s.env.EL = .el2 then
        (if s.cfg.HaveEL3 = true ∧ s.env.SDDUndefPriority = true ∧ en = false then .fault .undefined
         else if s.cfg.HaveEL3 = true ∧ en = false then
          (if s.env.SDDUndef = true then .fault .undefined else .fault (.systemAccessTrap .el3 0x18 w))
         else if s.env.EL2InHost = true then host
         else own)
       else own) := by
  rw [el1Form, byLevel_eq hp, el1Gate_eq hw hf, el2Gate_eq hw]

/-- A form by an `_EL1` name where no check fires (rules R137, R198); `completed` is the answer of the slot when it is ready. -/
theorem el1Form_open {o completed : Out} {Ready : Prop} (ho : o = el1Form i s p en tv fg hc slot el1 host own)
    (hp : p = true) (hf : fg = true ↔ F) (hready : Ready → slot = completed) :
    (s.env.EL = .el1 → El3Allows s en → El2Allows s tv F hc →
      (s.env.NVx = 0b111#3 → o = slot ∧ (Ready → o = completed)) ∧ (s.env.NVx ≠ 0b111#3 → o = el1)) ∧
    (s.env.EL = .el2 → El3Allows s en →
      (s.env.EL2InHost = true → o = host) ∧ (s.env.EL2InHost = false → o = own)) ∧
    (s.env.EL = .el3 → o = own) := by
  rw [el1Form] at ho
  refine ⟨fun he h3 h2 => ?_, fun he h3 => ?_, fun he => ?_⟩
  · rw [← hf] at h2
    rw [byLevel_el1 hp he, el1Gate_open _ _ _ _ _ _ _ h3 h2] at ho
    refine ⟨fun hnv => ?_, fun hnv => by rw [ho, if_neg hnv]⟩
    rw [if_pos hnv] at ho
    exact ⟨ho, fun hr => ho.trans (hready hr)⟩
  · rw [byLevel_el2 hp he, el2Gate_open _ _ _ _ h3] at ho
    exact ⟨fun hh => by rw [ho, if_pos hh], fun hh => by rw [ho, if_neg (by simp [hh])]⟩
  · rw [ho, byLevel_el3 hp he]

end

/-! ### The shape of a form by an `_EL12` name -/

/-- A form by an `_EL12` name, in the answers it gives past the checks: redirected at EL1 (`slot`), and at EL2 and EL3 in host
(`host`). -/
def el12Form (i : Instr) (s : State) (p en : Bool) (slot host : Out) : Out :=
  byLevel p s (if s.env.NVx = 0b101#3 then slot else nvTrap i s)
    (if s.env.EL2InHost = true then el2Gate i s en host else raiseUndefined)
    (if s.env.EL2InHost = true then host else raiseUndefined)

section
variable {i : Instr} {s : State} {p en : Bool} {slot host : Out}

/-- The whole if-chain of a form by an `_EL12` name (rules R132, R133). -/
theorem el12Form_eq {w : InstrWord} {P : Prop} [Decidable P] (hp : p = true ↔ P) (hw : encode i = w) :
    el12Form i s p en slot host =
      (if ¬P then .fault .undefined
       else if s.env.EL = .el0 then .fault .undefined
       else if s.env.EL = .el1 then
        (if s.env.NVx = 0b101#3 then slot
         else if s.env.NVx.getLsbD 0 = true then .fault (.systemAccessTrap .el2 0x18 w)
         else .fault .undefined)
       else if s.env.EL = .el2 then
        (if s.env.EL2InHost = true then
          (if s.cfg.HaveEL3 = true ∧ s.env.SDDUndefPriority = true ∧ en = false then .fault .undefined
           else if s.cfg.HaveEL3 = true ∧ en = false then
            (if s.env.SDDUndef = true then .fault .undefined else .fault (.systemAccessTrap .el3 0x18 w))
           else host)
         else .fault .undefined)
       else if s.env.EL2InHost = true then host
       else .fault .undefined) := by
  rw [el12Form, byLevel_eq hp, nvTrap_eq hw, el2Gate_eq hw, raiseUndefined]

/-- A form by an `_EL12` name where no check fires (rules R137, R198); `completed` is the answer of the slot when it is ready. -/
theorem el12Form_open {o completed : Out} {Ready : Prop} (ho : o = el12Form i s p en slot host) (hp : p = true)
    (hready : Ready → slot = completed) :
    (s.env.EL = .el1 → s.env.NVx = 0b101#3 → o = slot ∧ (Ready → o = completed)) ∧
    (s.env.EL = .el2 → s.env.EL2InHost = true → El3Allows s en → o = host) ∧
    (s.env.EL = .el3 → s.env.EL2InHost = true → o = host) := by
  rw [el12Form] at ho
  refine ⟨fun he hnv => ?_, fun he hh h3 => ?_, fun he hh => ?_⟩
  · rw [byLevel_el1 hp he, if_pos hnv] at ho
    exact ⟨ho, fun hr => ho.trans (hready hr)⟩
  · rw [ho, byLevel_el2 hp he, if_pos hh, el2Gate_open _ _ _ _ h3]
  · rw [ho, byLevel_el3 hp he, if_pos hh]

end

/-! ### The features of the SCTLR2 names -/

/-- The features the names SCTLR2_EL1 and SCTLR2_EL2 test, as the statements write them. -/
theorem sctlr2Present_iff (s : State) :
    sctlr2Present s = true ↔ s.cfg.FEAT_SCTLR2 = true ∧ s.cfg.FEAT_AA64 = true := by
  simp [sctlr2Present]

/-- With FEAT_VHE the name SCTLR2_EL12 tests the same features. -/
theorem sctlr2El12Present_iff {s : State} (hv : s.cfg.FEAT_VHE = true) :
    sctlr2El12Present s = true ↔ s.cfg.FEAT_SCTLR2 = true ∧ s.cfg.FEAT_AA64 = true := by
  simp [sctlr2El12Present, sctlr2Present_iff, hv]

/-- With FEAT_SRMASK the name SCTLR2ALIAS_EL1 tests the same features. -/
theorem sctlr2AliasPresent_iff {s : State} (hm : s.cfg.FEAT_SRMASK = true) :
    sctlr2AliasPresent s = true ↔ s.cfg.FEAT_SCTLR2 = true ∧ s.cfg.FEAT_AA64 = true := by
  simp [sctlr2AliasPresent, sctlr2Present_iff, hm]

/-! ### Each form in its shape -/

section
variable (t : Nat) (s : State)

/-- Rule R130: the two registers of the name, read. -/
theorem exec_mrsSctlr2El1_eq : exec (.mrsSctlr2El1 t) s =
    el1Form (.mrsSctlr2El1 t) s (sctlr2Present s) s.env.SCR_EL3_SCTLR2En s.env.HCR_EL2_TRVM
      (fgtClause s s.env.HFGRTR_EL2_SCTLR_EL1) s.env.HCRX_EL2_SCTLR2En (s.loadOutcome 0x278#64 t)
      (.next (s.afterRead .sctlr2El1 .sctlr2El1 t)) (.next (s.afterRead .sctlr2El1 .sctlr2El2 t))
      (.next (s.afterRead .sctlr2El1 .sctlr2El1 t)) := by
  simp only [exec, execMrsSctlr2El1, el1Form, nvLoad_eq, regRead_eq]

/-- Rule R131: a masked write at EL1 and at EL2 in host, a whole write elsewhere. -/
theorem exec_msrSctlr2El1_eq : exec (.msrSctlr2El1 t) s =
    el1Form (.msrSctlr2El1 t) s (sctlr2Present s) s.env.SCR_EL3_SCTLR2En s.env.HCR_EL2_TVM
      (fgtClause s s.env.HFGWTR_EL2_SCTLR_EL1) s.env.HCRX_EL2_SCTLR2En (s.storeOutcome 0x278#64 t)
      (.next (s.afterMasked .sctlr2El1 .sctlr2El1 s.effectiveMask1 t))
      (.next (s.afterMasked .sctlr2El1 .sctlr2El2 s.effectiveMask2 t))
      (.next (s.afterWrite .sctlr2El1 .sctlr2El1 t)) := by
  simp only [exec, execMsrSctlr2El1, el1Form, nvStore_eq, regWrite_eq, regWriteMasked_eq]

/-- Rule R132: a read of `SCTLR2_EL1`. -/
theorem exec_mrsSctlr2El12_eq : exec (.mrsSctlr2El12 t) s =
    el12Form (.mrsSctlr2El12 t) s (sctlr2El12Present s) s.env.SCR_EL3_SCTLR2En (s.loadOutcome 0x278#64 t)
      (.next (s.afterRead .sctlr2El12 .sctlr2El1 t)) := by
  simp only [exec, execMrsSctlr2El12, el12Form, nvLoad_eq, regRead_eq]

/-- Rule R133: a whole write of `SCTLR2_EL1`. -/
theorem exec_msrSctlr2El12_eq : exec (.msrSctlr2El12 t) s =
    el12Form (.msrSctlr2El12 t) s (sctlr2El12Present s) s.env.SCR_EL3_SCTLR2En (s.storeOutcome 0x278#64 t)
      (.next (s.afterWrite .sctlr2El12 .sctlr2El1 t)) := by
  simp only [exec, execMsrSctlr2El12, el12Form, nvStore_eq, regWrite_eq]

/-- Rule R134: as R130, with the FEAT_FGT2 clause. -/
theorem exec_mrsSctlr2AliasEl1_eq : exec (.mrsSctlr2AliasEl1 t) s =
    el1Form (.mrsSctlr2AliasEl1 t) s (sctlr2AliasPresent s) s.env.SCR_EL3_SCTLR2En s.env.HCR_EL2_TRVM
      (fgt2Clause s s.env.HFGRTR2_EL2_nSCTLR2ALIAS_EL1) s.env.HCRX_EL2_SCTLR2En (s.loadOutcome 0x278#64 t)
      (.next (s.afterRead .sctlr2AliasEl1 .sctlr2El1 t)) (.next (s.afterRead .sctlr2AliasEl1 .sctlr2El2 t))
      (.next (s.afterRead .sctlr2AliasEl1 .sctlr2El1 t)) := by
  simp only [exec, execMrsSctlr2AliasEl1, el1Form, nvLoad_eq, regRead_eq]

/-- Rule R135: as R131, with the FEAT_FGT2 clause. -/
theorem exec_msrSctlr2AliasEl1_eq : exec (.msrSctlr2AliasEl1 t) s =
    el1Form (.msrSctlr2AliasEl1 t) s (sctlr2AliasPresent s) s.env.SCR_EL3_SCTLR2En s.env.HCR_EL2_TVM
      (fgt2Clause s s.env.HFGWTR2_EL2_nSCTLR2ALIAS_EL1) s.env.HCRX_EL2_SCTLR2En (s.storeOutcome 0x278#64 t)
      (.next (s.afterMasked .sctlr2AliasEl1 .sctlr2El1 s.effectiveMask1 t))
      (.next (s.afterMasked .sctlr2AliasEl1 .sctlr2El2 s.effectiveMask2 t))
      (.next (s.afterWrite .sctlr2AliasEl1 .sctlr2El1 t)) := by
  simp only [exec, execMsrSctlr2AliasEl1, el1Form, nvStore_eq, regWrite_eq, regWriteMasked_eq]

end

/-! ### The outcomes, branch by branch -/

/-- Settles O10, from the if-chain of an `_EL1` form with its slot over an aligned base. -/
theorem mrsSctlr2El1Outcome : Obligations.MrsSctlr2El1Outcome := by
  rintro t s ht ⟨-, hal, -, -⟩
  have hw := encode_row_make_eq (row := ⟨0xD5381060#32, .mrsSctlr2El1⟩) (by simp [rows]) ht
  rw [exec_mrsSctlr2El1_eq, loadOutcome_of_aligned hal]
  exact el1Form_eq (sctlr2Present_iff s) (fgtClause_iff s _) hw

/-- Settles O11, from the if-chain of an `_EL1` form with its slot clear of the program text. -/
theorem msrSctlr2El1Outcome : Obligations.MsrSctlr2El1Outcome := by
  rintro t s ht ⟨-, hal, hclear, -⟩
  have hw := encode_row_make_eq (row := ⟨0xD5181060#32, .msrSctlr2El1⟩) (by simp [rows]) ht
  rw [exec_msrSctlr2El1_eq, storeOutcome_of_clear hal hclear]
  exact el1Form_eq (sctlr2Present_iff s) (fgtClause_iff s _) hw

/-- Settles O12, from the if-chain of an `_EL12` form with its slot over an aligned base. -/
theorem mrsSctlr2El12Outcome : Obligations.MrsSctlr2El12Outcome := by
  rintro t s ht ⟨-, hal, -, -⟩ hv
  have hw := encode_row_make_eq (row := ⟨0xD53D1060#32, .mrsSctlr2El12⟩) (by simp [rows]) ht
  rw [exec_mrsSctlr2El12_eq, loadOutcome_of_aligned hal]
  exact el12Form_eq (sctlr2El12Present_iff hv) hw

/-- Settles O13, from the if-chain of an `_EL12` form with its slot clear of the program text. -/
theorem msrSctlr2El12Outcome : Obligations.MsrSctlr2El12Outcome := by
  rintro t s ht ⟨-, hal, hclear, -⟩ hv
  have hw := encode_row_make_eq (row := ⟨0xD51D1060#32, .msrSctlr2El12⟩) (by simp [rows]) ht
  rw [exec_msrSctlr2El12_eq, storeOutcome_of_clear hal hclear]
  exact el12Form_eq (sctlr2El12Present_iff hv) hw

/-- Settles O14, as O10, with the FEAT_FGT2 clause and the feature of the alias. -/
theorem mrsSctlr2AliasEl1Outcome : Obligations.MrsSctlr2AliasEl1Outcome := by
  rintro t s ht ⟨-, hal, -, -⟩ hm
  have hw := encode_row_make_eq (row := ⟨0xD53814E0#32, .mrsSctlr2AliasEl1⟩) (by simp [rows]) ht
  rw [exec_mrsSctlr2AliasEl1_eq, loadOutcome_of_aligned hal]
  exact el1Form_eq (sctlr2AliasPresent_iff hm) (fgt2Clause_iff s _) hw

/-- Settles O15, as O11, with the FEAT_FGT2 clause and the feature of the alias. -/
theorem msrSctlr2AliasEl1Outcome : Obligations.MsrSctlr2AliasEl1Outcome := by
  rintro t s ht ⟨-, hal, hclear, -⟩ hm
  have hw := encode_row_make_eq (row := ⟨0xD51814E0#32, .msrSctlr2AliasEl1⟩) (by simp [rows]) ht
  rw [exec_msrSctlr2AliasEl1_eq, storeOutcome_of_clear hal hclear]
  exact el1Form_eq (sctlr2AliasPresent_iff hm) (fgt2Clause_iff s _) hw

/-! ### The results where no check fires -/

/-- Settles O22, from an `_EL1` form where no check fires. -/
theorem mrsSctlr2El1Completes : Obligations.MrsSctlr2El1Completes := fun t s hs ha =>
  el1Form_open (exec_mrsSctlr2El1_eq t s) ((sctlr2Present_iff s).mpr ⟨hs, ha⟩) (fgtClause_iff s _) loadOutcome_of_ready

/-- Settles O23, from an `_EL1` form where no check fires. -/
theorem msrSctlr2El1Completes : Obligations.MsrSctlr2El1Completes := fun t s hs ha =>
  el1Form_open (exec_msrSctlr2El1_eq t s) ((sctlr2Present_iff s).mpr ⟨hs, ha⟩) (fgtClause_iff s _) storeOutcome_of_ready

/-- Settles O24, from an `_EL12` form where no check fires. -/
theorem mrsSctlr2El12Completes : Obligations.MrsSctlr2El12Completes := fun t s hs ha hv =>
  el12Form_open (exec_mrsSctlr2El12_eq t s) ((sctlr2El12Present_iff hv).mpr ⟨hs, ha⟩) loadOutcome_of_ready

/-- Settles O25, from an `_EL12` form where no check fires. -/
theorem msrSctlr2El12Completes : Obligations.MsrSctlr2El12Completes := fun t s hs ha hv =>
  el12Form_open (exec_msrSctlr2El12_eq t s) ((sctlr2El12Present_iff hv).mpr ⟨hs, ha⟩) storeOutcome_of_ready

/-- Settles O26, from an `_EL1` form where no check fires. -/
theorem mrsSctlr2AliasEl1Completes : Obligations.MrsSctlr2AliasEl1Completes := fun t s hs ha hm =>
  el1Form_open (exec_mrsSctlr2AliasEl1_eq t s) ((sctlr2AliasPresent_iff hm).mpr ⟨hs, ha⟩) (fgt2Clause_iff s _)
    loadOutcome_of_ready

/-- Settles O27, from an `_EL1` form where no check fires, its masked writes all merges. -/
theorem msrSctlr2AliasEl1Completes : Obligations.MsrSctlr2AliasEl1Completes := by
  intro t s hs ha hm
  have hexec := exec_msrSctlr2AliasEl1_eq t s
  rw [afterMasked_of_srmask hm, afterMasked_of_srmask hm] at hexec
  exact el1Form_open hexec ((sctlr2AliasPresent_iff hm).mpr ⟨hs, ha⟩) (fgt2Clause_iff s _) storeOutcome_of_ready

end Sys2Proof.Machine
end

section
/-!
PROOFS. The outcomes of the two forms of the name SCTLR2_EL2: the shape they share, which is never redirected to NVMem, and
from it each form's outcome branch by branch and its result where no check fires.
-/

namespace Sys2Proof.Machine

/-! ### The shape of a form by an `_EL2` name -/

/-- A form by an `_EL2` name, in the answers it gives past the checks: at EL2 (`el2`) and at EL3 (`el3`). At EL1 it gives
none. -/
def el2Form (i : Instr) (s : State) (p en : Bool) (el2 el3 : Out) : Out :=
  byLevel p s (nvTrap i s) (el2Gate i s en el2) el3

section
variable {i : Instr} {s : State} {p en : Bool} {el2 el3 : Out}

/-- The whole if-chain of a form by an `_EL2` name (rules R150, R151). -/
theorem el2Form_eq {w : InstrWord} {P : Prop} [Decidable P] (hp : p = true ↔ P) (hw : encode i = w) :
    el2Form i s p en el2 el3 =
      (if ¬P then .fault .undefined
       else if s.env.EL = .el0 then .fault .undefined
       else if s.env.EL = .el1 then
        (if s.env.NVx.getLsbD 0 = true then .fault (.systemAccessTrap .el2 0x18 w) else .fault .undefined)
       else if s.env.EL = .el2 then
        (if s.cfg.HaveEL3 = true ∧ s.env.SDDUndefPriority = true ∧ en = false then .fault .undefined
         else if s.cfg.HaveEL3 = true ∧ en = false then
          (if s.env.SDDUndef = true then .fault .undefined else .fault (.systemAccessTrap .el3 0x18 w))
         else el2)
       else el3) := by
  rw [el2Form, byLevel_eq hp, nvTrap_eq hw, el2Gate_eq hw]

/-- A form by an `_EL2` name where no check fires (rules R137, R198). -/
theorem el2Form_open {o : Out} (ho : o = el2Form i s p en el2 el3) (hp : p = true) :
    (s.env.EL = .el2 → El3Allows s en → o = el2) ∧ (s.env.EL = .el3 → o = el3) := by
  rw [el2Form] at ho
  refine ⟨fun he h3 => ?_, fun he => ?_⟩
  · rw [ho, byLevel_el2 hp he, el2Gate_open _ _ _ _ h3]
  · rw [ho, byLevel_el3 hp he]

end

/-! ### Both forms in their shape -/

section
variable (t : Nat) (s : State)

/-- Rule R150: a read of `SCTLR2_EL2`. -/
theorem exec_mrsSctlr2El2_eq : exec (.mrsSctlr2El2 t) s =
    el2Form (.mrsSctlr2El2 t) s (sctlr2Present s) s.env.SCR_EL3_SCTLR2En
      (.next (s.afterRead .sctlr2El2 .sctlr2El2 t)) (.next (s.afterRead .sctlr2El2 .sctlr2El2 t)) := by
  simp only [exec, execMrsSctlr2El2, el2Form, regRead_eq]

/-- Rule R151: a masked write at EL2, in host or not, and a whole write at EL3. -/
theorem exec_msrSctlr2El2_eq : exec (.msrSctlr2El2 t) s =
    el2Form (.msrSctlr2El2 t) s (sctlr2Present s) s.env.SCR_EL3_SCTLR2En
      (.next (s.afterMasked .sctlr2El2 .sctlr2El2 s.effectiveMask2 t))
      (.next (s.afterWrite .sctlr2El2 .sctlr2El2 t)) := by
  simp only [exec, execMsrSctlr2El2, el2Form, regWrite_eq, regWriteMasked_eq]

end

/-! ### The outcomes, branch by branch -/

/-- Settles O16, from the if-chain of an `_EL2` form and the row's match word. -/
theorem mrsSctlr2El2Outcome : Obligations.MrsSctlr2El2Outcome := by
  intro t s ht
  have hw := encode_row_make_eq (row := ⟨0xD53C1060#32, .mrsSctlr2El2⟩) (by simp [rows]) ht
  rw [exec_mrsSctlr2El2_eq]
  exact el2Form_eq (sctlr2Present_iff s) hw

/-- Settles O17, from the if-chain of an `_EL2` form and the row's match word. -/
theorem msrSctlr2El2Outcome : Obligations.MsrSctlr2El2Outcome := by
  intro t s ht
  have hw := encode_row_make_eq (row := ⟨0xD51C1060#32, .msrSctlr2El2⟩) (by simp [rows]) ht
  rw [exec_msrSctlr2El2_eq]
  exact el2Form_eq (sctlr2Present_iff s) hw

/-! ### The results where no check fires -/

/-- Settles O28, from an `_EL2` form where no check fires. -/
theorem mrsSctlr2El2Completes : Obligations.MrsSctlr2El2Completes := fun t s hs ha =>
  el2Form_open (exec_mrsSctlr2El2_eq t s) ((sctlr2Present_iff s).mpr ⟨hs, ha⟩)

/-- Settles O29, from an `_EL2` form where no check fires. -/
theorem msrSctlr2El2Completes : Obligations.MsrSctlr2El2Completes := fun t s hs ha =>
  el2Form_open (exec_msrSctlr2El2_eq t s) ((sctlr2Present_iff s).mpr ⟨hs, ha⟩)

end Sys2Proof.Machine
end

section
/-!
PROOFS. The outcomes of the four forms of the names SCTLR2MASK_EL1 and SCTLR2MASK_EL12, which have the two shapes of the
SCTLR2 names: each form's outcome branch by branch and its result where no check fires. An `_EL1` mask name has no TVM or
TRVM test, and its write is locked where a mask is in effect.
-/

namespace Sys2Proof.Machine

/-! ### The features of the SCTLR2MASK names -/

/-- The features the name SCTLR2MASK_EL1 tests, as the statements write them. -/
theorem sctlr2MaskPresent_iff (s : State) :
    sctlr2MaskPresent s = true ↔ s.cfg.FEAT_SRMASK = true ∧ s.cfg.FEAT_AA64 = true := by
  simp [sctlr2MaskPresent]

/-- With FEAT_VHE the name SCTLR2MASK_EL12 tests the same features. -/
theorem sctlr2MaskEl12Present_iff {s : State} (hv : s.cfg.FEAT_VHE = true) :
    sctlr2MaskEl12Present s = true ↔ s.cfg.FEAT_SRMASK = true ∧ s.cfg.FEAT_AA64 = true := by
  simp [sctlr2MaskEl12Present, sctlr2MaskPresent_iff, hv]

/-! ### The fine-grained and the TVM clause of an `_EL1` mask name -/

/-- The FEAT_FGT2 clause, as the statements write it out (rule R160). -/
theorem fgt2Clause_iff_written (s : State) (nbit : Bool) : fgt2Clause s nbit = true ↔
    s.cfg.FEAT_FGT2 = true ∧ ((s.cfg.HaveEL3 = true ∧ s.env.SCR_EL3_FGTEn2 = false) ∨ nbit = false) :=
  fgt2Clause_iff s nbit

/-- The TVM or TRVM clause of a name without that test never fires. -/
theorem ite_and_false_eq {P : Prop} [Decidable P] (a b : Out) : (if P ∧ false = true then a else b) = b :=
  if_neg fun h => Bool.false_ne_true h.2

/-! ### Each form in its shape -/

section
variable (t : Nat) (s : State)

/-- Rule R160: the two registers of the name, read. -/
theorem exec_mrsSctlr2MaskEl1_eq : exec (.mrsSctlr2MaskEl1 t) s =
    el1Form (.mrsSctlr2MaskEl1 t) s (sctlr2MaskPresent s) s.env.SCR_EL3_SRMASKEn false
      (fgt2Clause s s.env.HFGRTR2_EL2_nSCTLR2MASK_EL1) s.env.HCRX_EL2_SRMASKEn (s.loadOutcome 0x328#64 t)
      (.next (s.afterRead .sctlr2MaskEl1 .sctlr2MaskEl1 t)) (.next (s.afterRead .sctlr2MaskEl1 .sctlr2MaskEl2 t))
      (.next (s.afterRead .sctlr2MaskEl1 .sctlr2MaskEl1 t)) := by
  simp only [exec, execMrsSctlr2MaskEl1, el1Form, nvLoad_eq, regRead_eq]

/-- Rule R161: a locked write at EL1 and at EL2 in host (rule R165), a whole write elsewhere. -/
theorem exec_msrSctlr2MaskEl1_eq : exec (.msrSctlr2MaskEl1 t) s =
    el1Form (.msrSctlr2MaskEl1 t) s (sctlr2MaskPresent s) s.env.SCR_EL3_SRMASKEn false
      (fgt2Clause s s.env.HFGWTR2_EL2_nSCTLR2MASK_EL1) s.env.HCRX_EL2_SRMASKEn (s.storeOutcome 0x328#64 t)
      (if s.effectiveMask1.1 = 0#64 then
        .next (s.afterMerge .sctlr2MaskEl1 .sctlr2MaskEl1 (s.readX t) 0#64 s.effectiveMask1.2) else .fault .undefined)
      (if s.effectiveMask2.1 = 0#64 then
        .next (s.afterMerge .sctlr2MaskEl1 .sctlr2MaskEl2 (s.readX t) 0#64 s.effectiveMask2.2) else .fault .undefined)
      (.next (s.afterWrite .sctlr2MaskEl1 .sctlr2MaskEl1 t)) := by
  simp only [exec, execMsrSctlr2MaskEl1, el1Form, nvStore_eq, regWrite_eq, regWriteLocked_eq]

/-- Rule R162: a read of `SCTLR2MASK_EL1`. -/
theorem exec_mrsSctlr2MaskEl12_eq : exec (.mrsSctlr2MaskEl12 t) s =
    el12Form (.mrsSctlr2MaskEl12 t) s (sctlr2MaskEl12Present s) s.env.SCR_EL3_SRMASKEn (s.loadOutcome 0x328#64 t)
      (.next (s.afterRead .sctlr2MaskEl12 .sctlr2MaskEl1 t)) := by
  simp only [exec, execMrsSctlr2MaskEl12, el12Form, nvLoad_eq, regRead_eq]

/-- Rule R163: a whole write of `SCTLR2MASK_EL1`, never locked. -/
theorem exec_msrSctlr2MaskEl12_eq : exec (.msrSctlr2MaskEl12 t) s =
    el12Form (.msrSctlr2MaskEl12 t) s (sctlr2MaskEl12Present s) s.env.SCR_EL3_SRMASKEn (s.storeOutcome 0x328#64 t)
      (.next (s.afterWrite .sctlr2MaskEl12 .sctlr2MaskEl1 t)) := by
  simp only [exec, execMsrSctlr2MaskEl12, el12Form, nvStore_eq, regWrite_eq]

end

/-! ### The outcomes, branch by branch -/

/-- Settles O18, from the if-chain of an `_EL1` form with its slot over an aligned base and its TRVM clause dropped. -/
theorem mrsSctlr2MaskEl1Outcome : Obligations.MrsSctlr2MaskEl1Outcome := by
  rintro t s ht ⟨-, hal, -, -⟩
  have hw := encode_row_make_eq (row := ⟨0xD5381460#32, .mrsSctlr2MaskEl1⟩) (by simp [rows]) ht
  rw [exec_mrsSctlr2MaskEl1_eq, loadOutcome_of_aligned hal,
    el1Form_eq (sctlr2MaskPresent_iff s) (fgt2Clause_iff_written s _) hw, ite_and_false_eq]

/-- Settles O19, as O18, with the lock read as the test of a non-zero mask. -/
theorem msrSctlr2MaskEl1Outcome : Obligations.MsrSctlr2MaskEl1Outcome := by
  rintro t s ht ⟨-, hal, -, hclear⟩
  have hw := encode_row_make_eq (row := ⟨0xD5181460#32, .msrSctlr2MaskEl1⟩) (by simp [rows]) ht
  rw [exec_msrSctlr2MaskEl1_eq, storeOutcome_of_clear hal hclear,
    el1Form_eq (sctlr2MaskPresent_iff s) (fgt2Clause_iff_written s _) hw, ite_and_false_eq]
  simp only [ne_eq, ite_not]

/-- Settles O20, from the if-chain of an `_EL12` form with its slot over an aligned base. -/
theorem mrsSctlr2MaskEl12Outcome : Obligations.MrsSctlr2MaskEl12Outcome := by
  rintro t s ht ⟨-, hal, -, -⟩ hv
  have hw := encode_row_make_eq (row := ⟨0xD53D1460#32, .mrsSctlr2MaskEl12⟩) (by simp [rows]) ht
  rw [exec_mrsSctlr2MaskEl12_eq, loadOutcome_of_aligned hal]
  exact el12Form_eq (sctlr2MaskEl12Present_iff hv) hw

/-- Settles O21, from the if-chain of an `_EL12` form with its slot clear of the program text. -/
theorem msrSctlr2MaskEl12Outcome : Obligations.MsrSctlr2MaskEl12Outcome := by
  rintro t s ht ⟨-, hal, -, hclear⟩ hv
  have hw := encode_row_make_eq (row := ⟨0xD51D1460#32, .msrSctlr2MaskEl12⟩) (by simp [rows]) ht
  rw [exec_msrSctlr2MaskEl12_eq, storeOutcome_of_clear hal hclear]
  exact el12Form_eq (sctlr2MaskEl12Present_iff hv) hw

/-! ### The results where no check fires -/

/-- Settles O30, from an `_EL1` form where no check fires. -/
theorem mrsSctlr2MaskEl1Completes : Obligations.MrsSctlr2MaskEl1Completes := fun t s hm ha =>
  el1Form_open (exec_mrsSctlr2MaskEl1_eq t s) ((sctlr2MaskPresent_iff s).mpr ⟨hm, ha⟩) (fgt2Clause_iff s _)
    loadOutcome_of_ready

/-- Settles O31, from an `_EL1` form where no check fires, with the lock in both cases of the mask. -/
theorem msrSctlr2MaskEl1Completes : Obligations.MsrSctlr2MaskEl1Completes := fun t s hm ha =>
  el1Form_open (exec_msrSctlr2MaskEl1_eq t s) ((sctlr2MaskPresent_iff s).mpr ⟨hm, ha⟩) (fgt2Clause_iff s _)
    storeOutcome_of_ready

/-- Settles O32, from an `_EL12` form where no check fires. -/
theorem mrsSctlr2MaskEl12Completes : Obligations.MrsSctlr2MaskEl12Completes := fun t s hm ha hv =>
  el12Form_open (exec_mrsSctlr2MaskEl12_eq t s) ((sctlr2MaskEl12Present_iff hv).mpr ⟨hm, ha⟩) loadOutcome_of_ready

/-- Settles O33, from an `_EL12` form where no check fires. -/
theorem msrSctlr2MaskEl12Completes : Obligations.MsrSctlr2MaskEl12Completes := fun t s hm ha hv =>
  el12Form_open (exec_msrSctlr2MaskEl12_eq t s) ((sctlr2MaskEl12Present_iff hv).mpr ⟨hm, ha⟩) storeOutcome_of_ready

end Sys2Proof.Machine
end

section
/-!
PROOFS. The System access trap: where it is taken from and to, and what it carries.
-/

namespace Sys2Proof.Machine

/-! ### The fault of an NVMem transfer -/

/-- The only fault of a load is NVMemFault (rule R182). -/
theorem loadOutcome_fault_eq {s : State} {off : Word} {t : Nat} {f : Fault} (h : s.loadOutcome off t = .fault f) :
    f = .nvMemFault := by
  obtain ⟨hf, hal⟩ := loadOutcome_fault h
  rw [loadOutcome_of_aligned hal, if_pos hf] at h
  cases h; rfl

/-- The only fault of a store is NVMemFault (rule R182). -/
theorem storeOutcome_fault_eq {s : State} {off : Word} {t : Nat} {f : Fault} (h : s.storeOutcome off t = .fault f) :
    f = .nvMemFault := by
  unfold State.storeOutcome at h
  split at h
  · cases h
  split at h
  · cases h
  split at h
  · cases h; rfl
  · cases h

/-! ### The trap -/

/-- A System access trap is of class 0x18 and carries the instruction's word; it goes from EL1 to EL2, or from EL1 or EL2 to
an implemented EL3 (rules R181, R183, R198). -/
theorem exec_trap {i : Instr} {s : State} {target : EL} {cls : Nat} {w : InstrWord}
    (h : exec i s = .fault (.systemAccessTrap target cls w)) :
    cls = 0x18 ∧ w = encode i ∧
      ((s.env.EL = .el1 ∧ target = .el2) ∨
       ((s.env.EL = .el1 ∨ s.env.EL = .el2) ∧ s.cfg.HaveEL3 = true ∧ target = .el3)) := by
  have hout : ExecOutcome i s _ := h ▸ exec_outcome i s
  obtain hu | ⟨he, ht⟩ | ⟨he, h3, ht⟩ | ⟨off, -, -, ⟨-, hl⟩ | ⟨-, hs⟩⟩ | ⟨s', hn⟩ := hout
  · cases hu
  · cases ht; exact ⟨rfl, rfl, .inl ⟨he, rfl⟩⟩
  · cases ht; exact ⟨rfl, rfl, .inr ⟨he, h3, rfl⟩⟩
  · cases loadOutcome_fault_eq hl.symm
  · cases storeOutcome_fault_eq hs.symm
  · cases hn

/-- Settles O35, from the two ways a trap can go. -/
theorem trapsGoUp : Obligations.TrapsGoUp := by
  intro i s target cls w h
  obtain ⟨hcls, hw, ⟨he, rfl⟩ | ⟨he, h3, rfl⟩⟩ := exec_trap h
  · exact ⟨hcls, hw, nofun, .inl ⟨he, .inl rfl⟩⟩
  · exact ⟨hcls, hw, fun _ => h3, he.imp (fun he => ⟨he, .inr rfl⟩) (fun he => ⟨he, rfl⟩)⟩

end Sys2Proof.Machine
end

section
/-!
PROOFS. The state after reset: it meets the invariant that every step keeps (its values are log entry 1).
-/

namespace Sys2Proof.Machine

/-- The program counter after reset is aligned (rule R231). -/
theorem reset_pcAligned : State.reset.pcAligned = true := (pcAligned_iff _).2 (by decide)

/-- After reset no System register has an unsynchronised write. -/
theorem reset_pending (r : SysRegId) : (State.reset.reg r).pending = [] := by
  cases r <;> rfl

/-- Where nothing is unsynchronised, no name has to reach a register. -/
theorem writersReach_of_pending_nil {s : State} (h : ∀ r, (s.reg r).pending = []) : s.WritersReach := by
  intro r w hmem
  rw [h r] at hmem
  cases hmem

/-- Settles O60, by the three parts of the invariant. -/
theorem resetMeetsInvariant : Obligations.ResetMeetsInvariant :=
  (inv_iff _).2 ⟨reset_mem_wf, reset_pcAligned, writersReach_of_pending_nil reset_pending⟩

end Sys2Proof.Machine
end
